-- ==== Sys2Proof/Word.lean ====
section
/-! DEFINITION. The word types of the block (00_scope.md R8, R9). -/

namespace Sys2Proof

/-- A `u32`: every register and every bus word (R8). -/
abbrev Word := BitVec 32

/-- The interchange encoding of a binary32 value (R9). -/
abbrev F32 := BitVec 32

/-- The interchange encoding of a binary64 value (R9). -/
abbrev F64 := BitVec 64

/-- A word address of the host port (20_memory.md R60). -/
abbrev HostAddr := BitVec 16

end Sys2Proof
end

