-- ==== Sys2Proof/Syntax.lean ====
section
/-! DEFINITION. The command words' syntax (30_encoding.md), and the events of the block's two ports
(00_scope.md R15). -/

namespace Sys2Proof

/-- The two audio channels (00_scope.md R6: channel 0 = left, channel 1 = right). -/
inductive Channel where
  | ch0
  | ch1
deriving DecidableEq, Repr

/-- The commands, one constructor for each row of spec/opcode_table.json (30_encoding.md R86).
`chm` is the field CHM of R81, `cnt` the count of R82 (0 to 65535). -/
inductive Instr where
  /-- NOP, 43_control.md R190. -/
  | nop
  /-- PREPARE, 42_channel_filter.md R150. -/
  | prepare
  /-- UPDATE, 41_designer.md R140. -/
  | update
  /-- SETC, 42_channel_filter.md R160. -/
  | setc (chm : BitVec 2)
  /-- PROC, 42_channel_filter.md R165. -/
  | proc (chm : BitVec 2) (cnt : Nat)
  /-- HRST, 42_channel_filter.md R170. -/
  | hrst (chm : BitVec 2)
  /-- SRST, 43_control.md R191. -/
  | srst
deriving DecidableEq, Repr

/-- Why a word is no command: the four items of 30_encoding.md R87, in that order. -/
inductive IllegalWord where
  /-- OP in 0x6 to 0xE. -/
  | op
  /-- RSV not 0 (R83). -/
  | rsv
  /-- NOP, PREPARE, UPDATE or SRST with CHM or CNT not 0 (R84). -/
  | chmOrCnt
  /-- SETC or HRST with CNT not 0 (R84). -/
  | cnt
deriving DecidableEq, Repr

/-- The two ports of 20_memory.md R60. -/
inductive Port where
  | host
  | control
deriving DecidableEq, Repr

/-- What the outside world can do to the block (00_scope.md R15, 20_memory.md R60 to R69,
70_reset_and_hazards.md R230). -/
inductive Event where
  /-- A host read of a word address. -/
  | hostRead (a : HostAddr)
  /-- A host write of a word; at address 0x0000 it issues a command (10_state.md R23). -/
  | hostWrite (a : HostAddr) (v : Word)
  /-- A control-port read of NOTE (R69). -/
  | ctrlRead
  /-- A control-port write of NOTE (R69). -/
  | ctrlWrite (v : Word)
  /-- An access of another width than 32 bits, which is not part of the interface (R62). -/
  | otherWidth (port : Port) (bits : Nat)
  /-- A power-on reset (R230). -/
  | powerOn
deriving DecidableEq, Repr

end Sys2Proof
end

