-- ==== Sys2Proof/Decode.lean ====
section
/-! DEFINITION. The decoder and the encoder of 30_encoding.md. -/

namespace Sys2Proof

/-- OP, bits 3:0 (R81). -/
def opField (w : Word) : BitVec 4 := w.extractLsb' 0 4

/-- CHM, bits 5:4 (R81). -/
def chmField (w : Word) : BitVec 2 := w.extractLsb' 4 2

/-- RSV, bits 15:6 (R81). -/
def rsvField (w : Word) : BitVec 10 := w.extractLsb' 6 10

/-- CNT, bits 31:16 (R81). -/
def cntField (w : Word) : BitVec 16 := w.extractLsb' 16 16

/-- A command of the whole block: CHM and CNT must be 0 (R84). -/
def decodeWhole (w : Word) (i : Instr) : Except IllegalWord Instr :=
  if chmField w = 0#2 ∧ cntField w = 0#16 then .ok i else .error .chmOrCnt

/-- A command of the selected channels without a count: CNT must be 0 (R84). -/
def decodeChannels (w : Word) (mk : BitVec 2 → Instr) : Except IllegalWord Instr :=
  if cntField w = 0#16 then .ok (mk (chmField w)) else .error .cnt

/-- The decoder of R80 to R88: total, and a word outside the opcode table of R86 is rejected by the
first item of R87 that names it. -/
def decode (w : Word) : Except IllegalWord Instr :=
  if 0x6#4 ≤ opField w ∧ opField w ≤ 0xE#4 then .error .op
  else if rsvField w ≠ 0#10 then .error .rsv
  else if opField w = 0x0#4 then decodeWhole w .nop
  else if opField w = 0x1#4 then decodeWhole w .prepare
  else if opField w = 0x2#4 then decodeWhole w .update
  else if opField w = 0x3#4 then decodeChannels w .setc
  else if opField w = 0x4#4 then .ok (.proc (chmField w) (cntField w).toNat)
  else if opField w = 0x5#4 then decodeChannels w .hrst
  else decodeWhole w .srst

/-- The one format `C` of R81, with RSV = 0 (R83). -/
def formatC (op : BitVec 4) (chm : BitVec 2) (cnt : BitVec 16) : Word :=
  cnt ++ (0#10 ++ (chm ++ op))

/-- The encoder (R86). -/
def encode : Instr → Word
  | .nop => formatC 0x0#4 0#2 0#16
  | .prepare => formatC 0x1#4 0#2 0#16
  | .update => formatC 0x2#4 0#2 0#16
  | .setc chm => formatC 0x3#4 chm 0#16
  | .proc chm cnt => formatC 0x4#4 chm (BitVec.ofNat 16 cnt)
  | .hrst chm => formatC 0x5#4 chm 0#16
  | .srst => formatC 0xF#4 0#2 0#16

/-- `match` and `mask` of the row of R86 that an instruction belongs to. -/
def rowOf : Instr → Word × Word
  | .nop => (0x00000000#32, 0xFFFFFFFF#32)
  | .prepare => (0x00000001#32, 0xFFFFFFFF#32)
  | .update => (0x00000002#32, 0xFFFFFFFF#32)
  | .setc _ => (0x00000003#32, 0xFFFFFFCF#32)
  | .proc _ _ => (0x00000004#32, 0x0000FFCF#32)
  | .hrst _ => (0x00000005#32, 0xFFFFFFCF#32)
  | .srst => (0x0000000F#32, 0xFFFFFFFF#32)

/-- The opcode table of R86 as pairs (match, mask), in its order. -/
def opcodeTable : List (Word × Word) :=
  [(0x00000000#32, 0xFFFFFFFF#32), (0x00000001#32, 0xFFFFFFFF#32),
   (0x00000002#32, 0xFFFFFFFF#32), (0x00000003#32, 0xFFFFFFCF#32),
   (0x00000004#32, 0x0000FFCF#32), (0x00000005#32, 0xFFFFFFCF#32),
   (0x0000000F#32, 0xFFFFFFFF#32)]

/-- The row selects the word: `(w & mask) == match` (R80). -/
def rowSelects (row : Word × Word) (w : Word) : Bool := (w &&& row.2) == row.1

/-- The decoder on a word numbered as spec/opcode_table.json numbers it; every command is one 32-bit
word (R81), so a shorter word has zeros above its bits. -/
def decodeTableWord (nbits w : Nat) : Option Instr :=
  match decode (BitVec.ofNat 32 (w % 2 ^ nbits)) with
  | .ok i => some i
  | .error _ => none

end Sys2Proof
end

