-- ==== Sys2Proof/Config.lean ====
section
/-! DEFINITION. What an implementation fixes (00_scope.md R6, 93_implementation_defined.md U7) and
the values the spec leaves free (U5, U6). -/

namespace Sys2Proof

/-- The parameters that 00_scope.md R6 leaves to an implementation (U7); the record is part of the
state so that a statement about every state is a statement about every configuration (log 4). -/
structure Config where
  /-- BUF_CAP, sample words per channel buffer. -/
  bufCap : Nat
  /-- F_BYPASS, the placeholder frequency of Bypass. -/
  fBypass : F64
  /-- CLAMP_RATIO, the Nyquist clamp factor. -/
  clampRatio : F64
  /-- FS_MIN, the lowest sample rate kept. -/
  fsMin : F64
  /-- FS_MAX, the highest sample rate kept. -/
  fsMax : F64
  /-- ID_VALUE, the contents of the ID register. -/
  idValue : Word
deriving DecidableEq, Repr

namespace Config

/-- The defaults of 00_scope.md R6. -/
def default : Config where
  bufCap := 4096
  fBypass := 0x4034000000000000#64
  clampRatio := 0x3FDF5C28F5C28F5C#64
  fsMin := 0x3FF0000000000000#64
  fsMax := 0x412E848000000000#64
  idValue := 0x4251504B#32

/-- The magnitude of a binary64 pattern: all its bits but the sign. -/
def magnitude64 (w : F64) : Nat := w.toNat % 2 ^ 63

/-- The pattern is a finite binary64 (R9). -/
def isFinite64 (w : F64) : Prop := magnitude64 w < 0x7FF0000000000000

/-- The pattern is a binary64 in [-1.0, 1.0]: its magnitude is at most that of 1.0. -/
def inUnit64 (w : F64) : Prop := magnitude64 w ≤ 0x3FF0000000000000

/-- A pair of total functions from binary64 to binary64 with the property TRIG_BOUNDED of
00_scope.md R7, the only property a proof may assume of them. -/
structure Trig where
  /-- SIN64 -/
  sin : F64 → F64 := fun _ => 0#64
  /-- COS64 -/
  cos : F64 → F64 := fun _ => 0#64
  sin_bounded : ∀ w, isFinite64 w → inUnit64 (sin w) := by simp [inUnit64, magnitude64]
  cos_bounded : ∀ w, isFinite64 w → inUnit64 (cos w) := by simp [inUnit64, magnitude64]
deriving Inhabited

/-- The block's sine and cosine (R7, U6, log 3): a free value, of which nothing but TRIG_BOUNDED is
known. -/
opaque trig : Trig

/-- SIN64 (R7). -/
def sin64 (w : F64) : F64 := trig.sin w

/-- COS64 (R7). -/
def cos64 (w : F64) : F64 := trig.cos w

/-- The free value of the `n`-th read of a buffer word that nothing has stored (20_memory.md R79,
U5, log 2). -/
opaque freeWord : Nat → Word

end Config

end Sys2Proof
end

