-- ==== Sys2Proof/Machine/State.lean ====
section
/-! DEFINITION. The state of the block (10_state.md) as plain data, its reset value (R44), and the
reasons a step can stop. -/

namespace Sys2Proof.Machine

/-- One value per channel. -/
structure PerChannel (α : Type) where
  ch0 : α
  ch1 : α
deriving DecidableEq, Repr

/-- STATUS (R25), by its fields; the reserved bits hold nothing (R32). -/
structure Status where
  /-- Bit 0, PREP (R26). -/
  prep : Bool
  /-- Bits 1 and 2, RUN0 and RUN1 (R27). -/
  run : PerChannel Bool
  /-- Bit 3, FCLAMP (R28). -/
  fclamp : Bool
  /-- Bit 4, FSCLAMP (R29). -/
  fsclamp : Bool
  /-- Bit 8, ERR (R30). -/
  err : Bool
  /-- Bits 15:12, ECODE (R31). -/
  ecode : BitVec 4
deriving DecidableEq, Repr

/-- A coefficient file: five binary32 fields, normalized so that a0 = 1 (R40). -/
structure Coef where
  b0 : F32
  b1 : F32
  b2 : F32
  a1 : F32
  a2 : F32
deriving DecidableEq, Repr

/-- A history file: x[n-1], x[n-2], y[n-1], y[n-2] (R41). -/
structure Hist where
  x1 : F32
  x2 : F32
  y1 : F32
  y2 : F32
deriving DecidableEq, Repr

/-- The argument registers (R34, R35, R36); `coef` is ARG_B0 to ARG_A2. -/
structure Args where
  maxBlk : Word
  fsLo : Word
  fsHi : Word
  coef : Coef
deriving DecidableEq, Repr

/-- The sample buffers' stored words by host word address (R42, 20_memory.md R63).  The block has no
bytes (20_memory.md R61), so a cell is a word (log 1). -/
abbrev Memory := List (Nat × Word)

/-- The state. -/
structure State where
  /-- The implementation parameters, which no step changes (log 4). -/
  cfg : Config
  /-- STATUS (R25). -/
  status : Status
  /-- NOTE (R33). -/
  note : Word
  /-- The argument registers (R34, R35, R36). -/
  args : Args
  /-- FS, the pair FS_HI ++ FS_LO (R37). -/
  fs : F64
  /-- MAXBLK (R38). -/
  maxBlk : Word
  /-- COEF[0] and COEF[1] (R40). -/
  coef : PerChannel Coef
  /-- HIST[0] and HIST[1] (R41). -/
  hist : PerChannel Hist
  /-- BUF[0] and BUF[1] (R42): the words stored since power-on. -/
  buf : Memory
  /-- The model's own: what the outside world does next, in the one total order of 20_memory.md R70
  (log 5). -/
  pending : List Event
  /-- The model's own: the word the last host read returned (log 7). -/
  hostReply : Option Word
  /-- The model's own: the word the last control read returned (log 7). -/
  ctrlReply : Option Word
  /-- The model's own: how many free words have been drawn (20_memory.md R79, log 2). -/
  draws : Nat
deriving DecidableEq, Repr

/-- The machine faults.  There are none: the block takes no traps (60_exceptions.md R209) and never
hangs or stops on an error (R208); its errors are recorded in STATUS and the run goes on (R201,
log 9). -/
inductive Fault where
deriving DecidableEq, Repr

/-- The reasons for which the model has no transition. -/
inductive Refusal where
  /-- An instruction without a meaning in the model; no arm of `exec` raises it.  Safe. -/
  | notModelled (mnemonic : String)
  /-- Raised by `perform` for an access of another width than 32 bits, which 20_memory.md R62 says a
  model refuses (U8, log 8).  Safe. -/
  | accessWidth (port : Port) (bits : Nat)
deriving DecidableEq, Repr

/-- The identity set (R40). -/
def Coef.identity : Coef := ⟨0x3F800000#32, 0#32, 0#32, 0#32, 0#32⟩

/-- A history of zeros (R41). -/
def Hist.zero : Hist := ⟨0#32, 0#32, 0#32, 0#32⟩

/-- STATUS after reset (R44). -/
def Status.reset : Status := ⟨false, ⟨false, false⟩, false, false, false, 0#4⟩

/-- The argument registers after reset (R44). -/
def Args.reset : Args := ⟨0#32, 0#32, 0#32, ⟨0#32, 0#32, 0#32, 0#32, 0#32⟩⟩

/-- The state after power-on (R44, 70_reset_and_hazards.md R230) with the default configuration, no
buffer word stored and nothing pending. -/
def State.reset : State where
  cfg := Config.default
  status := Status.reset
  note := 0#32
  args := Args.reset
  fs := 0#64
  maxBlk := 0#32
  coef := ⟨Coef.identity, Coef.identity⟩
  hist := ⟨Hist.zero, Hist.zero⟩
  buf := []
  pending := []
  hostReply := none
  ctrlReply := none
  draws := 0

end Sys2Proof.Machine
end

