-- ==== Sys2Proof/Machine/Ops.lean ====
section
/-! DEFINITION. The named operations over registers and buffer words, and the error action. -/

namespace Sys2Proof.Machine

/-! ## Per-channel files -/

/-- The value of a channel. -/
def PerChannel.get {α : Type} (p : PerChannel α) : Channel → α
  | .ch0 => p.ch0
  | .ch1 => p.ch1

/-- The file with a channel's value replaced. -/
def PerChannel.set {α : Type} (p : PerChannel α) (c : Channel) (v : α) : PerChannel α :=
  match c with
  | .ch0 => { p with ch0 := v }
  | .ch1 => { p with ch1 := v }

/-! ## Writing the fields of the state -/

def State.setStatus (s : State) (v : Status) : State := { s with status := v }
def State.setNote (s : State) (v : Word) : State := { s with note := v }
def State.setArgs (s : State) (v : Args) : State := { s with args := v }
def State.setFs (s : State) (v : F64) : State := { s with fs := v }
def State.setMaxBlk (s : State) (v : Word) : State := { s with maxBlk := v }
def State.setCoef (s : State) (v : PerChannel Coef) : State := { s with coef := v }
def State.setHist (s : State) (v : PerChannel Hist) : State := { s with hist := v }
def State.setBuf (s : State) (v : Memory) : State := { s with buf := v }
def State.setPending (s : State) (v : List Event) : State := { s with pending := v }
def State.setHostReply (s : State) (v : Option Word) : State := { s with hostReply := v }
def State.setCtrlReply (s : State) (v : Option Word) : State := { s with ctrlReply := v }
def State.setDraws (s : State) (v : Nat) : State := { s with draws := v }

/-- RUN[c] <- v (R27). -/
def State.setRun (s : State) (c : Channel) (v : Bool) : State :=
  s.setStatus { s.status with run := s.status.run.set c v }

/-- COEF[c] <- k (R40). -/
def State.setCoefOf (s : State) (c : Channel) (k : Coef) : State := s.setCoef (s.coef.set c k)

/-- HIST[c] <- h (R41). -/
def State.setHistOf (s : State) (c : Channel) (h : Hist) : State := s.setHist (s.hist.set c h)

/-! ## Buffer words -/

/-- The stored word at an address. -/
def Memory.find : Memory → Nat → Option Word
  | [], _ => none
  | (k, v) :: rest, a => if k = a then some v else Memory.find rest a

/-- Stores a word at its place in the rising order of addresses. -/
def Memory.store : Memory → Nat → Word → Memory
  | [], a, v => [(a, v)]
  | (k, u) :: rest, a, v =>
    if a < k then (a, v) :: (k, u) :: rest
    else if a = k then (a, v) :: rest
    else (k, u) :: Memory.store rest a v

/-- BUFBASE (20_memory.md R63). -/
def bufBase : Channel → Nat
  | .ch0 => 0x4000
  | .ch1 => 0x8000

/-- The address is a word of a buffer: BUFBASE[c] + i with i < BUF_CAP, within the window of 0x4000
addresses (20_memory.md R63). -/
def isBufWord (cap a : Nat) : Bool :=
  (decide (0x4000 ≤ a) && decide (a < 0x8000) && decide (a < 0x4000 + cap)) ||
    (decide (0x8000 ≤ a) && decide (a < 0xC000) && decide (a < 0x8000 + cap))

/-- The addresses of the cells rise strictly from `low` on, and each is a buffer word. -/
def Memory.wfFrom (cap : Nat) : Nat → Memory → Bool
  | _, [] => true
  | low, (k, _) :: rest => decide (low ≤ k) && isBufWord cap k && Memory.wfFrom cap (k + 1) rest

/-- The canonical form of the buffers: strictly rising addresses of buffer words.  What an unlisted
buffer word reads as is a free draw, so no listed word can equal it (20_memory.md R79, log 2). -/
def Memory.wf (cap : Nat) (m : Memory) : Bool := Memory.wfFrom cap 0 m

/-- `MemRead(a, 4)` (R10, 20_memory.md R63).  A buffer word that nothing has stored gives a free draw
(R79, log 2); a reserved address gives 0 (R64). -/
def memRead (s : State) (a : Nat) : Word × State :=
  if isBufWord s.cfg.bufCap a then
    match s.buf.find a with
    | some v => (v, s)
    | none => (Config.freeWord s.draws, s.setDraws (s.draws + 1))
  else (0#32, s)

/-- `MemWrite(a, 4, v)` (R10, 20_memory.md R63); a write to a reserved address is ignored (R64). -/
def memWrite (s : State) (a : Nat) (v : Word) : State :=
  if isBufWord s.cfg.bufCap a then s.setBuf (s.buf.store a v) else s

/-! ## Errors -/

/-- The errors of 60_exceptions.md R200. -/
inductive ErrorCode where
  | illegalCmd
  | notPrepared
  | countRange
  | maxBlkRange
deriving DecidableEq, Repr

/-- The values of ECODE (R200). -/
def ErrorCode.code : ErrorCode → BitVec 4
  | .illegalCmd => 1#4
  | .notPrepared => 2#4
  | .countRange => 3#4
  | .maxBlkRange => 4#4

/-- `raise Error(code)` (60_exceptions.md R201): ERR is set, ECODE keeps the first code, and the
command has no other effect.  It is no trap: nothing is saved and nothing is vectored (R209). -/
def raiseError (e : ErrorCode) (s : State) : State :=
  s.setStatus { s.status with
    err := true
    ecode := if s.status.ecode = 0#4 then e.code else s.status.ecode }

end Sys2Proof.Machine
end

