-- ==== Sys2Proof/Machine/Flags.lean ====
section
/-! DEFINITION. STATUS as a word (10_state.md R25, R32). -/

namespace Sys2Proof.Machine

/-- The word a read of STATUS returns: PREP 0, RUN0 1, RUN1 2, FCLAMP 3, FSCLAMP 4, ERR 8, ECODE
15:12, and zeros at the reserved bits (R25, R32). -/
def Status.word (st : Status) : Word :=
  0#16 ++ (st.ecode ++ (0#3 ++ (BitVec.ofBool st.err ++ (0#3 ++ (BitVec.ofBool st.fsclamp ++
    (BitVec.ofBool st.fclamp ++ (BitVec.ofBool st.run.ch1 ++ (BitVec.ofBool st.run.ch0 ++
      BitVec.ofBool st.prep))))))))

end Sys2Proof.Machine
end

