-- ==== Sys2Proof/Machine/Operands.lean ====
section
/-! DEFINITION. The operands of the commands (30_encoding.md R82): the selected channels, and the
binary64 pairs of words (20_memory.md R61). -/

namespace Sys2Proof.Machine

/-- `CHM[c] = 1` (R82). -/
def selects (chm : BitVec 2) : Channel → Bool
  | .ch0 => chm.getLsbD 0
  | .ch1 => chm.getLsbD 1

/-- `chans(CHM)`, in increasing order (R82). -/
def chans (chm : BitVec 2) : List Channel := [Channel.ch0, Channel.ch1].filter (selects chm)

/-- `as_f64(hi ++ lo)` (00_scope.md R9). -/
def asF64 (hi lo : Word) : F64 := hi ++ lo

/-- Bits 31:0 of a binary64 (20_memory.md R61). -/
def loWord (v : F64) : Word := v.extractLsb' 0 32

/-- Bits 63:32 of a binary64 (20_memory.md R61). -/
def hiWord (v : F64) : Word := v.extractLsb' 32 32

/-- The sample-rate argument `as_f64(ARG_FS_HI ++ ARG_FS_LO)` (10_state.md R35). -/
def Args.fs (a : Args) : F64 := asF64 a.fsHi a.fsLo

end Sys2Proof.Machine
end

