-- ==== Sys2Proof/Machine/Bus.lean ====
section
/-! DEFINITION. The host port's register map (10_state.md R22) and its accesses (20_memory.md R63 to
R65); commands are issued in Port.lean. -/

namespace Sys2Proof.Machine

/-- The address of CMD (10_state.md R23). -/
def cmdAddr : HostAddr := 0x0000#16

/-- The register at a host address (10_state.md R22), read; a reserved address and CMD give 0
(20_memory.md R64). -/
def readReg (s : State) : Nat → Word
  | 0x0001 => s.status.word
  | 0x0002 => s.note
  | 0x0003 => s.args.maxBlk
  | 0x0004 => s.args.fsLo
  | 0x0005 => s.args.fsHi
  | 0x0006 => s.args.coef.b0
  | 0x0007 => s.args.coef.b1
  | 0x0008 => s.args.coef.b2
  | 0x0009 => s.args.coef.a1
  | 0x000A => s.args.coef.a2
  | 0x000B => s.cfg.idValue
  | 0x000C => loWord s.fs
  | 0x000D => hiWord s.fs
  | 0x000E => s.maxBlk
  | 0x000F => BitVec.ofNat 32 s.cfg.bufCap
  | 0x0010 => s.coef.ch0.b0
  | 0x0011 => s.coef.ch0.b1
  | 0x0012 => s.coef.ch0.b2
  | 0x0013 => s.coef.ch0.a1
  | 0x0014 => s.coef.ch0.a2
  | 0x0018 => s.coef.ch1.b0
  | 0x0019 => s.coef.ch1.b1
  | 0x001A => s.coef.ch1.b2
  | 0x001B => s.coef.ch1.a1
  | 0x001C => s.coef.ch1.a2
  | 0x0020 => s.hist.ch0.x1
  | 0x0021 => s.hist.ch0.x2
  | 0x0022 => s.hist.ch0.y1
  | 0x0023 => s.hist.ch0.y2
  | 0x0028 => s.hist.ch1.x1
  | 0x0029 => s.hist.ch1.x2
  | 0x002A => s.hist.ch1.y1
  | 0x002B => s.hist.ch1.y2
  | _ => 0#32

/-- A write to the register at a host address (10_state.md R22): the R/W registers store the word; a
read-only or reserved address ignores it (20_memory.md R64). -/
def writeReg (s : State) (a : Nat) (v : Word) : State :=
  match a with
  | 0x0002 => s.setNote v
  | 0x0003 => s.setArgs { s.args with maxBlk := v }
  | 0x0004 => s.setArgs { s.args with fsLo := v }
  | 0x0005 => s.setArgs { s.args with fsHi := v }
  | 0x0006 => s.setArgs { s.args with coef := { s.args.coef with b0 := v } }
  | 0x0007 => s.setArgs { s.args with coef := { s.args.coef with b1 := v } }
  | 0x0008 => s.setArgs { s.args with coef := { s.args.coef with b2 := v } }
  | 0x0009 => s.setArgs { s.args with coef := { s.args.coef with a1 := v } }
  | 0x000A => s.setArgs { s.args with coef := { s.args.coef with a2 := v } }
  | _ => s

/-- The lowest address of the buffer windows (10_state.md R22). -/
def windowBase : Nat := 0x4000

/-- A host read: the word returned, and the state after it, which differs only if a free word was
drawn (20_memory.md R64, R65, R79). -/
def hostRead (s : State) (a : HostAddr) : Word × State :=
  if a.toNat < windowBase then (readReg s a.toNat, s) else memRead s a.toNat

/-- A host write to any address but CMD (20_memory.md R64, R65). -/
def hostWrite (s : State) (a : HostAddr) (v : Word) : State :=
  if a.toNat < windowBase then writeReg s a.toNat v else memWrite s a.toNat v

/-- A power-on reset (70_reset_and_hazards.md R230): every register at its reset value, and no buffer
word stored.  The configuration, the outside world's plans and the count of draws stay (log 14). -/
def powerOn (s : State) : State :=
  { State.reset with cfg := s.cfg, pending := s.pending, draws := s.draws }

end Sys2Proof.Machine
end

