-- ==== Sys2Proof/Machine/Float.lean ====
section
/-! DEFINITION. The numeric primitives of 00_scope.md R11 to R14: IEEE 754 arithmetic, rounded to
nearest, ties to even, computed exactly on natural numbers and rounded once (log 15). -/

namespace Sys2Proof.Machine

/-- An interchange format: the stored fraction bits and the exponent bits (R9). -/
structure FloatFormat where
  frac : Nat
  expo : Nat
deriving DecidableEq, Repr

/-- binary32 (R9). -/
def binary32 : FloatFormat := ⟨23, 8⟩

/-- binary64 (R9). -/
def binary64 : FloatFormat := ⟨52, 11⟩

/-- What a pattern stands for: a NaN, a signed infinity, or the number (-1)^neg · mag · 2^exp (with
mag = 0 a signed zero). -/
inductive FloatValue where
  | nan
  | inf (neg : Bool)
  | fin (neg : Bool) (mag : Nat) (exp : Int)
deriving DecidableEq, Repr

/-- The weight of the sign bit. -/
def signWeight (f : FloatFormat) : Nat := 2 ^ (f.frac + f.expo)

/-- The pattern of +∞; the patterns below it are the finite non-negative numbers, in order. -/
def infBits (f : FloatFormat) : Nat := (2 ^ f.expo - 1) * 2 ^ f.frac

/-- The canonical quiet NaN (R13). -/
def canonicalNaN (f : FloatFormat) : Nat := infBits f + 2 ^ (f.frac - 1)

/-- The exponent of the last place of a subnormal number. -/
def minExp (f : FloatFormat) : Int := 2 - 2 ^ (f.expo - 1) - f.frac

/-- The magnitude bits of a pattern. -/
def magBits (f : FloatFormat) (w : Nat) : Nat := w % signWeight f

/-- The sign of a pattern. -/
def signBit (f : FloatFormat) (w : Nat) : Bool := decide (w / signWeight f % 2 = 1)

/-- The pattern is a NaN. -/
def isNaNBits (f : FloatFormat) (w : Nat) : Bool := decide (infBits f < magBits f w)

/-- Reads a pattern. -/
def unpack (f : FloatFormat) (w : Nat) : FloatValue :=
  let b := magBits f w
  if infBits f < b then .nan
  else if b = infBits f then .inf (signBit f w)
  else if b < 2 ^ f.frac then .fin (signBit f w) b (minExp f)
  else .fin (signBit f w) (b % 2 ^ f.frac + 2 ^ f.frac) (minExp f + ((b / 2 ^ f.frac : Nat) - 1))

/-- `m / 2^k` rounded to the nearest natural number, ties to even (R14). -/
def shiftNearestEven (m k : Nat) : Nat :=
  let q := m / 2 ^ k
  let r := m % 2 ^ k
  if 2 ^ k < 2 * r ∨ (2 * r = 2 ^ k ∧ q % 2 = 1) then q + 1 else q

/-- The magnitude bits of `m · 2^e` rounded to nearest, ties to even, with subnormals kept and
overflow to infinity (R11, R13, R14).  `q` is the exponent of the last place of the result; a carry
out of the fraction adds one to the exponent field. -/
def roundBits (f : FloatFormat) (m : Nat) (e : Int) : Nat :=
  if m = 0 then 0
  else
    let q := max (e + (Nat.log2 m : Int) - f.frac) (minExp f)
    let d := shiftNearestEven (m * 2 ^ (e - q).toNat) (q - e).toNat
    min ((q - minExp f).toNat * 2 ^ f.frac + d) (infBits f)

/-- A magnitude with a sign. -/
def withSign (f : FloatFormat) (neg : Bool) (b : Nat) : Nat := if neg then signWeight f + b else b

/-- The rounded pattern of `(-1)^neg · m · 2^e`. -/
def roundSigned (f : FloatFormat) (neg : Bool) (m : Nat) (e : Int) : Nat :=
  withSign f neg (roundBits f m e)

/-- An integer with the sign of a number. -/
def signedMag (neg : Bool) (m : Nat) : Int := if neg then -(m : Int) else m

/-- The negation of a value. -/
def negValue : FloatValue → FloatValue
  | .nan => .nan
  | .inf n => .inf (!n)
  | .fin n m e => .fin (!n) m e

/-- The IEEE 754 sum (R11, R13): an exact zero sum is -0 only if both terms are negative zeros. -/
def addValue (f : FloatFormat) : FloatValue → FloatValue → Nat
  | .nan, _ => canonicalNaN f
  | _, .nan => canonicalNaN f
  | .inf n₁, .inf n₂ => if n₁ = n₂ then withSign f n₁ (infBits f) else canonicalNaN f
  | .inf n, .fin _ _ _ => withSign f n (infBits f)
  | .fin _ _ _, .inf n => withSign f n (infBits f)
  | .fin n₁ m₁ e₁, .fin n₂ m₂ e₂ =>
    let e := min e₁ e₂
    let i := signedMag n₁ (m₁ * 2 ^ (e₁ - e).toNat) + signedMag n₂ (m₂ * 2 ^ (e₂ - e).toNat)
    if i = 0 then withSign f (n₁ && n₂) 0 else roundSigned f (decide (i < 0)) i.natAbs e

/-- The IEEE 754 product (R11, R13). -/
def mulValue (f : FloatFormat) : FloatValue → FloatValue → Nat
  | .nan, _ => canonicalNaN f
  | _, .nan => canonicalNaN f
  | .inf n₁, .inf n₂ => withSign f (xor n₁ n₂) (infBits f)
  | .inf n₁, .fin n₂ m _ => if m = 0 then canonicalNaN f else withSign f (xor n₁ n₂) (infBits f)
  | .fin n₁ m _, .inf n₂ => if m = 0 then canonicalNaN f else withSign f (xor n₁ n₂) (infBits f)
  | .fin n₁ m₁ e₁, .fin n₂ m₂ e₂ => roundSigned f (xor n₁ n₂) (m₁ * m₂) (e₁ + e₂)

/-- The rounded pattern of the quotient of two nonzero magnitudes: `2 · frac + 5` more bits of the
quotient, and one last bit that says whether the division left a remainder. -/
def divFinite (f : FloatFormat) (neg : Bool) (m₁ : Nat) (e₁ : Int) (m₂ : Nat) (e₂ : Int) : Nat :=
  let k := 2 * f.frac + 5
  let n := m₁ * 2 ^ k
  let sticky := if n % m₂ = 0 then 0 else 1
  roundSigned f neg (2 * (n / m₂) + sticky) (e₁ - e₂ - k - 1)

/-- The IEEE 754 quotient (R11). -/
def divValue (f : FloatFormat) : FloatValue → FloatValue → Nat
  | .nan, _ => canonicalNaN f
  | _, .nan => canonicalNaN f
  | .inf _, .inf _ => canonicalNaN f
  | .inf n₁, .fin n₂ _ _ => withSign f (xor n₁ n₂) (infBits f)
  | .fin n₁ _ _, .inf n₂ => withSign f (xor n₁ n₂) 0
  | .fin n₁ m₁ e₁, .fin n₂ m₂ e₂ =>
    if m₂ = 0 then
      if m₁ = 0 then canonicalNaN f else withSign f (xor n₁ n₂) (infBits f)
    else divFinite f (xor n₁ n₂) m₁ e₁ m₂ e₂

/-- The integer square root of `m` by bits: `r` with the `b` lower bits still to be found. -/
def sqrtBits (m : Nat) : Nat → Nat → Nat
  | 0, r => r
  | b + 1, r => sqrtBits m b (if (r + 2 ^ b) * (r + 2 ^ b) ≤ m then r + 2 ^ b else r)

/-- The largest `r` with `r · r ≤ m`. -/
def natSqrt (m : Nat) : Nat := sqrtBits m (Nat.log2 m / 2 + 1) 0

/-- The IEEE 754 square root (R11): the exponent is made even, and one last bit says whether the
root is inexact. -/
def sqrtValue (f : FloatFormat) : FloatValue → Nat
  | .nan => canonicalNaN f
  | .inf n => if n then canonicalNaN f else infBits f
  | .fin n m e =>
    if m = 0 then withSign f n 0
    else if n then canonicalNaN f
    else
      let k := 2 * (f.frac + 3) + (e % 2).toNat
      let r := natSqrt (m * 2 ^ k)
      let sticky := if r * r = m * 2 ^ k then 0 else 1
      roundSigned f false (2 * r + sticky) ((e - k) / 2 - 1)

/-- The order key of a pattern: for numbers (not NaN), the order of the keys is the order of the
values, and the two zeros have one key. -/
def orderKey (f : FloatFormat) (w : Nat) : Int := signedMag (signBit f w) (magBits f w)

/-! ## binary64 (R11) -/

/-- `add64` (R11). -/
def add64 (a b : F64) : F64 :=
  BitVec.ofNat 64 (addValue binary64 (unpack binary64 a.toNat) (unpack binary64 b.toNat))

/-- `sub64` (R11). -/
def sub64 (a b : F64) : F64 :=
  BitVec.ofNat 64 (addValue binary64 (unpack binary64 a.toNat) (negValue (unpack binary64 b.toNat)))

/-- `mul64` (R11). -/
def mul64 (a b : F64) : F64 :=
  BitVec.ofNat 64 (mulValue binary64 (unpack binary64 a.toNat) (unpack binary64 b.toNat))

/-- `div64` (R11). -/
def div64 (a b : F64) : F64 :=
  BitVec.ofNat 64 (divValue binary64 (unpack binary64 a.toNat) (unpack binary64 b.toNat))

/-- `sqrt64` (R11). -/
def sqrt64 (a : F64) : F64 := BitVec.ofNat 64 (sqrtValue binary64 (unpack binary64 a.toNat))

/-- The pattern is a binary64 NaN. -/
def isNaN64 (a : F64) : Bool := isNaNBits binary64 a.toNat

/-- The IEEE comparison `a > b`: a NaN operand makes it false (R11). -/
def gt64 (a b : F64) : Bool :=
  !isNaN64 a && !isNaN64 b && decide (orderKey binary64 b.toNat < orderKey binary64 a.toNat)

/-! ## binary32 (R12, R13) -/

/-- The pattern is a binary32 NaN. -/
def isNaN32 (v : F32) : Bool := isNaNBits binary32 v.toNat

/-- The pattern is a subnormal binary32: exponent field 0, fraction not 0. -/
def isSubnormal32 (v : F32) : Bool :=
  decide (magBits binary32 v.toNat < 2 ^ 23) && decide (magBits binary32 v.toNat ≠ 0)

/-- `daz32`: a subnormal becomes the zero with the same sign (R12). -/
def daz32 (v : F32) : F32 := if isSubnormal32 v then v &&& 0x80000000#32 else v

/-- `ftz32`: the same on a result that has been rounded with subnormals kept (R12). -/
def ftz32 (r : F32) : F32 := if isSubnormal32 r then r &&& 0x80000000#32 else r

/-- `bits_f32`: every NaN is stored as the canonical NaN (R9, R13). -/
def bitsF32 (v : F32) : F32 := if isNaN32 v then 0x7FC00000#32 else v

/-- `mul32` (R13). -/
def mul32 (a b : F32) : F32 :=
  bitsF32 (ftz32 (BitVec.ofNat 32
    (mulValue binary32 (unpack binary32 (daz32 a).toNat) (unpack binary32 (daz32 b).toNat))))

/-- `add32` (R13). -/
def add32 (a b : F32) : F32 :=
  bitsF32 (ftz32 (BitVec.ofNat 32
    (addValue binary32 (unpack binary32 (daz32 a).toNat) (unpack binary32 (daz32 b).toNat))))

/-- `sub32` (R13). -/
def sub32 (a b : F32) : F32 :=
  bitsF32 (ftz32 (BitVec.ofNat 32
    (addValue binary32 (unpack binary32 (daz32 a).toNat)
      (negValue (unpack binary32 (daz32 b).toNat)))))

/-- A value rounded to a format. -/
def roundValue (f : FloatFormat) : FloatValue → Nat
  | .nan => canonicalNaN f
  | .inf n => withSign f n (infBits f)
  | .fin n m e => roundSigned f n m e

/-- `cvt32`: binary64 to binary32, rounded to nearest even, then `ftz32` (R11); a NaN becomes the
canonical NaN (R9). -/
def cvt32 (v : F64) : F32 :=
  bitsF32 (ftz32 (BitVec.ofNat 32 (roundValue binary32 (unpack binary64 v.toNat))))

end Sys2Proof.Machine
end

