-- ==== Sys2Proof/Machine/Resolver.lean ====
section
/-! DEFINITION. The Parameter Resolver (40_resolver.md). -/

namespace Sys2Proof.Machine

/-- `G24`, the pitched-note gain (R104). -/
def gain24 : F64 := 0x402FB2A734897867#64

/-- The binary64 1.0. -/
def one64 : F64 := 0x3FF0000000000000#64

/-- The note table NOTE_HZ (R102): one frequency per note, no fallthrough (R106). -/
def noteHz : Nat → Option F64
  | 1 => some 0x40705A147AE147AE#64
  | 2 => some 0x407152E147AE147B#64
  | 3 => some 0x40725A8F5C28F5C3#64
  | 4 => some 0x407372147AE147AE#64
  | 5 => some 0x40749A147AE147AE#64
  | 6 => some 0x4075D3AE147AE148#64
  | 7 => some 0x40771FD70A3D70A4#64
  | 8 => some 0x4078800000000000#64
  | 9 => some 0x4079F4CCCCCCCCCD#64
  | 10 => some 0x407B800000000000#64
  | 11 => some 0x407D228F5C28F5C3#64
  | 12 => some 0x407EDE147AE147AE#64
  | _ => none

/-- RESOLVE (R100): the center frequency and the linear gain; Bypass and every unrecognized value
give (F_BYPASS, 1.0) (R101, R103). -/
def resolve (fBypass : F64) (n : Word) : F64 × F64 :=
  match noteHz n.toNat with
  | some f => (f, gain24)
  | none => (fBypass, one64)

end Sys2Proof.Machine
end

