-- ==== Sys2Proof/Machine/Designer.lean ====
section
/-! DEFINITION. The Coefficient Designer and the command UPDATE (41_designer.md). -/

namespace Sys2Proof.Machine

/-- `TWO_PI` (00_scope.md R6). -/
def twoPi : F64 := 0x401921FB54442D18#64

/-- The binary64 20.0, which is 2 · Q (R125, 40_resolver.md R105). -/
def twoQ : F64 := 0x4034000000000000#64

/-- The binary64 -2.0. -/
def minusTwo64 : F64 := 0xC000000000000000#64

/-- The Nyquist clamp (R122): the frequency used, and whether it was clamped. -/
def clampFreq (clampRatio f fs : F64) : F64 × Bool :=
  let fLim := mul64 clampRatio fs
  if gt64 f fLim then (fLim, true) else (f, false)

/-- The angular frequency `w0` (R123). -/
def angular (fe fs : F64) : F64 := div64 (mul64 twoPi fe) fs

/-- The coefficients from sin(w0), cos(w0) and the gain (R125 to R129), in the order of R121. -/
def coefFrom (sn cs g : F64) : Coef :=
  let alpha := div64 sn twoQ
  let a := sqrt64 g
  let aA := mul64 alpha a
  let aoA := div64 alpha a
  let n0 := add64 one64 aA
  let n1 := mul64 minusTwo64 cs
  let n2 := sub64 one64 aA
  let d0 := add64 one64 aoA
  let d1 := n1
  let d2 := sub64 one64 aoA
  { b0 := cvt32 (div64 n0 d0)
    b1 := cvt32 (div64 n1 d0)
    b2 := cvt32 (div64 n2 d0)
    a1 := cvt32 (div64 d1 d0)
    a2 := cvt32 (div64 d2 d0) }

/-- DESIGN (R120, R121): the coefficients and `clamped`.  Marked irreducible so that no proof about a
command unfolds it by accident. -/
@[irreducible]
def design (clampRatio f g fs : F64) : Coef × Bool :=
  let fe := clampFreq clampRatio f fs
  let w0 := angular fe.1 fs
  (coefFrom (Config.sin64 w0) (Config.cos64 w0) g, fe.2)

/-- RESOLVE and DESIGN on a note snapshot, the step that UPDATE and PREPARE share (R140,
42_channel_filter.md R150). -/
def designNote (cfg : Config) (n : Word) (fs : F64) : Coef × Bool :=
  let p := resolve cfg.fBypass n
  design cfg.clampRatio p.1 p.2 fs

/-- Loads a designed set into both channels and records the clamp (R140, R141). -/
def loadDesign (s : State) (d : Coef × Bool) : State :=
  (s.setCoef ⟨d.1, d.1⟩).setStatus { s.status with fclamp := d.2 }

/-- UPDATE (R140). -/
def execUpdate (s : State) : Host.Outcome State Fault Refusal :=
  if s.status.prep then .next (loadDesign s (designNote s.cfg s.note s.fs))
  else .next (raiseError .notPrepared s)

end Sys2Proof.Machine
end

