-- ==== Sys2Proof/Machine/ChannelFilter.lean ====
section
/-! DEFINITION. The Channel Filter's commands: PREPARE, SETC, PROC, HRST (42_channel_filter.md). -/

namespace Sys2Proof.Machine

/-- CLAMPFS (R152): the active sample rate, and whether it was clamped. -/
def clampFs (fsMin fsMax r : F64) : F64 × Bool :=
  if isNaN64 r then (fsMin, true)
  else if gt64 fsMin r then (fsMin, true)
  else if gt64 r fsMax then (fsMax, true)
  else (r, false)

/-- HIST[c] <- zeros and RUN[c] <- 0 (R150, R170). -/
def silence (s : State) (c : Channel) : State := (s.setHistOf c Hist.zero).setRun c false

/-- PREPARE's writes once the block size is legal, up to the design (R150). -/
def configure (s : State) : State :=
  let r := clampFs s.cfg.fsMin s.cfg.fsMax s.args.fs
  let s := ((s.setFs r.1).setMaxBlk s.args.maxBlk).setStatus { s.status with fsclamp := r.2 }
  let s := silence (silence s .ch0) .ch1
  s.setStatus { s.status with prep := true }

/-- PREPARE (R150): the block size must be 1 to BUF_CAP (R151). -/
def execPrepare (s : State) : Host.Outcome State Fault Refusal :=
  if s.args.maxBlk.toNat = 0 ∨ s.cfg.bufCap < s.args.maxBlk.toNat then
    .next (raiseError .maxBlkRange s)
  else
    let t := configure s
    .next (loadDesign t (designNote t.cfg t.note t.fs))

/-- COEF[c] <- k for each channel of a list (R160). -/
def loadCoefs (k : Coef) (s : State) (cs : List Channel) : State :=
  cs.foldl (fun s c => s.setCoefOf c k) s

/-- SETC (R160): the raw argument words, unchecked. -/
def execSetc (chm : BitVec 2) (s : State) : Host.Outcome State Fault Refusal :=
  if s.status.prep then .next (loadCoefs s.args.coef s (chans chm))
  else .next (raiseError .notPrepared s)

/-- The five products and four sums of R166, each rounded on its own, in the order written; `xi` is
the input after `daz32`. -/
def recurrence (k : Coef) (h : Hist) (xi : F32) : F32 :=
  let t := mul32 k.b0 xi
  let t := add32 t (mul32 k.b1 h.x1)
  let t := add32 t (mul32 k.b2 h.x2)
  let t := sub32 t (mul32 k.a1 h.y1)
  sub32 t (mul32 k.a2 h.y2)

/-- BIQUAD_STEP (R166) on a channel's coefficients and history: the output and the new history. -/
def biquadStep (k : Coef) (h : Hist) (x : F32) : F32 × Hist :=
  let xi := daz32 x
  let y := recurrence k h xi
  (y, ⟨xi, h.x1, y, h.y1⟩)

/-- One sample of PROC (R165): one read and then one write of the word (20_memory.md R78). -/
def procSample (c : Channel) (i : Nat) (s : State) : State :=
  let r := memRead s (bufBase c + i)
  let o := biquadStep (r.2.coef.get c) (r.2.hist.get c) r.1
  memWrite (r.2.setHistOf c o.2) (bufBase c + i) (bitsF32 o.1)

/-- `n` samples of a channel from index `i` on, in strict increasing order (R165). -/
def procSamples (c : Channel) : Nat → Nat → State → State
  | 0, _, s => s
  | n + 1, i, s => procSamples c n (i + 1) (procSample c i s)

/-- PROC on one channel (R165): RUN[c] is set if a sample was processed. -/
def procChannel (cnt : Nat) (s : State) (c : Channel) : State :=
  let t := procSamples c cnt 0 s
  if 1 ≤ cnt then t.setRun c true else t

/-- PROC (R165): the errors in the order of 60_exceptions.md R205, then channel 0 before channel 1. -/
def execProc (chm : BitVec 2) (cnt : Nat) (s : State) : Host.Outcome State Fault Refusal :=
  if s.status.prep then
    if s.maxBlk.toNat < cnt then .next (raiseError .countRange s)
    else .next ((chans chm).foldl (procChannel cnt) s)
  else .next (raiseError .notPrepared s)

/-- HRST (R170). -/
def execHrst (chm : BitVec 2) (s : State) : Host.Outcome State Fault Refusal :=
  .next ((chans chm).foldl silence s)

end Sys2Proof.Machine
end

