-- ==== Sys2Proof/Machine/Control.lean ====
section
/-! DEFINITION. The control commands NOP and SRST (43_control.md). -/

namespace Sys2Proof.Machine

/-- NOP (R190): no effect. -/
def execNop (s : State) : Host.Outcome State Fault Refusal := .next s

/-- Every register but NOTE at its reset value (R191, 10_state.md R44); NOTE and the buffers are
kept. -/
def softReset (s : State) : State :=
  ((((((s.setStatus Status.reset).setArgs Args.reset).setFs 0#64).setMaxBlk 0#32).setCoef
    ⟨Coef.identity, Coef.identity⟩).setHist ⟨Hist.zero, Hist.zero⟩)

/-- SRST (R191). -/
def execSrst (s : State) : Host.Outcome State Fault Refusal := .next (softReset s)

end Sys2Proof.Machine
end

