-- ==== Sys2Proof/Machine/Dispatch.lean ====
section
/-! DEFINITION. One arm for each command (30_encoding.md R86). -/

namespace Sys2Proof.Machine

def exec (i : Instr) (s : State) : Host.Outcome State Fault Refusal :=
  match i with
  | .nop => Sys2Proof.Machine.execNop s
  | .prepare => Sys2Proof.Machine.execPrepare s
  | .update => Sys2Proof.Machine.execUpdate s
  | .setc chm => Sys2Proof.Machine.execSetc chm s
  | .proc chm cnt => Sys2Proof.Machine.execProc chm cnt s
  | .hrst chm => Sys2Proof.Machine.execHrst chm s
  | .srst => Sys2Proof.Machine.execSrst s

end Sys2Proof.Machine
end

