-- ==== Sys2Proof/Machine/Port.lean ====
section
/-! DEFINITION. What one event of the outside world does (00_scope.md R15). -/

namespace Sys2Proof.Machine

/-- A write of `w` to CMD (30_encoding.md R80): the decoded command runs, and a word that is none
raises ILLEGAL_CMD (60_exceptions.md R202). -/
def runCommand (w : Word) (s : State) : Host.Outcome State Fault Refusal :=
  match decode w with
  | .ok i => exec i s
  | .error _ => .next (raiseError .illegalCmd s)

/-- One event (20_memory.md R62 to R69). -/
def perform (e : Event) (s : State) : Host.Outcome State Fault Refusal :=
  match e with
  | .hostRead a =>
    let r := hostRead s a
    .next (r.2.setHostReply (some r.1))
  | .hostWrite a v => if a = cmdAddr then runCommand v s else .next (hostWrite s a v)
  | .ctrlRead => .next (s.setCtrlReply (some s.note))
  | .ctrlWrite v => .next (s.setNote v)
  | .otherWidth port bits => .refused (.accessWidth port bits)
  | .powerOn => .next (powerOn s)

/-- The next event of `pending` happens; with none the block waits, its state unchanged
(60_exceptions.md R218, 70_reset_and_hazards.md R231, log 6). -/
def advance (s : State) : Host.Outcome State Fault Refusal :=
  match s.pending with
  | [] => .next s
  | e :: rest => perform e (s.setPending rest)

end Sys2Proof.Machine
end

