-- ==== Sys2Proof/Machine/Step.lean ====
section
/-! DEFINITION. One step of the machine. -/

namespace Sys2Proof.Machine

/-- One step: the next event of the outside world and all it causes, a whole command included
(20_memory.md R67, log 13). -/
def step (s : State) : Host.Outcome State Fault Refusal := advance s

/-- The state in which the next event is the host's write of the word to CMD, which is how a command
reaches the block (10_state.md R21, R23, log 5). -/
def State.withFetchWord (s : State) (nbits w : Nat) : State :=
  s.setPending (.hostWrite cmdAddr (BitVec.ofNat 32 (w % 2 ^ nbits)) :: s.pending)

end Sys2Proof.Machine
end

