-- ==== Sys2Proof/WellFormed.lean ====
section
/-! DEFINITION. Which terms of the syntax the spec admits. -/

namespace Sys2Proof

/-- The operand ranges of 30_encoding.md R82: a count is 0 to 65535; every CHM value is admitted
(R84). -/
def Instr.wf : Instr → Bool
  | .nop => true
  | .prepare => true
  | .update => true
  | .setc _ => true
  | .proc _ cnt => decide (cnt ≤ 65535)
  | .hrst _ => true
  | .srst => true

/-- An access of another width is one whose width is not that of a word (20_memory.md R62). -/
def Event.wf : Event → Bool
  | .hostRead _ => true
  | .hostWrite _ _ => true
  | .ctrlRead => true
  | .ctrlWrite _ => true
  | .otherWidth _ bits => decide (bits ≠ 32)
  | .powerOn => true

/-- A binary64 pattern of a positive finite number. -/
def positiveFinite64 (w : F64) : Bool :=
  decide (0 < w.toNat) && decide (w.toNat < 0x7FF0000000000000)

/-- A legal configuration: BUF_CAP is 1 to 16384 (00_scope.md R6), and the clamp range of the sample
rate is one of positive finite numbers with FS_MIN ≤ FS_MAX (10_state.md R37, 41_designer.md R120;
log 11).  Patterns of positive numbers are ordered as the numbers are. -/
def Config.legal (c : Config) : Bool :=
  decide (1 ≤ c.bufCap) && decide (c.bufCap ≤ 16384) && positiveFinite64 c.fsMin &&
    positiveFinite64 c.fsMax && decide (c.fsMin.toNat ≤ c.fsMax.toNat)

end Sys2Proof
end

