-- ==== Sys2Proof/Machine/HostProgram.lean ====
section
/-! DEFINITION. The host-program notation of 30_encoding.md R89 to R91: statements, the expansion of
pseudo-instructions into port accesses, and the disassembler. -/

namespace Sys2Proof.Machine

/-- A statement of R89 or a pseudo-instruction of R90.  Numbers are words, binary32 and binary64
values their patterns. -/
inductive Stmt where
  /-- `WR a, v` -/
  | wr (a : HostAddr) (v : Word)
  /-- `RD a` -/
  | rd (a : HostAddr)
  /-- `CWR v` -/
  | cwr (v : Word)
  /-- `CRD` -/
  | crd
  /-- NOP, PREPARE, UPDATE, `SETC m`, `PROC m, n`, `HRST m`, SRST -/
  | cmd (i : Instr)
  /-- `SETNOTE k` -/
  | setNote (k : Word)
  /-- `SETMAXBLK m` -/
  | setMaxBlk (m : Word)
  /-- `SETFS r` -/
  | setFs (r : F64)
  /-- `SETARGC b0, b1, b2, a1, a2` -/
  | setArgc (k : Coef)
  /-- `LOADBUF c, i, v` -/
  | loadBuf (c : Channel) (i : Nat) (v : F32)
  /-- `START r, m` -/
  | start (r : F64) (m : Word)
  /-- `BLOCK m, n` -/
  | block (chm : BitVec 2) (n : Nat)
deriving DecidableEq, Repr

/-- The operand ranges of R89 and R90: a count is 0 to 65535, and a buffer index stays in its window of
0x4000 addresses (20_memory.md R63). -/
def Stmt.wf : Stmt → Bool
  | .wr _ _ => true
  | .rd _ => true
  | .cwr _ => true
  | .crd => true
  | .cmd i => i.wf
  | .setNote _ => true
  | .setMaxBlk _ => true
  | .setFs _ => true
  | .setArgc _ => true
  | .loadBuf _ i _ => decide (i < 0x4000)
  | .start _ _ => true
  | .block _ n => decide (n ≤ 65535)

/-- The write that issues a command (R89). -/
def issue (i : Instr) : Event := .hostWrite cmdAddr (encode i)

/-- `SETFS r`: the low word, then the high word (R90). -/
def expandSetFs (r : F64) : List Event :=
  [.hostWrite 0x0004#16 (loWord r), .hostWrite 0x0005#16 (hiWord r)]

/-- The accesses a statement stands for, in their order (R89, R90).  A value's word is its pattern as
given (log 17). -/
def expand : Stmt → List Event
  | .wr a v => [.hostWrite a v]
  | .rd a => [.hostRead a]
  | .cwr v => [.ctrlWrite v]
  | .crd => [.ctrlRead]
  | .cmd i => [issue i]
  | .setNote k => [.hostWrite 0x0002#16 k]
  | .setMaxBlk m => [.hostWrite 0x0003#16 m]
  | .setFs r => expandSetFs r
  | .setArgc k =>
    [.hostWrite 0x0006#16 k.b0, .hostWrite 0x0007#16 k.b1, .hostWrite 0x0008#16 k.b2,
     .hostWrite 0x0009#16 k.a1, .hostWrite 0x000A#16 k.a2]
  | .loadBuf c i v => [.hostWrite (BitVec.ofNat 16 (bufBase c + i)) v]
  | .start r m => expandSetFs r ++ [.hostWrite 0x0003#16 m, issue .prepare]
  | .block chm n => [issue .update, issue (.proc chm n)]

/-- The state in which a host program's accesses come next, in its order (log 5). -/
def State.load (s : State) (program : List Stmt) : State :=
  s.setPending (program.flatMap expand ++ s.pending)

/-- A channel list of R89. -/
def channelList (chm : BitVec 2) : String :=
  match selects chm .ch0, selects chm .ch1 with
  | false, false => "-"
  | true, false => "ch0"
  | false, true => "ch1"
  | true, true => "ch0,ch1"

/-- A command in the syntax of R89. -/
def printInstr : Instr → String
  | .nop => "NOP"
  | .prepare => "PREPARE"
  | .update => "UPDATE"
  | .setc chm => "SETC " ++ channelList chm
  | .proc chm cnt => "PROC " ++ channelList chm ++ ", " ++ toString cnt
  | .hrst chm => "HRST " ++ channelList chm
  | .srst => "SRST"

/-- A hexadecimal digit, in capitals as the spec writes them (log 16). -/
def hexDigit (n : Nat) : String :=
  if n < 10 then toString n
  else if n = 10 then "A" else if n = 11 then "B" else if n = 12 then "C"
  else if n = 13 then "D" else if n = 14 then "E" else "F"

/-- The lowest `k` hexadecimal digits of a number. -/
def hexDigits : Nat → Nat → String
  | 0, _ => ""
  | k + 1, n => hexDigits k (n / 16) ++ hexDigit (n % 16)

/-- The disassembler (R91). -/
def disassemble (w : Word) : String :=
  match decode w with
  | .ok i => printInstr i
  | .error _ => ".word 0x" ++ hexDigits 8 w.toNat ++ " ; illegal"

end Sys2Proof.Machine
end

