-- ==== Sys2Proof/Safety.lean ====
section
/-! DEFINITION. What a safe run is (60_exceptions.md R208). -/

namespace Sys2Proof.Machine

/-- No error has been recorded since the last reset (R208). -/
def State.clean (s : State) : Bool := !s.status.err

/-- A run of `k` steps that the model carries through and that ends with ERR = 0: what a claim about
a host program takes as its premise (R208). -/
def SafeRun (k : Nat) (s t : State) : Prop := Host.Core.run core k s = .next t ∧ t.clean = true

end Sys2Proof.Machine
end

