-- ==== Sys2Proof/Claims.lean ====
section
/-! DEFINITION. The terms in which the statements about the machine are made: real values of
patterns and correct rounding, blocks of samples, the invariant. -/

namespace Sys2Proof.Machine

/-! ## Numbers -/

/-- The binary32 pattern is a finite number. -/
def isFinite32 (v : F32) : Bool := decide (magBits binary32 v.toNat < infBits binary32)

/-- Every coefficient is a finite number. -/
def Coef.finite (k : Coef) : Bool :=
  isFinite32 k.b0 && isFinite32 k.b1 && isFinite32 k.b2 && isFinite32 k.a1 && isFinite32 k.a2

/-- The pattern is +0.0 or -0.0. -/
def isZero32 (v : F32) : Bool := decide (magBits binary32 v.toNat = 0)

/-- Every field of a history is a zero. -/
def Hist.allZero (h : Hist) : Bool := isZero32 h.x1 && isZero32 h.x2 && isZero32 h.y1 && isZero32 h.y2

/-- No field of a history is subnormal (10_state.md R45). -/
def Hist.noSubnormal (h : Hist) : Bool :=
  !isSubnormal32 h.x1 && !isSubnormal32 h.x2 && !isSubnormal32 h.y1 && !isSubnormal32 h.y2

/-- The pattern is a finite number of the format. -/
def isFiniteBits (f : FloatFormat) (w : Nat) : Prop := magBits f w < infBits f

/-- The real number (-1)^neg · mag · 2^exp. -/
noncomputable def realOfParts (neg : Bool) (mag : Nat) (exp : Int) : ℝ :=
  (signedMag neg mag : ℝ) * (2 : ℝ) ^ exp

/-- The real number a finite pattern stands for (0 for the others). -/
noncomputable def realOf (f : FloatFormat) (w : Nat) : ℝ :=
  match unpack f w with
  | .fin neg mag exp => realOfParts neg mag exp
  | _ => 0

/-- The magnitude from which on rounding to nearest overflows: half a unit in the last place above
the largest finite number. -/
noncomputable def overflowBound (f : FloatFormat) : ℝ :=
  realOfParts false (2 ^ (f.frac + 2) - 1) (minExp f + 2 ^ f.expo - 4)

/-- `r` is the real number `x` rounded to nearest, ties to even (00_scope.md R14), with overflow to
signed infinity (R13): no finite pattern is nearer, and where another number is as near the last bit
of `r` is 0. -/
def IsRounded (f : FloatFormat) (x : ℝ) (r : Nat) : Prop :=
  if overflowBound f ≤ |x| then r = withSign f (decide (x < 0)) (infBits f)
  else isFiniteBits f r ∧ ∀ w, isFiniteBits f w →
    |realOf f r - x| ≤ |realOf f w - x| ∧
      (|realOf f r - x| = |realOf f w - x| → realOf f w ≠ realOf f r → r % 2 = 0)

/-! ## Blocks of samples -/

/-- The recurrence over a block in index order (42_channel_filter.md R165, R166): the outputs and the
history after it. -/
def filterBlock (k : Coef) : Hist → List F32 → List F32 × Hist
  | h, [] => ([], h)
  | h, x :: xs =>
    let o := biquadStep k h x
    let r := filterBlock k o.2 xs
    (o.1 :: r.1, r.2)

/-- The first `n` stored words of a channel's buffer (10_state.md R42). -/
def blockWords (m : Memory) (c : Channel) (n : Nat) : List (Option Word) :=
  (List.range n).map fun i => m.find (bufBase c + i)

/-- The address is one of the first `n` words of the channel's buffer. -/
def inBlock (c : Channel) (n a : Nat) : Prop := bufBase c ≤ a ∧ a < bufBase c + n

/-- What a PROC of `cnt` samples needs of the state to run (42_channel_filter.md R165) in a state
whose MAXBLK is within the buffer, as PREPARE leaves it (10_state.md R38). -/
def ProcReady (s : State) (cnt : Nat) : Prop :=
  s.cfg.legal = true ∧ s.status.prep = true ∧ cnt ≤ s.maxBlk.toNat ∧ s.maxBlk.toNat ≤ s.cfg.bufCap

/-! ## Events -/

/-- The event issues a SETC (42_channel_filter.md R160). -/
def isSetc : Event → Bool
  | .hostWrite a w =>
    decide (a = cmdAddr) &&
      match decode w with
      | .ok (.setc _) => true
      | _ => false
  | _ => false

/-- NOTE after an event, from NOTE before it (20_memory.md R69, R70): bus writes and power-on reset
change it and nothing else does. -/
def noteAfter (n : Word) : Event → Word
  | .hostWrite a v => if a = 0x0002#16 then v else n
  | .ctrlWrite v => v
  | .powerOn => 0#32
  | .hostRead _ => n
  | .ctrlRead => n
  | .otherWidth _ _ => n

/-! ## The invariant -/

/-- After a PREPARE, FS lies in [FS_MIN, FS_MAX] (10_state.md R37) and MAXBLK in 1 to BUF_CAP (R38).
The patterns of positive numbers are ordered as the numbers are. -/
def State.preparedRanges (s : State) : Prop :=
  s.status.prep = true →
    (s.cfg.fsMin.toNat ≤ s.fs.toNat ∧ s.fs.toNat ≤ s.cfg.fsMax.toNat) ∧
      (1 ≤ s.maxBlk.toNat ∧ s.maxBlk.toNat ≤ s.cfg.bufCap)

/-- ERR is set exactly when ECODE is not 0, and ECODE is 0 to 4 (10_state.md R30, R31,
60_exceptions.md R200). -/
def Status.errorConsistent (st : Status) : Prop :=
  (st.err = true ↔ st.ecode ≠ 0#4) ∧ st.ecode.toNat ≤ 4

/-- The invariant of the machine: a legal configuration, buffers in canonical form, histories without
subnormals (10_state.md R45), consistent error fields, and a prepared block within its ranges. -/
def State.Inv (s : State) : Prop :=
  s.cfg.legal = true ∧ s.buf.wf s.cfg.bufCap = true ∧
    (s.hist.ch0.noSubnormal = true ∧ s.hist.ch1.noSubnormal = true) ∧
    s.status.errorConsistent ∧ s.preparedRanges

/-- Both channels hold one designed set: COEF[0] = COEF[1], and B1 = A1 in it (10_state.md R46). -/
def State.oneDesignedSet (s : State) : Prop :=
  s.coef.ch0 = s.coef.ch1 ∧ s.coef.ch0.b1 = s.coef.ch0.a1

end Sys2Proof.Machine
end

