-- ==== Sys2Proof/Certificates/Slice0/Obligations.lean ====
section
/-! DEFINITION. The statements about the machine, for the provers. -/

open Sys2Proof Sys2Proof.Machine

/-! ## Encoding -/

/-- Every well-formed command, encoded, decodes to itself: no bit of a word is dropped
(30_encoding.md R81 to R86). -/
def Obligations.DecodeOfEncode : Prop :=
  ∀ i : Instr, i.wf = true → decode (encode i) = .ok i

/-- A word that decodes is the encoding of its command, which is well-formed: a command has one word
(30_encoding.md R81 to R86). -/
def Obligations.EncodeOfDecode : Prop :=
  ∀ (w : Word) (i : Instr), decode w = .ok i → i.wf = true ∧ encode i = w

/-- The opcode table (30_encoding.md R86), row by row, with the operand fields of R82: a word decodes
to the row's command exactly when `(w & mask) == match`. -/
def Obligations.DecoderIsOpcodeTable : Prop :=
  ∀ w : Word,
    (decode w = .ok .nop ↔ w &&& 0xFFFFFFFF#32 = 0x00000000#32) ∧
    (decode w = .ok .prepare ↔ w &&& 0xFFFFFFFF#32 = 0x00000001#32) ∧
    (decode w = .ok .update ↔ w &&& 0xFFFFFFFF#32 = 0x00000002#32) ∧
    (∀ chm, decode w = .ok (.setc chm) ↔
      w &&& 0xFFFFFFCF#32 = 0x00000003#32 ∧ chm = w.extractLsb' 4 2) ∧
    (∀ chm cnt, decode w = .ok (.proc chm cnt) ↔
      w &&& 0x0000FFCF#32 = 0x00000004#32 ∧ chm = w.extractLsb' 4 2 ∧
        cnt = (w.extractLsb' 16 16).toNat) ∧
    (∀ chm, decode w = .ok (.hrst chm) ↔
      w &&& 0xFFFFFFCF#32 = 0x00000005#32 ∧ chm = w.extractLsb' 4 2) ∧
    (decode w = .ok .srst ↔ w &&& 0xFFFFFFFF#32 = 0x0000000F#32)

/-- At most one row of the opcode table selects a word, and a word that none selects is rejected
(30_encoding.md R80). -/
def Obligations.RowsDoNotOverlap : Prop :=
  ∀ w : Word,
    (∀ r₁ ∈ opcodeTable, ∀ r₂ ∈ opcodeTable,
      rowSelects r₁ w = true → rowSelects r₂ w = true → r₁ = r₂) ∧
    ((∃ why, decode w = .error why) ↔ ∀ r ∈ opcodeTable, rowSelects r w = false)

/-- The illegal words of 30_encoding.md R87, which raise ILLEGAL_CMD in every state: ERR is set, the
first ECODE is kept, and nothing else changes. -/
def Obligations.IllegalWords : Prop :=
  ∀ w : Word,
    let op := w.extractLsb' 0 4
    let chm := w.extractLsb' 4 2
    let rsv := w.extractLsb' 6 10
    let cnt := w.extractLsb' 16 16
    ((∃ why, decode w = .error why) ↔
      ((0x6#4 ≤ op ∧ op ≤ 0xE#4) ∨ rsv ≠ 0#10 ∨
        ((op = 0x0#4 ∨ op = 0x1#4 ∨ op = 0x2#4 ∨ op = 0xF#4) ∧ (chm ≠ 0#2 ∨ cnt ≠ 0#16)) ∨
        ((op = 0x3#4 ∨ op = 0x5#4) ∧ cnt ≠ 0#16))) ∧
    ((∃ why, decode w = .error why) → ∀ (s : State) (rest : List Event),
      s.pending = .hostWrite 0x0000#16 w :: rest →
      step s = .next { s with
        pending := rest
        status := { s.status with
          err := true
          ecode := if s.status.ecode = 0#4 then 1#4 else s.status.ecode } })

/-- Some words written out from the patterns of 30_encoding.md R86 decode to their commands; a sanity
check of the decoder. -/
def Obligations.SampleWordsDecode : Prop :=
  decode (0b0000000000000000#16 ++ (0b0000000000#10 ++ (0b00#2 ++ 0b0000#4))) = .ok .nop ∧
  decode (0b0000000000000000#16 ++ (0b0000000000#10 ++ (0b00#2 ++ 0b0001#4))) = .ok .prepare ∧
  decode (0b0000000000000000#16 ++ (0b0000000000#10 ++ (0b00#2 ++ 0b0010#4))) = .ok .update ∧
  decode (0b0000000000000000#16 ++ (0b0000000000#10 ++ (0b01#2 ++ 0b0011#4))) = .ok (.setc 0b01#2) ∧
  decode (0b0000001000000000#16 ++ (0b0000000000#10 ++ (0b11#2 ++ 0b0100#4))) =
    .ok (.proc 0b11#2 512) ∧
  decode (0b0000000000000000#16 ++ (0b0000000000#10 ++ (0b10#2 ++ 0b0101#4))) = .ok (.hrst 0b10#2) ∧
  decode (0b0000000000000000#16 ++ (0b0000000000#10 ++ (0b00#2 ++ 0b1111#4))) = .ok .srst

/-! ## Steps and ports -/

/-- A step on the host's write of a command word to CMD runs exactly the decoded command, with that
event taken from the pending ones (10_state.md R23, 30_encoding.md R80, R88: in every state). -/
def Obligations.StepRunsDecodedCommand : Prop :=
  ∀ (s : State) (w : Word) (i : Instr) (rest : List Event),
    s.pending = .hostWrite 0x0000#16 w :: rest → decode w = .ok i →
      step s = exec i { s with pending := rest }

/-- With no event pending the block holds its state unchanged (60_exceptions.md R218). -/
def Obligations.BlockWaits : Prop :=
  ∀ s : State, s.pending = [] → step s = .next s

/-- Every step answers a next state, but for an access of another width: the block never hangs or
stops on an error (60_exceptions.md R208), and every command terminates
(70_reset_and_hazards.md R240). -/
def Obligations.BlockNeverStops : Prop :=
  (∀ (i : Instr) (s : State), ∃ t, exec i s = .next t) ∧
  ∀ s : State, (∀ port bits, s.pending.head? ≠ some (.otherWidth port bits)) → ∃ t, step s = .next t

/-- An access of another width than a word is refused (20_memory.md R62).  That the refusal keeps the
port and the width is the model's choice (log 8, DEDUCED).  `bits` is any number: the event with 32
bits, which `Event.wf` does not admit, is refused too. -/
def Obligations.OtherWidthsAreRefused : Prop :=
  ∀ (s : State) (port : Port) (bits : Nat) (rest : List Event),
    s.pending = .otherWidth port bits :: rest → step s = .refused (.accessWidth port bits)

/-- The readable addresses of the register map (10_state.md R22): what a host read returns at each
register, 0 at CMD and at every reserved address (20_memory.md R64), and the state is left as it was
but for the reply. -/
def Obligations.HostReadFollowsRegisterMap : Prop :=
  ∀ s : State,
    let reads (a : HostAddr) (v : Word) : Prop := ∀ rest, s.pending = .hostRead a :: rest →
      step s = .next { s with pending := rest, hostReply := some v }
    reads 0x0000#16 0#32 ∧ reads 0x0001#16 s.status.word ∧ reads 0x0002#16 s.note ∧
    reads 0x0003#16 s.args.maxBlk ∧ reads 0x0004#16 s.args.fsLo ∧ reads 0x0005#16 s.args.fsHi ∧
    reads 0x0006#16 s.args.coef.b0 ∧ reads 0x0007#16 s.args.coef.b1 ∧
    reads 0x0008#16 s.args.coef.b2 ∧ reads 0x0009#16 s.args.coef.a1 ∧
    reads 0x000A#16 s.args.coef.a2 ∧ reads 0x000B#16 s.cfg.idValue ∧
    reads 0x000C#16 (s.fs.extractLsb' 0 32) ∧ reads 0x000D#16 (s.fs.extractLsb' 32 32) ∧
    reads 0x000E#16 s.maxBlk ∧ reads 0x000F#16 (BitVec.ofNat 32 s.cfg.bufCap) ∧
    reads 0x0010#16 s.coef.ch0.b0 ∧ reads 0x0011#16 s.coef.ch0.b1 ∧ reads 0x0012#16 s.coef.ch0.b2 ∧
    reads 0x0013#16 s.coef.ch0.a1 ∧ reads 0x0014#16 s.coef.ch0.a2 ∧
    reads 0x0018#16 s.coef.ch1.b0 ∧ reads 0x0019#16 s.coef.ch1.b1 ∧ reads 0x001A#16 s.coef.ch1.b2 ∧
    reads 0x001B#16 s.coef.ch1.a1 ∧ reads 0x001C#16 s.coef.ch1.a2 ∧
    reads 0x0020#16 s.hist.ch0.x1 ∧ reads 0x0021#16 s.hist.ch0.x2 ∧ reads 0x0022#16 s.hist.ch0.y1 ∧
    reads 0x0023#16 s.hist.ch0.y2 ∧
    reads 0x0028#16 s.hist.ch1.x1 ∧ reads 0x0029#16 s.hist.ch1.x2 ∧ reads 0x002A#16 s.hist.ch1.y1 ∧
    reads 0x002B#16 s.hist.ch1.y2 ∧
    (∀ a : HostAddr, a.toNat = 0x15 ∨ a.toNat = 0x16 ∨ a.toNat = 0x17 ∨ a.toNat = 0x1D ∨
      a.toNat = 0x1E ∨ a.toNat = 0x1F ∨ (0x24 ≤ a.toNat ∧ a.toNat ≤ 0x27) ∨
      (0x2C ≤ a.toNat ∧ a.toNat < 0x4000) ∨ 0xC000 ≤ a.toNat ∨
      (0x4000 ≤ a.toNat ∧ a.toNat < 0x8000 ∧ 0x4000 + s.cfg.bufCap ≤ a.toNat) ∨
      (0x8000 ≤ a.toNat ∧ a.toNat < 0xC000 ∧ 0x8000 + s.cfg.bufCap ≤ a.toNat) → reads a 0#32)

/-- A host write stores the word in a R/W register, and is ignored at a read-only or reserved address
(10_state.md R22, 20_memory.md R64): no effect, no error. -/
def Obligations.HostWriteFollowsRegisterMap : Prop :=
  ∀ (s : State) (v : Word),
    let writes (a : HostAddr) (t : State) : Prop := ∀ rest, s.pending = .hostWrite a v :: rest →
      step s = .next { t with pending := rest }
    writes 0x0002#16 { s with note := v } ∧
    writes 0x0003#16 { s with args := { s.args with maxBlk := v } } ∧
    writes 0x0004#16 { s with args := { s.args with fsLo := v } } ∧
    writes 0x0005#16 { s with args := { s.args with fsHi := v } } ∧
    writes 0x0006#16 { s with args := { s.args with coef := { s.args.coef with b0 := v } } } ∧
    writes 0x0007#16 { s with args := { s.args with coef := { s.args.coef with b1 := v } } } ∧
    writes 0x0008#16 { s with args := { s.args with coef := { s.args.coef with b2 := v } } } ∧
    writes 0x0009#16 { s with args := { s.args with coef := { s.args.coef with a1 := v } } } ∧
    writes 0x000A#16 { s with args := { s.args with coef := { s.args.coef with a2 := v } } } ∧
    (∀ a : HostAddr, a.toNat = 0x1 ∨ (0xB ≤ a.toNat ∧ a.toNat < 0x4000) ∨ 0xC000 ≤ a.toNat ∨
      (0x4000 ≤ a.toNat ∧ a.toNat < 0x8000 ∧ 0x4000 + s.cfg.bufCap ≤ a.toNat) ∨
      (0x8000 ≤ a.toNat ∧ a.toNat < 0xC000 ∧ 0x8000 + s.cfg.bufCap ≤ a.toNat) → writes a s)

/-- A host write of a buffer word (10_state.md R42, 20_memory.md R63): that word then reads as
written, every other word reads as before, and nothing else changes. -/
def Obligations.HostWriteOfBufferWord : Prop :=
  ∀ (s : State) (c : Channel) (i : Nat) (v : Word) (rest : List Event),
    i < s.cfg.bufCap → s.cfg.bufCap ≤ 16384 →
    s.pending = .hostWrite (BitVec.ofNat 16 (bufBase c + i)) v :: rest →
      ∃ t, step s = .next t ∧ t = { s with pending := rest, buf := t.buf } ∧
        t.buf.find (bufBase c + i) = some v ∧
        ∀ a, a ≠ bufBase c + i → t.buf.find a = s.buf.find a

/-- A host read of a buffer word (20_memory.md R63, R65, R79): a stored word is returned and nothing
else changes, so the read may be repeated with the same result; a word that nothing has stored gives
the next free draw, which stores nothing. -/
def Obligations.HostReadOfBufferWord : Prop :=
  ∀ (s : State) (c : Channel) (i : Nat) (rest : List Event),
    i < s.cfg.bufCap → s.cfg.bufCap ≤ 16384 →
    s.pending = .hostRead (BitVec.ofNat 16 (bufBase c + i)) :: rest →
      (∀ v, s.buf.find (bufBase c + i) = some v →
        step s = .next { s with pending := rest, hostReply := some v }) ∧
      (s.buf.find (bufBase c + i) = none →
        step s = .next { s with
          pending := rest
          hostReply := some (Config.freeWord s.draws)
          draws := s.draws + 1 })

/-- The layout of STATUS (10_state.md R25) with its reserved bits 0 (R32). -/
def Obligations.StatusWordLayout : Prop :=
  ∀ st : Status,
    st.word.getLsbD 0 = st.prep ∧ st.word.getLsbD 1 = st.run.ch0 ∧ st.word.getLsbD 2 = st.run.ch1 ∧
    st.word.getLsbD 3 = st.fclamp ∧ st.word.getLsbD 4 = st.fsclamp ∧
    st.word.extractLsb' 5 3 = 0#3 ∧ st.word.getLsbD 8 = st.err ∧
    st.word.extractLsb' 9 3 = 0#3 ∧ st.word.extractLsb' 12 4 = st.ecode ∧
    st.word.extractLsb' 16 16 = 0#16

/-- The control port (20_memory.md R69): a control write stores the word in NOTE, which the host reads
at 0x0002; a control read returns NOTE; neither does anything else, so neither executes a command. -/
def Obligations.ControlPortReachesNote : Prop :=
  ∀ (s : State) (rest : List Event),
    (∀ v, s.pending = .ctrlWrite v :: rest → step s = .next { s with pending := rest, note := v }) ∧
    (s.pending = .ctrlRead :: rest →
      step s = .next { s with pending := rest, ctrlReply := some s.note }) ∧
    (s.pending = .hostRead 0x0002#16 :: rest →
      step s = .next { s with pending := rest, hostReply := some s.note })

/-- `START r, m` (30_encoding.md R90) is four accesses that end as PREPARE does on the arguments they
wrote; with a legal block size, on a block without a recorded error, it is a safe run (60_exceptions.md
R208) that leaves the block prepared (70_reset_and_hazards.md R233). -/
def Obligations.StartPreparesTheBlock : Prop :=
  ∀ (s : State) (r : F64) (m : Word), s.pending = [] →
    Host.Core.run core 4 (s.load [.start r m]) =
      exec .prepare { s with
        args := { s.args with fsLo := loWord r, fsHi := hiWord r, maxBlk := m } } ∧
    (s.clean = true → 1 ≤ m.toNat → m.toNat ≤ s.cfg.bufCap →
      ∃ t, SafeRun 4 (s.load [.start r m]) t ∧ t.status.prep = true)

/-! ## Reset -/

/-- The power-on values of 10_state.md R44, no buffer word stored (70_reset_and_hazards.md R230), in
`State.reset` and after every power-on event; the configuration is kept. -/
def Obligations.PowerOnValues : Prop :=
  let resetValues (t : State) : Prop :=
    t.status = ⟨false, ⟨false, false⟩, false, false, false, 0#4⟩ ∧ t.status.word = 0#32 ∧
    t.note = 0#32 ∧
    t.args = ⟨0#32, 0#32, 0#32, ⟨0#32, 0#32, 0#32, 0#32, 0#32⟩⟩ ∧ t.fs = 0#64 ∧ t.maxBlk = 0#32 ∧
    (∀ c, t.coef.get c = ⟨0x3F800000#32, 0#32, 0#32, 0#32, 0#32⟩) ∧
    (∀ c, t.hist.get c = ⟨0#32, 0#32, 0#32, 0#32⟩) ∧ ∀ a, t.buf.find a = none
  resetValues State.reset ∧
  ∀ (s : State) (rest : List Event), s.pending = .powerOn :: rest →
    ∃ t, step s = .next t ∧ resetValues t ∧ t.cfg = s.cfg ∧ t.pending = rest

/-- SRST leaves the state of a power-on, except that power-on sets NOTE to 0 and keeps no buffer word,
and SRST keeps both (43_control.md R192).  The model's own fields are kept too (logs 2, 5, 7). -/
def Obligations.SrstIsPowerOnButNoteAndBuffers : Prop :=
  ∀ (s : State) (rest : List Event), s.pending = .powerOn :: rest →
    ∃ t, step s = .next t ∧ t.note = 0#32 ∧ (∀ a, t.buf.find a = none) ∧
      exec .srst s = .next { t with
        note := s.note
        buf := s.buf
        pending := s.pending
        hostReply := s.hostReply
        ctrlReply := s.ctrlReply
        draws := s.draws }

/-! ## What each command does -/

/-- NOP (43_control.md R190) has no effect in any state, nor has the write of its word but that the
access is done; a word with OP = 0 and any other bit set is illegal. -/
def Obligations.NopHasNoEffect : Prop :=
  (∀ s : State, exec .nop s = .next s) ∧
  (∀ (s : State) (rest : List Event), s.pending = .hostWrite 0x0000#16 0x00000000#32 :: rest →
    step s = .next { s with pending := rest }) ∧
  ∀ w : Word, w.extractLsb' 0 4 = 0#4 → w ≠ 0x00000000#32 → ∃ why, decode w = .error why

/-- SRST (43_control.md R191): its word, each register it writes and nothing else, and that it is the
only command that clears ERR and ECODE. -/
def Obligations.SrstResetsRegisters : Prop :=
  decode 0x0000000F#32 = .ok .srst ∧
  (∀ (i : Instr) (s t : State), i ≠ .srst → exec i s = .next t →
    (s.status.err = true → t.status.err = true) ∧
      (s.status.ecode ≠ 0#4 → t.status.ecode = s.status.ecode)) ∧
  ∀ s : State, exec .srst s = .next { s with
    status := ⟨false, ⟨false, false⟩, false, false, false, 0#4⟩
    args := ⟨0#32, 0#32, 0#32, ⟨0#32, 0#32, 0#32, 0#32, 0#32⟩⟩
    fs := 0#64
    maxBlk := 0#32
    coef := ⟨⟨0x3F800000#32, 0#32, 0#32, 0#32, 0#32⟩, ⟨0x3F800000#32, 0#32, 0#32, 0#32, 0#32⟩⟩
    hist := ⟨⟨0#32, 0#32, 0#32, 0#32⟩, ⟨0#32, 0#32, 0#32, 0#32⟩⟩ }

/-- PREPARE on a legal block size (42_channel_filter.md R150, R151, R154), prepared or not: the
clamped rate, the block size, zero histories, RUN clear, PREP set, one designed set in both channels,
and nothing else. -/
def Obligations.PrepareConfiguresAndDesigns : Prop :=
  ∀ s : State, 1 ≤ s.args.maxBlk.toNat → s.args.maxBlk.toNat ≤ s.cfg.bufCap →
    let r := clampFs s.cfg.fsMin s.cfg.fsMax (s.args.fsHi ++ s.args.fsLo : BitVec 64)
    let p := resolve s.cfg.fBypass s.note
    let d := design s.cfg.clampRatio p.1 p.2 r.1
    exec .prepare s = .next { s with
      fs := r.1
      maxBlk := s.args.maxBlk
      hist := ⟨⟨0#32, 0#32, 0#32, 0#32⟩, ⟨0#32, 0#32, 0#32, 0#32⟩⟩
      coef := ⟨d.1, d.1⟩
      status := { s.status with prep := true, run := ⟨false, false⟩, fclamp := d.2, fsclamp := r.2 } }

/-- PREPARE on a block size of 0 or above BUF_CAP raises MAXBLK_RANGE and leaves the block unchanged,
prepared or not (42_channel_filter.md R151, 60_exceptions.md R203). -/
def Obligations.PrepareRejectsBlockSize : Prop :=
  ∀ s : State, s.args.maxBlk.toNat = 0 ∨ s.cfg.bufCap < s.args.maxBlk.toNat →
    exec .prepare s = .next { s with status := { s.status with
      err := true
      ecode := if s.status.ecode = 0#4 then 4#4 else s.status.ecode } }

/-- PREPARE is idempotent (42_channel_filter.md R153). -/
def Obligations.PrepareIsIdempotent : Prop :=
  ∀ s t : State, exec .prepare s = .next t → exec .prepare t = .next t

/-- UPDATE on a prepared block (41_designer.md R140, R141): one designed set in both channels and
FCLAMP, and nothing else; HIST is kept. -/
def Obligations.UpdateDesignsBothChannels : Prop :=
  ∀ s : State, s.status.prep = true →
    let p := resolve s.cfg.fBypass s.note
    let d := design s.cfg.clampRatio p.1 p.2 s.fs
    exec .update s = .next { s with
      coef := ⟨d.1, d.1⟩, status := { s.status with fclamp := d.2 } }

/-- SETC (42_channel_filter.md R160): its word; on a prepared block the raw argument words in each
selected channel and nothing else, CHM = 0 writing nothing; unprepared the error NOT_PREPARED. -/
def Obligations.SetcCopiesArguments : Prop :=
  ∀ chm : BitVec 2,
    decode (0x00000003#32 ||| chm.setWidth 32 <<< 4) = .ok (.setc chm) ∧
    (∀ s : State, s.status.prep = true →
      exec (.setc chm) s = .next { s with coef :=
        ⟨if chm.getLsbD 0 then s.args.coef else s.coef.ch0,
         if chm.getLsbD 1 then s.args.coef else s.coef.ch1⟩ }) ∧
    ∀ s : State, s.status.prep = false →
      exec (.setc chm) s = .next { s with status := { s.status with
        err := true
        ecode := if s.status.ecode = 0#4 then 2#4 else s.status.ecode } }

/-- HRST (42_channel_filter.md R170): its word; in every state each selected channel's history zero
and its RUN clear, and nothing else. -/
def Obligations.HrstZeroesSelectedHistories : Prop :=
  ∀ chm : BitVec 2,
    decode (0x00000005#32 ||| chm.setWidth 32 <<< 4) = .ok (.hrst chm) ∧
    ∀ s : State, exec (.hrst chm) s = .next { s with
      hist := ⟨if chm.getLsbD 0 then ⟨0#32, 0#32, 0#32, 0#32⟩ else s.hist.ch0,
        if chm.getLsbD 1 then ⟨0#32, 0#32, 0#32, 0#32⟩ else s.hist.ch1⟩
      status := { s.status with run :=
        ⟨if chm.getLsbD 0 then false else s.status.run.ch0,
         if chm.getLsbD 1 then false else s.status.run.ch1⟩ } }

/-- PROC completes on a prepared block for every count up to MAXBLK, and its frame
(42_channel_filter.md R165, 20_memory.md R78): only the first CNT words, the history and RUN of the
selected channels change (and the model's count of free draws); RUN is set if a sample was
processed. -/
def Obligations.ProcCompletesWithinFrame : Prop :=
  ∀ (chm : BitVec 2) (cnt : Nat) (s : State), s.status.prep = true → cnt ≤ s.maxBlk.toNat →
    ∃ t, exec (.proc chm cnt) s = .next t ∧
      t = { s with buf := t.buf, hist := t.hist, draws := t.draws
                   status := { s.status with run :=
                     ⟨s.status.run.ch0 || (chm.getLsbD 0 && decide (1 ≤ cnt)),
                      s.status.run.ch1 || (chm.getLsbD 1 && decide (1 ≤ cnt))⟩ } } ∧
      (chm.getLsbD 0 = false → t.hist.ch0 = s.hist.ch0) ∧
      (chm.getLsbD 1 = false → t.hist.ch1 = s.hist.ch1) ∧
      (chm = 0#2 ∨ cnt = 0 → t = s) ∧
      ∀ a, ¬ (chm.getLsbD 0 = true ∧ inBlock .ch0 cnt a) →
        ¬ (chm.getLsbD 1 = true ∧ inBlock .ch1 cnt a) → t.buf.find a = s.buf.find a

/-- PROC computes the recurrence over the written input block of each selected channel, in place and
in index order (42_channel_filter.md R165, R166): the outputs replace the inputs, and the history is
that after the last sample. -/
def Obligations.ProcComputesRecurrence : Prop :=
  ∀ (chm : BitVec 2) (cnt : Nat) (s : State) (xs : Channel → List Word),
    ProcReady s cnt →
    (∀ c, selects chm c = true → blockWords s.buf c cnt = (xs c).map some) →
    ∃ t, exec (.proc chm cnt) s = .next t ∧ ∀ c, selects chm c = true →
      blockWords t.buf c cnt = (filterBlock (s.coef.get c) (s.hist.get c) (xs c)).1.map some ∧
      t.hist.get c = (filterBlock (s.coef.get c) (s.hist.get c) (xs c)).2

/-- BIQUAD_STEP (42_channel_filter.md R166): five products and four sums, each rounded on its own, in
the order written, and the new history. -/
def Obligations.BiquadStepOrder : Prop :=
  ∀ (k : Coef) (h : Hist) (x : F32),
    biquadStep k h x =
      let xi := daz32 x
      let y := sub32 (sub32 (add32 (add32 (mul32 k.b0 xi) (mul32 k.b1 h.x1)) (mul32 k.b2 h.x2))
        (mul32 k.a1 h.y1)) (mul32 k.a2 h.y2)
      (y, { x1 := xi, x2 := h.x1, y1 := y, y2 := h.y1 })

/-- RESOLVE (40_resolver.md R100 to R104): the note table, one frequency a note, and Bypass for every
other value. -/
def Obligations.ResolveFollowsNoteTable : Prop :=
  ∀ (fBypass : F64),
    (∀ n : Word, n.toNat = 0 ∨ 13 ≤ n.toNat →
      resolve fBypass n = (fBypass, 0x3FF0000000000000#64)) ∧
    (∀ p ∈ [(1#32, 0x40705A147AE147AE#64), (2#32, 0x407152E147AE147B#64),
        (3#32, 0x40725A8F5C28F5C3#64), (4#32, 0x407372147AE147AE#64), (5#32, 0x40749A147AE147AE#64),
        (6#32, 0x4075D3AE147AE148#64), (7#32, 0x40771FD70A3D70A4#64), (8#32, 0x4078800000000000#64),
        (9#32, 0x4079F4CCCCCCCCCD#64), (10#32, 0x407B800000000000#64),
        (11#32, 0x407D228F5C28F5C3#64), (12#32, 0x407EDE147AE147AE#64)],
      resolve fBypass p.1 = (p.2, 0x402FB2A734897867#64))

/-- DESIGN (41_designer.md R121): every binary64 operation in the order written. -/
def Obligations.DesignEvaluationOrder : Prop :=
  ∀ clampRatio f g fs : F64,
    design clampRatio f g fs =
      let fLim := mul64 clampRatio fs
      let clamped := gt64 f fLim
      let fe := if clamped then fLim else f
      let w0 := div64 (mul64 0x401921FB54442D18#64 fe) fs
      let s := Config.sin64 w0
      let c := Config.cos64 w0
      let alpha := div64 s 0x4034000000000000#64
      let A := sqrt64 g
      let aA := mul64 alpha A
      let aoA := div64 alpha A
      let n0 := add64 0x3FF0000000000000#64 aA
      let n1 := mul64 0xC000000000000000#64 c
      let n2 := sub64 0x3FF0000000000000#64 aA
      let d0 := add64 0x3FF0000000000000#64 aoA
      let d2 := sub64 0x3FF0000000000000#64 aoA
      (⟨cvt32 (div64 n0 d0), cvt32 (div64 n1 d0), cvt32 (div64 n2 d0), cvt32 (div64 n1 d0),
        cvt32 (div64 d2 d0)⟩, clamped)

/-- CLAMPFS (42_channel_filter.md R152), by its four lines. -/
def Obligations.ClampFsFollowsRule : Prop :=
  ∀ fsMin fsMax r : F64,
    (isNaN64 r = true → clampFs fsMin fsMax r = (fsMin, true)) ∧
    (gt64 fsMin r = true → clampFs fsMin fsMax r = (fsMin, true)) ∧
    (isNaN64 r = false → gt64 fsMin r = false → gt64 r fsMax = true →
      clampFs fsMin fsMax r = (fsMax, true)) ∧
    (isNaN64 r = false → gt64 fsMin r = false → gt64 r fsMax = false →
      clampFs fsMin fsMax r = (r, false))

/-- Whatever the 64 bits of ARG_FS, the rate CLAMPFS gives lies in [FS_MIN, FS_MAX] and is finite
(10_state.md R37), and clamping it again changes nothing. -/
def Obligations.ClampFsLandsInRange : Prop :=
  ∀ (cfg : Config) (r : F64), cfg.legal = true →
    let fs := (clampFs cfg.fsMin cfg.fsMax r).1
    cfg.fsMin.toNat ≤ fs.toNat ∧ fs.toNat ≤ cfg.fsMax.toNat ∧
      isFiniteBits binary64 fs.toNat ∧ clampFs cfg.fsMin cfg.fsMax fs = (fs, false)

/-! ## Errors -/

/-- The error each command records, on a block that has recorded none (60_exceptions.md R200, R204,
R205, R206, R203): which command raises which code and when, in the order of priority, and that no
other command and no number raises one. -/
def Obligations.CommandErrors : Prop :=
  ∀ (i : Instr) (s t : State), s.status.err = false → s.status.ecode = 0#4 → exec i s = .next t →
    let code : BitVec 4 :=
      match i with
      | .nop => 0#4
      | .prepare => if s.args.maxBlk.toNat = 0 ∨ s.cfg.bufCap < s.args.maxBlk.toNat then 4#4 else 0#4
      | .update => if s.status.prep then 0#4 else 2#4
      | .setc _ => if s.status.prep then 0#4 else 2#4
      | .proc _ cnt =>
        if s.status.prep then (if s.maxBlk.toNat < cnt then 3#4 else 0#4) else 2#4
      | .hrst _ => 0#4
      | .srst => 0#4
    t.status.ecode = code ∧ (t.status.err = true ↔ code ≠ 0#4)

/-- A command that raises an error writes ERR and ECODE and nothing else, and ECODE keeps the first
code (60_exceptions.md R201). -/
def Obligations.RaisingCommandHasNoOtherEffect : Prop :=
  ∀ (i : Instr) (s t : State), exec i s = .next t → s.status.err = false → t.status.err = true →
    ∃ code : BitVec 4, code ≠ 0#4 ∧ t = { s with status := { s.status with
      err := true
      ecode := if s.status.ecode = 0#4 then code else s.status.ecode } }

/-- UPDATE, SETC and PROC on an unprepared block raise NOT_PREPARED, whatever the count
(60_exceptions.md R204, R205), and change nothing else. -/
def Obligations.UnpreparedCommandsRaise : Prop :=
  ∀ (s : State) (chm : BitVec 2) (cnt : Nat), s.status.prep = false →
    let t : State := { s with status := { s.status with
      err := true
      ecode := if s.status.ecode = 0#4 then 2#4 else s.status.ecode } }
    exec .update s = .next t ∧ exec (.setc chm) s = .next t ∧ exec (.proc chm cnt) s = .next t

/-- PROC of more than MAXBLK samples on a prepared block raises COUNT_RANGE, even for CHM = 0
(60_exceptions.md R206), and changes nothing else. -/
def Obligations.ProcCountRange : Prop :=
  ∀ (s : State) (chm : BitVec 2) (cnt : Nat), s.status.prep = true → s.maxBlk.toNat < cnt →
    exec (.proc chm cnt) s = .next { s with status := { s.status with
      err := true
      ecode := if s.status.ecode = 0#4 then 3#4 else s.status.ecode } }

/-- ERR is sticky and ECODE keeps the first code through every step but SRST and power-on reset, which
clear them (10_state.md R30, R31). -/
def Obligations.ErrorsAreSticky : Prop :=
  ∀ s t : State, step s = .next t →
    (s.pending.head? ≠ some .powerOn →
      s.pending.head? ≠ some (.hostWrite 0x0000#16 0x0000000F#32) →
      (s.status.err = true → t.status.err = true) ∧
        (s.status.ecode ≠ 0#4 → t.status.ecode = s.status.ecode)) ∧
    (s.pending.head? = some .powerOn ∨
      s.pending.head? = some (.hostWrite 0x0000#16 0x0000000F#32) →
      t.status.err = false ∧ t.status.ecode = 0#4)

/-! ## Who writes what -/

/-- PREP is set only by a PREPARE that succeeds and cleared only by SRST and power-on reset
(10_state.md R26). -/
def Obligations.PrepTransitions : Prop :=
  ∀ s t : State, step s = .next t →
    (s.status.prep = false → t.status.prep = true →
      s.pending.head? = some (.hostWrite 0x0000#16 0x00000001#32) ∧
        1 ≤ s.args.maxBlk.toNat ∧ s.args.maxBlk.toNat ≤ s.cfg.bufCap) ∧
    (s.status.prep = true → t.status.prep = false →
      s.pending.head? = some .powerOn ∨
        s.pending.head? = some (.hostWrite 0x0000#16 0x0000000F#32))

/-- No command writes NOTE (10_state.md R33), and no command but UPDATE and PREPARE reads it
(20_memory.md R67): running it with another NOTE gives the same state but for NOTE. -/
def Obligations.CommandsAndNote : Prop :=
  (∀ (i : Instr) (s t : State), exec i s = .next t → t.note = s.note) ∧
  ∀ (i : Instr) (s t : State) (n : Word), i ≠ .update → i ≠ .prepare → exec i s = .next t →
    exec i { s with note := n } = .next { t with note := n }

/-- NOTE is sequentially consistent over every order of the events of both ports (20_memory.md R70):
after any list of events NOTE is what the last write left, a control read returns it, a host read
returns it, and an UPDATE designs from it. -/
def Obligations.NoteIsSequentiallyConsistent : Prop :=
  ∀ (es rest : List Event) (s t : State),
    Host.Core.run core es.length { s with pending := es ++ rest } = .next t →
      let n := es.foldl noteAfter s.note
      t.note = n ∧ t.pending = rest ∧
      (∀ r, rest = .ctrlRead :: r → ∃ u, step t = .next u ∧ u.ctrlReply = some n) ∧
      (∀ r, rest = .hostRead 0x0002#16 :: r → ∃ u, step t = .next u ∧ u.hostReply = some n) ∧
      (∀ r, rest = .hostWrite 0x0000#16 0x00000002#32 :: r → t.status.prep = true →
        ∃ u, step t = .next u ∧
          u.coef.ch0 = (designNote t.cfg n t.fs).1 ∧ u.coef.ch1 = (designNote t.cfg n t.fs).1)

/-- The arguments, the active configuration and the parameters: no step changes the parameters; FS and
MAXBLK are written only by a PREPARE that succeeds, SRST and power-on reset (10_state.md R37, R38);
no command but SRST writes the argument registers (R34 to R36, R44). -/
def Obligations.ConfigurationWriters : Prop :=
  (∀ s t : State, step s = .next t → t.cfg = s.cfg ∧
    (t.fs ≠ s.fs ∨ t.maxBlk ≠ s.maxBlk →
      s.pending.head? = some .powerOn ∨
        s.pending.head? = some (.hostWrite 0x0000#16 0x00000001#32) ∨
        s.pending.head? = some (.hostWrite 0x0000#16 0x0000000F#32))) ∧
  ∀ (i : Instr) (s t : State), i ≠ .srst → exec i s = .next t → t.args = s.args

/-! ## Invariants -/

/-- Every step keeps the invariant: canonical buffers, histories without subnormals (10_state.md R45),
consistent error fields, and the ranges of FS and MAXBLK on a prepared block (R37, R38). -/
def Obligations.StepKeepsInv : Prop :=
  ∀ s t : State, s.Inv → step s = .next t → t.Inv

/-- The invariant holds after reset. -/
def Obligations.ResetHasInv : Prop := State.reset.Inv

/-- Every step that issues no SETC keeps one designed set in both channels, with B1 = A1; so it holds
along every run from State.reset without a SETC event.  Less than 10_state.md R46: a SETC that writes
no COEF is shut out too, and a later reset starts no run of its own (its values are in
`Obligations.PowerOnValues` and `Obligations.SrstResetsRegisters`, and from them the first clause
applies).  A run over a list of pending events is the model's choice (log 5). -/
def Obligations.DesignedSetsStayEqual : Prop :=
  (∀ s t : State, s.oneDesignedSet → (∀ e, s.pending.head? = some e → isSetc e = false) →
    step s = .next t → t.oneDesignedSet) ∧
  ∀ (es : List Event) (k : Nat) (t : State), (∀ e ∈ es, isSetc e = false) →
    Host.Core.run core k { State.reset with pending := es } = .next t → t.oneDesignedSet

/-! ## The filter -/

/-- Silence in, silence out (42_channel_filter.md R171): from a zero history and an input block of
+0.0.  With finite coefficients every output word is a zero and the history holds zeros; with B0's
sign bit 0 every output is then +0.0.  With an infinite or NaN coefficient every output is a NaN. -/
def Obligations.SilenceInSilenceOut : Prop :=
  ∀ (chm : BitVec 2) (cnt : Nat) (s : State) (c : Channel),
    ProcReady s cnt → selects chm c = true →
    s.hist.get c = ⟨0#32, 0#32, 0#32, 0#32⟩ →
    (∀ i < cnt, s.buf.find (bufBase c + i) = some 0#32) →
    ∃ t, exec (.proc chm cnt) s = .next t ∧
      ((s.coef.get c).finite = true →
        (t.hist.get c).allZero = true ∧
        (∀ i < cnt, t.buf.find (bufBase c + i) = some 0x00000000#32 ∨
          t.buf.find (bufBase c + i) = some 0x80000000#32) ∧
        ((s.coef.get c).b0.getLsbD 31 = false →
          ∀ i < cnt, t.buf.find (bufBase c + i) = some 0x00000000#32)) ∧
      ((s.coef.get c).finite = false →
        ∀ i < cnt, t.buf.find (bufBase c + i) = some 0x7FC00000#32)

/-- A NaN in Y1 or Y2 makes every later output the canonical NaN, whatever the input
(42_channel_filter.md R169), and it is in the history after the block. -/
def Obligations.NanStaysInHistory : Prop :=
  ∀ (chm : BitVec 2) (cnt : Nat) (s : State) (c : Channel),
    ProcReady s cnt → selects chm c = true → 1 ≤ cnt →
    (isNaN32 (s.hist.get c).y1 = true ∨ isNaN32 (s.hist.get c).y2 = true) →
    ∃ t, exec (.proc chm cnt) s = .next t ∧
      (∀ i < cnt, t.buf.find (bufBase c + i) = some 0x7FC00000#32) ∧
      (t.hist.get c).y1 = 0x7FC00000#32

/-- The channels are independent (42_channel_filter.md R165, R173): PROC of both channels is PROC of
channel 0 and then of channel 1, and on written blocks the other order gives the same state. -/
def Obligations.ChannelsAreIndependent : Prop :=
  ∀ (cnt : Nat) (s t : State), ProcReady s cnt → s.buf.wf s.cfg.bufCap = true →
    (∀ c, ∀ i < cnt, s.buf.find (bufBase c + i) ≠ none) →
    exec (.proc 3#2 cnt) s = .next t →
    (∃ u, exec (.proc 1#2 cnt) s = .next u ∧ exec (.proc 2#2 cnt) u = .next t) ∧
    (∃ u, exec (.proc 2#2 cnt) s = .next u ∧ exec (.proc 1#2 cnt) u = .next t)

/-- A channel's output block and history depend on nothing but that channel's coefficients, history
and written input block (42_channel_filter.md R172, R173): two states that agree on these agree on
them after PROC, whatever else differs. -/
def Obligations.OutputDependsOnOwnChannel : Prop :=
  ∀ (chm₁ chm₂ : BitVec 2) (cnt : Nat) (s₁ s₂ t₁ t₂ : State) (c : Channel),
    ProcReady s₁ cnt → ProcReady s₂ cnt → selects chm₁ c = true → selects chm₂ c = true →
    s₁.coef.get c = s₂.coef.get c → s₁.hist.get c = s₂.hist.get c →
    (∀ i < cnt, s₁.buf.find (bufBase c + i) ≠ none ∧
      s₁.buf.find (bufBase c + i) = s₂.buf.find (bufBase c + i)) →
    exec (.proc chm₁ cnt) s₁ = .next t₁ → exec (.proc chm₂ cnt) s₂ = .next t₂ →
    t₁.hist.get c = t₂.hist.get c ∧
      ∀ i < cnt, t₁.buf.find (bufBase c + i) = t₂.buf.find (bufBase c + i)

/-! ## Numbers -/

/-- TRIG_BOUNDED (00_scope.md R7): at every finite argument SIN64 and COS64 are finite and in
[-1.0, 1.0]. -/
def Obligations.TrigBounded : Prop :=
  ∀ w : F64, isFiniteBits binary64 w.toNat →
    (isFiniteBits binary64 (Config.sin64 w).toNat ∧
      |realOf binary64 (Config.sin64 w).toNat| ≤ 1) ∧
    (isFiniteBits binary64 (Config.cos64 w).toNat ∧
      |realOf binary64 (Config.cos64 w).toNat| ≤ 1)

/-- `daz32` and `ftz32` (00_scope.md R12): a subnormal becomes the zero with its sign, and every other
value is returned unchanged. -/
def Obligations.SubnormalsBecomeZeros : Prop :=
  ∀ v : F32,
    let subnormal := v.extractLsb' 23 8 = 0#8 ∧ v.extractLsb' 0 23 ≠ 0#23
    (subnormal → daz32 v = (v.extractLsb' 31 1 ++ 0#31 : BitVec 32) ∧ ftz32 v = daz32 v) ∧
    (¬ subnormal → daz32 v = v ∧ ftz32 v = v)

/-- Rounding is to nearest, ties to even, with overflow to signed infinity, in both formats
(00_scope.md R14, R13): the rounded pattern of (-1)^neg · m · 2^e.  The values of patterns and the
overflow bound are presumed from IEEE 754 (log 15).  The sign of an underflow to zero is in
`Obligations.SignsAndNonFiniteOperands`. -/
def Obligations.RoundingIsNearestEven : Prop :=
  ∀ f : FloatFormat, f = binary32 ∨ f = binary64 →
    ∀ (neg : Bool) (m : Nat) (e : Int), m ≠ 0 →
      IsRounded f (realOfParts neg m e) (roundSigned f neg m e)

/-- The binary64 operations are the exact results rounded once (00_scope.md R11), on finite
operands; that they mean this is presumed from IEEE 754 (log 15). -/
def Obligations.Binary64IsCorrectlyRounded : Prop :=
  ∀ a b : F64, isFiniteBits binary64 a.toNat → isFiniteBits binary64 b.toNat →
    let x := realOf binary64 a.toNat
    let y := realOf binary64 b.toNat
    IsRounded binary64 (x + y) (add64 a b).toNat ∧
    IsRounded binary64 (x - y) (sub64 a b).toNat ∧
    IsRounded binary64 (x * y) (mul64 a b).toNat ∧
    (y ≠ 0 → IsRounded binary64 (x / y) (div64 a b).toNat) ∧
    (0 ≤ x → IsRounded binary64 (Real.sqrt x) (sqrt64 a).toNat) ∧
    (gt64 a b = true ↔ y < x)

/-- `cvt32` (00_scope.md R11) on finite numbers: the binary64 rounded to binary32, then `ftz32`; the
overflow bound is presumed from IEEE 754 (log 15). -/
def Obligations.Cvt32IsRoundedThenFlushed : Prop :=
  ∀ v : F64, isFiniteBits binary64 v.toNat →
    ∃ r : F32, IsRounded binary32 (realOf binary64 v.toNat) r.toNat ∧ cvt32 v = ftz32 r

/-- The binary32 operations (00_scope.md R13) on finite operands: the flushed operands' exact result,
rounded once, then flushed; what R13 leaves to IEEE 754 is presumed (log 15). -/
def Obligations.Binary32IsRoundedThenFlushed : Prop :=
  ∀ a b : F32, isFinite32 a = true → isFinite32 b = true →
    let x := realOf binary32 (daz32 a).toNat
    let y := realOf binary32 (daz32 b).toNat
    (∃ r : F32, IsRounded binary32 (x * y) r.toNat ∧ mul32 a b = ftz32 r) ∧
    (∃ r : F32, IsRounded binary32 (x + y) r.toNat ∧ add32 a b = ftz32 r) ∧
    (∃ r : F32, IsRounded binary32 (x - y) r.toNat ∧ sub32 a b = ftz32 r)

/-- The special values of 00_scope.md R13: NaN operands and invalid operations give the canonical
NaN, zero sums have the signs R13 prints, and no result is subnormal.  R13 prints neither the results
with an infinity that are no NaN nor the signs of zero products and zero differences: they are
presumed from IEEE 754 (log 15).  A subnormal operand counts as a zero (R12). -/
def Obligations.Binary32SpecialValues : Prop :=
  let inf (n : Bool) : F32 := if n then 0xFF800000#32 else 0x7F800000#32
  let zero (n : Bool) : F32 := if n then 0x80000000#32 else 0x00000000#32
  (∀ a b : F32, isNaN32 a = true ∨ isNaN32 b = true →
    mul32 a b = 0x7FC00000#32 ∧ add32 a b = 0x7FC00000#32 ∧ sub32 a b = 0x7FC00000#32) ∧
  (∀ m n : Bool, mul32 (zero m) (inf n) = 0x7FC00000#32 ∧ mul32 (inf m) (zero n) = 0x7FC00000#32 ∧
    sub32 (inf m) (inf m) = 0x7FC00000#32 ∧ add32 (inf m) (inf (!m)) = 0x7FC00000#32 ∧
    sub32 (inf m) (inf (!m)) = inf m ∧
    mul32 (inf m) (inf n) = inf (xor m n) ∧ add32 (inf m) (inf m) = inf m ∧
    mul32 (zero m) (zero n) = zero (xor m n) ∧ add32 (zero m) (zero n) = zero (m && n) ∧
    sub32 (zero m) (zero n) = zero (m && !n)) ∧
  (∀ (m : Bool) (a : F32), isFinite32 a = true →
    (isZero32 (daz32 a) = false →
      mul32 (inf m) a = inf (xor m a.msb) ∧ mul32 a (inf m) = inf (xor a.msb m)) ∧
    (isZero32 (daz32 a) = true →
      mul32 (inf m) a = 0x7FC00000#32 ∧ mul32 a (inf m) = 0x7FC00000#32) ∧
    add32 (inf m) a = inf m ∧ add32 a (inf m) = inf m ∧
    sub32 (inf m) a = inf m ∧ sub32 a (inf m) = inf (!m)) ∧
  (∀ a : F32, isFinite32 a = true → sub32 a a = 0#32) ∧
  ∀ a b : F32, ∀ r ∈ [mul32 a b, add32 a b, sub32 a b],
    isSubnormal32 r = false ∧ (isNaN32 r = true → r = 0x7FC00000#32)

/-- Every designed coefficient is finite (41_designer.md R130), with the default parameters of
00_scope.md R6 only (log 4): for every note, at every rate from FS_MIN to FS_MAX, and whatever the
free SIN64 and COS64 (log 3). -/
def Obligations.DesignedCoefficientsAreFinite : Prop :=
  ∀ (n : Word) (fs : F64), Config.default.fsMin.toNat ≤ fs.toNat →
    fs.toNat ≤ Config.default.fsMax.toNat → (designNote Config.default n fs).1.finite = true

/-- The Bypass set (41_designer.md R131), with the default parameters of 00_scope.md R6 and their range
of rates only (log 4): B0 is 1.0 exactly, B1 = A1 and B2 = A2. -/
def Obligations.BypassSet : Prop :=
  ∀ (n : Word) (fs : F64), n.toNat = 0 ∨ 13 ≤ n.toNat → Config.default.fsMin.toNat ≤ fs.toNat →
    fs.toNat ≤ Config.default.fsMax.toNat →
    let k := (designNote Config.default n fs).1
    k.b0 = 0x3F800000#32 ∧ k.b1 = k.a1 ∧ k.b2 = k.a2

/-- Signs of results, and operands that are no finite numbers: a rounded result keeps its sign, also
where it underflows to zero; products and quotients have the exclusive or of the signs; `cvt32` keeps
the sign of all but a NaN; a NaN operand makes `>` false (00_scope.md R11), and a NaN result is
canonical (R9, R13).  +∞ is above and -∞ below every finite number, as CLAMPFS needs it
(42_channel_filter.md R152).  The signs and the infinities are presumed from IEEE 754 (log 15). -/
def Obligations.SignsAndNonFiniteOperands : Prop :=
  (∀ (f : FloatFormat) (neg : Bool) (m : Nat) (e : Int), signBit f (roundSigned f neg m e) = neg) ∧
  (∀ a b : F64, isFiniteBits binary64 a.toNat → isFiniteBits binary64 b.toNat →
    (mul64 a b).msb = xor a.msb b.msb ∧
    (realOf binary64 b.toNat ≠ 0 → (div64 a b).msb = xor a.msb b.msb)) ∧
  (∀ a b : F32, isFinite32 a = true → isFinite32 b = true → (mul32 a b).msb = xor a.msb b.msb) ∧
  (∀ v : F64, isNaN64 v = false → (cvt32 v).msb = v.msb) ∧
  (∀ v : F64, isNaN64 v = true → cvt32 v = 0x7FC00000#32) ∧
  (cvt32 0x7FF0000000000000#64 = 0x7F800000#32 ∧ cvt32 0xFFF0000000000000#64 = 0xFF800000#32) ∧
  (∀ a b : F64, isNaN64 a = true ∨ isNaN64 b = true → gt64 a b = false) ∧
  (∀ x : F64, isFiniteBits binary64 x.toNat →
    gt64 0x7FF0000000000000#64 x = true ∧ gt64 x 0x7FF0000000000000#64 = false ∧
    gt64 x 0xFFF0000000000000#64 = true ∧ gt64 0xFFF0000000000000#64 x = false) ∧
  gt64 0x7FF0000000000000#64 0xFFF0000000000000#64 = true ∧
  gt64 0xFFF0000000000000#64 0x7FF0000000000000#64 = false ∧
  gt64 0x7FF0000000000000#64 0x7FF0000000000000#64 = false ∧
  gt64 0xFFF0000000000000#64 0xFFF0000000000000#64 = false
end

