-- ==== Sys2Proof/Laws/Float.lean ====
section
/-! SUPPORT. What flushing, canonical NaNs and the binary32 operations can answer. -/

namespace Sys2Proof.Machine

/-! ## Patterns -/

theorem signWeight_pos (f : FloatFormat) : 0 < signWeight f := Nat.two_pow_pos _

theorem infBits_lt (f : FloatFormat) : infBits f < signWeight f := by
  have h1 : 0 < 2 ^ f.expo := Nat.two_pow_pos _
  have h2 : 0 < 2 ^ f.frac := Nat.two_pow_pos _
  have : (2 ^ f.expo - 1) * 2 ^ f.frac < 2 ^ f.expo * 2 ^ f.frac :=
    Nat.mul_lt_mul_of_pos_right (by omega) h2
  rw [infBits, signWeight, Nat.pow_add, Nat.mul_comm (2 ^ f.frac)]
  exact this

theorem roundBits_le (f : FloatFormat) (m : Nat) (e : Int) : roundBits f m e ≤ infBits f := by
  unfold roundBits
  split
  · exact Nat.zero_le _
  · exact Nat.min_le_right _ _

@[simp] theorem magBits_withSign (f : FloatFormat) (neg : Bool) {b : Nat} (h : b ≤ infBits f) :
    magBits f (withSign f neg b) = b := by
  have := infBits_lt f
  unfold magBits withSign
  split
  · rw [Nat.add_mod_left, Nat.mod_eq_of_lt (by omega)]
  · exact Nat.mod_eq_of_lt (by omega)

@[simp] theorem signBit_withSign (f : FloatFormat) (neg : Bool) {b : Nat} (h : b ≤ infBits f) :
    signBit f (withSign f neg b) = neg := by
  have h1 := infBits_lt f
  have h2 := signWeight_pos f
  unfold signBit withSign
  cases neg
  · simp [Nat.div_eq_of_lt (by omega : b < signWeight f)]
  · simp [Nat.add_div_left, h2, Nat.div_eq_of_lt (by omega : b < signWeight f)]

theorem withSign_lt (f : FloatFormat) (neg : Bool) {b : Nat} (h : b ≤ infBits f) :
    withSign f neg b < 2 ^ (f.frac + f.expo + 1) := by
  have := infBits_lt f
  have h2 : 2 ^ (f.frac + f.expo + 1) = 2 * signWeight f := by rw [signWeight, Nat.pow_succ]; omega
  unfold withSign
  split <;> omega

/-! ## Flushing and canonical NaNs -/

/-- A subnormal pattern: exponent field 0, fraction not 0. -/
theorem isSubnormal32_iff (v : F32) :
    isSubnormal32 v = true ↔ v.toNat % 2 ^ 31 < 2 ^ 23 ∧ v.toNat % 2 ^ 31 ≠ 0 := by
  rw [isSubnormal32, Bool.and_eq_true, decide_eq_true_eq, decide_eq_true_eq]
  rfl

theorem isNaN32_iff (v : F32) : isNaN32 v = true ↔ 0x7F800000 < v.toNat % 2 ^ 31 := by
  rw [isNaN32, isNaNBits, decide_eq_true_eq]
  rfl

theorem signMask_toNat (v : F32) : (v &&& 0x80000000#32).toNat = v.toNat / 2 ^ 31 * 2 ^ 31 := by
  have h := v.isLt
  have h1 : v &&& 0x80000000#32 = (v >>> 31) <<< 31 := by
    ext i hi
    simp only [BitVec.getElem_and, BitVec.getElem_shiftLeft]
    interval_cases i <;> simp [BitVec.getLsbD_eq_getElem]
  rw [h1, BitVec.toNat_shiftLeft, BitVec.toNat_ushiftRight, Nat.shiftLeft_eq,
    Nat.shiftRight_eq_div_pow]
  omega

/-- The sign of a pattern is its top bit. -/
theorem signBit_toNat64 (v : F64) : signBit binary64 v.toNat = v.msb := by
  have h := v.isLt
  rw [BitVec.msb_eq_decide, signBit, show signWeight binary64 = 2 ^ 63 from rfl, decide_eq_decide]
  omega

theorem signBit_toNat32 (v : F32) : signBit binary32 v.toNat = v.msb := by
  have h := v.isLt
  rw [BitVec.msb_eq_decide, signBit, show signWeight binary32 = 2 ^ 31 from rfl, decide_eq_decide]
  omega

/-- Flushing keeps the sign. -/
@[simp] theorem daz32_msb (v : F32) : (daz32 v).msb = v.msb := by
  unfold daz32
  split
  · have h := v.isLt
    rw [BitVec.msb_eq_decide, BitVec.msb_eq_decide, signMask_toNat, decide_eq_decide]
    omega
  · rfl

@[simp] theorem ftz32_msb (v : F32) : (ftz32 v).msb = v.msb := daz32_msb v

@[simp] theorem daz32_not_subnormal (v : F32) : isSubnormal32 (daz32 v) = false := by
  unfold daz32
  split
  · rw [← Bool.not_eq_true, isSubnormal32_iff, signMask_toNat]
    omega
  · rename_i h
    simpa using h

@[simp] theorem ftz32_not_subnormal (v : F32) : isSubnormal32 (ftz32 v) = false :=
  daz32_not_subnormal v

theorem daz32_of_normal {v : F32} (h : isSubnormal32 v = false) : daz32 v = v := by
  simp [daz32, h]

@[simp] theorem isNaN32_daz32 (v : F32) : isNaN32 (daz32 v) = isNaN32 v := by
  unfold daz32
  split
  · rename_i h
    rw [isSubnormal32_iff] at h
    rw [Bool.eq_iff_iff, isNaN32_iff, isNaN32_iff, signMask_toNat]
    omega
  · rfl

@[simp] theorem isNaN32_ftz32 (v : F32) : isNaN32 (ftz32 v) = isNaN32 v := isNaN32_daz32 v

/-- What is stored of a result is a number or the canonical NaN, and never subnormal. -/
theorem bitsF32_cases (v : F32) :
    (isNaN32 v = true ∧ bitsF32 v = 0x7FC00000#32) ∨ (isNaN32 v = false ∧ bitsF32 v = v) := by
  cases h : isNaN32 v <;> simp [bitsF32, h]

@[simp] theorem bitsF32_ftz32_not_subnormal (v : F32) : isSubnormal32 (bitsF32 (ftz32 v)) = false := by
  rcases bitsF32_cases (ftz32 v) with ⟨-, h⟩ | ⟨-, h⟩ <;> rw [h]
  · decide
  · exact ftz32_not_subnormal v

@[simp] theorem bitsF32_idem (v : F32) : bitsF32 (bitsF32 v) = bitsF32 v := by
  rcases bitsF32_cases v with ⟨-, h⟩ | ⟨h, h'⟩
  · rw [h]; decide
  · rw [h', h']

theorem bitsF32_nan {v : F32} (h : isNaN32 v = true) : bitsF32 v = 0x7FC00000#32 := by
  simp [bitsF32, h]

theorem isNaN32_bitsF32 {v : F32} (h : isNaN32 (bitsF32 v) = true) : bitsF32 v = 0x7FC00000#32 := by
  rcases bitsF32_cases v with ⟨-, h'⟩ | ⟨h', h''⟩
  · exact h'
  · rw [h'', h'] at h; cases h

/-! ## Results of the binary32 operations -/

@[simp] theorem mul32_not_subnormal (a b : F32) : isSubnormal32 (mul32 a b) = false :=
  bitsF32_ftz32_not_subnormal _

@[simp] theorem add32_not_subnormal (a b : F32) : isSubnormal32 (add32 a b) = false :=
  bitsF32_ftz32_not_subnormal _

@[simp] theorem sub32_not_subnormal (a b : F32) : isSubnormal32 (sub32 a b) = false :=
  bitsF32_ftz32_not_subnormal _

@[simp] theorem bitsF32_sub32 (a b : F32) : bitsF32 (sub32 a b) = sub32 a b := bitsF32_idem _

/-- A NaN pattern reads as a NaN. -/
theorem unpack_nan {v : F32} (h : isNaN32 v = true) : unpack binary32 v.toNat = .nan := by
  have h' : infBits binary32 < magBits binary32 v.toNat := by
    simpa [isNaN32, isNaNBits] using h
  simp [unpack, h']

theorem canonical_result :
    bitsF32 (ftz32 (BitVec.ofNat 32 (canonicalNaN binary32))) = 0x7FC00000#32 := by decide

/-- The sum of a NaN and anything is the canonical NaN. -/
theorem addValue_nan_right (f : FloatFormat) (x : FloatValue) : addValue f x .nan = canonicalNaN f := by
  cases x <;> rfl

theorem mulValue_nan_right (f : FloatFormat) (x : FloatValue) : mulValue f x .nan = canonicalNaN f := by
  cases x <;> rfl

theorem mul32_nan_left {a b : F32} (h : isNaN32 a = true) : mul32 a b = 0x7FC00000#32 := by
  rw [mul32, unpack_nan (by simpa using h)]
  exact canonical_result

theorem mul32_nan_right {a b : F32} (h : isNaN32 b = true) : mul32 a b = 0x7FC00000#32 := by
  rw [mul32, unpack_nan (v := daz32 b) (by simpa using h), mulValue_nan_right]
  exact canonical_result

theorem add32_nan_left {a b : F32} (h : isNaN32 a = true) : add32 a b = 0x7FC00000#32 := by
  rw [add32, unpack_nan (by simpa using h)]
  exact canonical_result

theorem add32_nan_right {a b : F32} (h : isNaN32 b = true) : add32 a b = 0x7FC00000#32 := by
  rw [add32, unpack_nan (v := daz32 b) (by simpa using h), addValue_nan_right]
  exact canonical_result

theorem sub32_nan_left {a b : F32} (h : isNaN32 a = true) : sub32 a b = 0x7FC00000#32 := by
  rw [sub32, unpack_nan (by simpa using h)]
  exact canonical_result

theorem sub32_nan_right {a b : F32} (h : isNaN32 b = true) : sub32 a b = 0x7FC00000#32 := by
  rw [sub32, unpack_nan (v := daz32 b) (by simpa using h), negValue, addValue_nan_right]
  exact canonical_result

/-- A pattern below infinity reads as a finite number with its own sign, whose magnitude is 0 only for
a zero. -/
theorem unpack_of_lt_infBits (f : FloatFormat) {w : Nat} (h : magBits f w < infBits f) :
    ∃ m e, unpack f w = .fin (signBit f w) m e ∧ (m = 0 ↔ magBits f w = 0) := by
  have := Nat.two_pow_pos f.frac
  simp only [unpack]
  rw [if_neg (by omega), if_neg (by omega)]
  split
  · exact ⟨_, _, rfl, Iff.rfl⟩
  · exact ⟨_, _, rfl, by omega⟩

end Sys2Proof.Machine
end

