-- ==== Sys2Proof/Laws/State.lean ====
section
/-! SUPPORT. What each write of a field leaves in each field, and the per-channel files. -/

namespace Sys2Proof.Machine

section
variable (s : State) (v : Status)
@[simp] theorem State.setStatus_cfg : (s.setStatus v).cfg = s.cfg := rfl
@[simp] theorem State.setStatus_status : (s.setStatus v).status = v := rfl
@[simp] theorem State.setStatus_note : (s.setStatus v).note = s.note := rfl
@[simp] theorem State.setStatus_args : (s.setStatus v).args = s.args := rfl
@[simp] theorem State.setStatus_fs : (s.setStatus v).fs = s.fs := rfl
@[simp] theorem State.setStatus_maxBlk : (s.setStatus v).maxBlk = s.maxBlk := rfl
@[simp] theorem State.setStatus_coef : (s.setStatus v).coef = s.coef := rfl
@[simp] theorem State.setStatus_hist : (s.setStatus v).hist = s.hist := rfl
@[simp] theorem State.setStatus_buf : (s.setStatus v).buf = s.buf := rfl
@[simp] theorem State.setStatus_pending : (s.setStatus v).pending = s.pending := rfl
@[simp] theorem State.setStatus_hostReply : (s.setStatus v).hostReply = s.hostReply := rfl
@[simp] theorem State.setStatus_ctrlReply : (s.setStatus v).ctrlReply = s.ctrlReply := rfl
@[simp] theorem State.setStatus_draws : (s.setStatus v).draws = s.draws := rfl
end

section
variable (s : State) (v : Word)
@[simp] theorem State.setNote_cfg : (s.setNote v).cfg = s.cfg := rfl
@[simp] theorem State.setNote_status : (s.setNote v).status = s.status := rfl
@[simp] theorem State.setNote_note : (s.setNote v).note = v := rfl
@[simp] theorem State.setNote_args : (s.setNote v).args = s.args := rfl
@[simp] theorem State.setNote_fs : (s.setNote v).fs = s.fs := rfl
@[simp] theorem State.setNote_maxBlk : (s.setNote v).maxBlk = s.maxBlk := rfl
@[simp] theorem State.setNote_coef : (s.setNote v).coef = s.coef := rfl
@[simp] theorem State.setNote_hist : (s.setNote v).hist = s.hist := rfl
@[simp] theorem State.setNote_buf : (s.setNote v).buf = s.buf := rfl
@[simp] theorem State.setNote_pending : (s.setNote v).pending = s.pending := rfl
@[simp] theorem State.setNote_hostReply : (s.setNote v).hostReply = s.hostReply := rfl
@[simp] theorem State.setNote_ctrlReply : (s.setNote v).ctrlReply = s.ctrlReply := rfl
@[simp] theorem State.setNote_draws : (s.setNote v).draws = s.draws := rfl
end

section
variable (s : State) (v : Args)
@[simp] theorem State.setArgs_cfg : (s.setArgs v).cfg = s.cfg := rfl
@[simp] theorem State.setArgs_status : (s.setArgs v).status = s.status := rfl
@[simp] theorem State.setArgs_note : (s.setArgs v).note = s.note := rfl
@[simp] theorem State.setArgs_args : (s.setArgs v).args = v := rfl
@[simp] theorem State.setArgs_fs : (s.setArgs v).fs = s.fs := rfl
@[simp] theorem State.setArgs_maxBlk : (s.setArgs v).maxBlk = s.maxBlk := rfl
@[simp] theorem State.setArgs_coef : (s.setArgs v).coef = s.coef := rfl
@[simp] theorem State.setArgs_hist : (s.setArgs v).hist = s.hist := rfl
@[simp] theorem State.setArgs_buf : (s.setArgs v).buf = s.buf := rfl
@[simp] theorem State.setArgs_pending : (s.setArgs v).pending = s.pending := rfl
@[simp] theorem State.setArgs_hostReply : (s.setArgs v).hostReply = s.hostReply := rfl
@[simp] theorem State.setArgs_ctrlReply : (s.setArgs v).ctrlReply = s.ctrlReply := rfl
@[simp] theorem State.setArgs_draws : (s.setArgs v).draws = s.draws := rfl
end

section
variable (s : State) (v : F64)
@[simp] theorem State.setFs_cfg : (s.setFs v).cfg = s.cfg := rfl
@[simp] theorem State.setFs_status : (s.setFs v).status = s.status := rfl
@[simp] theorem State.setFs_note : (s.setFs v).note = s.note := rfl
@[simp] theorem State.setFs_args : (s.setFs v).args = s.args := rfl
@[simp] theorem State.setFs_fs : (s.setFs v).fs = v := rfl
@[simp] theorem State.setFs_maxBlk : (s.setFs v).maxBlk = s.maxBlk := rfl
@[simp] theorem State.setFs_coef : (s.setFs v).coef = s.coef := rfl
@[simp] theorem State.setFs_hist : (s.setFs v).hist = s.hist := rfl
@[simp] theorem State.setFs_buf : (s.setFs v).buf = s.buf := rfl
@[simp] theorem State.setFs_pending : (s.setFs v).pending = s.pending := rfl
@[simp] theorem State.setFs_hostReply : (s.setFs v).hostReply = s.hostReply := rfl
@[simp] theorem State.setFs_ctrlReply : (s.setFs v).ctrlReply = s.ctrlReply := rfl
@[simp] theorem State.setFs_draws : (s.setFs v).draws = s.draws := rfl
end

section
variable (s : State) (v : Word)
@[simp] theorem State.setMaxBlk_cfg : (s.setMaxBlk v).cfg = s.cfg := rfl
@[simp] theorem State.setMaxBlk_status : (s.setMaxBlk v).status = s.status := rfl
@[simp] theorem State.setMaxBlk_note : (s.setMaxBlk v).note = s.note := rfl
@[simp] theorem State.setMaxBlk_args : (s.setMaxBlk v).args = s.args := rfl
@[simp] theorem State.setMaxBlk_fs : (s.setMaxBlk v).fs = s.fs := rfl
@[simp] theorem State.setMaxBlk_maxBlk : (s.setMaxBlk v).maxBlk = v := rfl
@[simp] theorem State.setMaxBlk_coef : (s.setMaxBlk v).coef = s.coef := rfl
@[simp] theorem State.setMaxBlk_hist : (s.setMaxBlk v).hist = s.hist := rfl
@[simp] theorem State.setMaxBlk_buf : (s.setMaxBlk v).buf = s.buf := rfl
@[simp] theorem State.setMaxBlk_pending : (s.setMaxBlk v).pending = s.pending := rfl
@[simp] theorem State.setMaxBlk_hostReply : (s.setMaxBlk v).hostReply = s.hostReply := rfl
@[simp] theorem State.setMaxBlk_ctrlReply : (s.setMaxBlk v).ctrlReply = s.ctrlReply := rfl
@[simp] theorem State.setMaxBlk_draws : (s.setMaxBlk v).draws = s.draws := rfl
end

section
variable (s : State) (v : PerChannel Coef)
@[simp] theorem State.setCoef_cfg : (s.setCoef v).cfg = s.cfg := rfl
@[simp] theorem State.setCoef_status : (s.setCoef v).status = s.status := rfl
@[simp] theorem State.setCoef_note : (s.setCoef v).note = s.note := rfl
@[simp] theorem State.setCoef_args : (s.setCoef v).args = s.args := rfl
@[simp] theorem State.setCoef_fs : (s.setCoef v).fs = s.fs := rfl
@[simp] theorem State.setCoef_maxBlk : (s.setCoef v).maxBlk = s.maxBlk := rfl
@[simp] theorem State.setCoef_coef : (s.setCoef v).coef = v := rfl
@[simp] theorem State.setCoef_hist : (s.setCoef v).hist = s.hist := rfl
@[simp] theorem State.setCoef_buf : (s.setCoef v).buf = s.buf := rfl
@[simp] theorem State.setCoef_pending : (s.setCoef v).pending = s.pending := rfl
@[simp] theorem State.setCoef_hostReply : (s.setCoef v).hostReply = s.hostReply := rfl
@[simp] theorem State.setCoef_ctrlReply : (s.setCoef v).ctrlReply = s.ctrlReply := rfl
@[simp] theorem State.setCoef_draws : (s.setCoef v).draws = s.draws := rfl
end

section
variable (s : State) (v : PerChannel Hist)
@[simp] theorem State.setHist_cfg : (s.setHist v).cfg = s.cfg := rfl
@[simp] theorem State.setHist_status : (s.setHist v).status = s.status := rfl
@[simp] theorem State.setHist_note : (s.setHist v).note = s.note := rfl
@[simp] theorem State.setHist_args : (s.setHist v).args = s.args := rfl
@[simp] theorem State.setHist_fs : (s.setHist v).fs = s.fs := rfl
@[simp] theorem State.setHist_maxBlk : (s.setHist v).maxBlk = s.maxBlk := rfl
@[simp] theorem State.setHist_coef : (s.setHist v).coef = s.coef := rfl
@[simp] theorem State.setHist_hist : (s.setHist v).hist = v := rfl
@[simp] theorem State.setHist_buf : (s.setHist v).buf = s.buf := rfl
@[simp] theorem State.setHist_pending : (s.setHist v).pending = s.pending := rfl
@[simp] theorem State.setHist_hostReply : (s.setHist v).hostReply = s.hostReply := rfl
@[simp] theorem State.setHist_ctrlReply : (s.setHist v).ctrlReply = s.ctrlReply := rfl
@[simp] theorem State.setHist_draws : (s.setHist v).draws = s.draws := rfl
end

section
variable (s : State) (v : Memory)
@[simp] theorem State.setBuf_cfg : (s.setBuf v).cfg = s.cfg := rfl
@[simp] theorem State.setBuf_status : (s.setBuf v).status = s.status := rfl
@[simp] theorem State.setBuf_note : (s.setBuf v).note = s.note := rfl
@[simp] theorem State.setBuf_args : (s.setBuf v).args = s.args := rfl
@[simp] theorem State.setBuf_fs : (s.setBuf v).fs = s.fs := rfl
@[simp] theorem State.setBuf_maxBlk : (s.setBuf v).maxBlk = s.maxBlk := rfl
@[simp] theorem State.setBuf_coef : (s.setBuf v).coef = s.coef := rfl
@[simp] theorem State.setBuf_hist : (s.setBuf v).hist = s.hist := rfl
@[simp] theorem State.setBuf_buf : (s.setBuf v).buf = v := rfl
@[simp] theorem State.setBuf_pending : (s.setBuf v).pending = s.pending := rfl
@[simp] theorem State.setBuf_hostReply : (s.setBuf v).hostReply = s.hostReply := rfl
@[simp] theorem State.setBuf_ctrlReply : (s.setBuf v).ctrlReply = s.ctrlReply := rfl
@[simp] theorem State.setBuf_draws : (s.setBuf v).draws = s.draws := rfl
end

section
variable (s : State) (v : List Event)
@[simp] theorem State.setPending_cfg : (s.setPending v).cfg = s.cfg := rfl
@[simp] theorem State.setPending_status : (s.setPending v).status = s.status := rfl
@[simp] theorem State.setPending_note : (s.setPending v).note = s.note := rfl
@[simp] theorem State.setPending_args : (s.setPending v).args = s.args := rfl
@[simp] theorem State.setPending_fs : (s.setPending v).fs = s.fs := rfl
@[simp] theorem State.setPending_maxBlk : (s.setPending v).maxBlk = s.maxBlk := rfl
@[simp] theorem State.setPending_coef : (s.setPending v).coef = s.coef := rfl
@[simp] theorem State.setPending_hist : (s.setPending v).hist = s.hist := rfl
@[simp] theorem State.setPending_buf : (s.setPending v).buf = s.buf := rfl
@[simp] theorem State.setPending_pending : (s.setPending v).pending = v := rfl
@[simp] theorem State.setPending_hostReply : (s.setPending v).hostReply = s.hostReply := rfl
@[simp] theorem State.setPending_ctrlReply : (s.setPending v).ctrlReply = s.ctrlReply := rfl
@[simp] theorem State.setPending_draws : (s.setPending v).draws = s.draws := rfl
end

section
variable (s : State) (v : Option Word)
@[simp] theorem State.setHostReply_cfg : (s.setHostReply v).cfg = s.cfg := rfl
@[simp] theorem State.setHostReply_status : (s.setHostReply v).status = s.status := rfl
@[simp] theorem State.setHostReply_note : (s.setHostReply v).note = s.note := rfl
@[simp] theorem State.setHostReply_args : (s.setHostReply v).args = s.args := rfl
@[simp] theorem State.setHostReply_fs : (s.setHostReply v).fs = s.fs := rfl
@[simp] theorem State.setHostReply_maxBlk : (s.setHostReply v).maxBlk = s.maxBlk := rfl
@[simp] theorem State.setHostReply_coef : (s.setHostReply v).coef = s.coef := rfl
@[simp] theorem State.setHostReply_hist : (s.setHostReply v).hist = s.hist := rfl
@[simp] theorem State.setHostReply_buf : (s.setHostReply v).buf = s.buf := rfl
@[simp] theorem State.setHostReply_pending : (s.setHostReply v).pending = s.pending := rfl
@[simp] theorem State.setHostReply_hostReply : (s.setHostReply v).hostReply = v := rfl
@[simp] theorem State.setHostReply_ctrlReply : (s.setHostReply v).ctrlReply = s.ctrlReply := rfl
@[simp] theorem State.setHostReply_draws : (s.setHostReply v).draws = s.draws := rfl
end

section
variable (s : State) (v : Option Word)
@[simp] theorem State.setCtrlReply_cfg : (s.setCtrlReply v).cfg = s.cfg := rfl
@[simp] theorem State.setCtrlReply_status : (s.setCtrlReply v).status = s.status := rfl
@[simp] theorem State.setCtrlReply_note : (s.setCtrlReply v).note = s.note := rfl
@[simp] theorem State.setCtrlReply_args : (s.setCtrlReply v).args = s.args := rfl
@[simp] theorem State.setCtrlReply_fs : (s.setCtrlReply v).fs = s.fs := rfl
@[simp] theorem State.setCtrlReply_maxBlk : (s.setCtrlReply v).maxBlk = s.maxBlk := rfl
@[simp] theorem State.setCtrlReply_coef : (s.setCtrlReply v).coef = s.coef := rfl
@[simp] theorem State.setCtrlReply_hist : (s.setCtrlReply v).hist = s.hist := rfl
@[simp] theorem State.setCtrlReply_buf : (s.setCtrlReply v).buf = s.buf := rfl
@[simp] theorem State.setCtrlReply_pending : (s.setCtrlReply v).pending = s.pending := rfl
@[simp] theorem State.setCtrlReply_hostReply : (s.setCtrlReply v).hostReply = s.hostReply := rfl
@[simp] theorem State.setCtrlReply_ctrlReply : (s.setCtrlReply v).ctrlReply = v := rfl
@[simp] theorem State.setCtrlReply_draws : (s.setCtrlReply v).draws = s.draws := rfl
end

section
variable (s : State) (v : Nat)
@[simp] theorem State.setDraws_cfg : (s.setDraws v).cfg = s.cfg := rfl
@[simp] theorem State.setDraws_status : (s.setDraws v).status = s.status := rfl
@[simp] theorem State.setDraws_note : (s.setDraws v).note = s.note := rfl
@[simp] theorem State.setDraws_args : (s.setDraws v).args = s.args := rfl
@[simp] theorem State.setDraws_fs : (s.setDraws v).fs = s.fs := rfl
@[simp] theorem State.setDraws_maxBlk : (s.setDraws v).maxBlk = s.maxBlk := rfl
@[simp] theorem State.setDraws_coef : (s.setDraws v).coef = s.coef := rfl
@[simp] theorem State.setDraws_hist : (s.setDraws v).hist = s.hist := rfl
@[simp] theorem State.setDraws_buf : (s.setDraws v).buf = s.buf := rfl
@[simp] theorem State.setDraws_pending : (s.setDraws v).pending = s.pending := rfl
@[simp] theorem State.setDraws_hostReply : (s.setDraws v).hostReply = s.hostReply := rfl
@[simp] theorem State.setDraws_ctrlReply : (s.setDraws v).ctrlReply = s.ctrlReply := rfl
@[simp] theorem State.setDraws_draws : (s.setDraws v).draws = v := rfl
end

section
variable (s : State) (c : Channel) (v : Bool)
@[simp] theorem State.setRun_cfg : (s.setRun c v).cfg = s.cfg := rfl
@[simp] theorem State.setRun_status : (s.setRun c v).status = { s.status with run := s.status.run.set c v } := rfl
@[simp] theorem State.setRun_note : (s.setRun c v).note = s.note := rfl
@[simp] theorem State.setRun_args : (s.setRun c v).args = s.args := rfl
@[simp] theorem State.setRun_fs : (s.setRun c v).fs = s.fs := rfl
@[simp] theorem State.setRun_maxBlk : (s.setRun c v).maxBlk = s.maxBlk := rfl
@[simp] theorem State.setRun_coef : (s.setRun c v).coef = s.coef := rfl
@[simp] theorem State.setRun_hist : (s.setRun c v).hist = s.hist := rfl
@[simp] theorem State.setRun_buf : (s.setRun c v).buf = s.buf := rfl
@[simp] theorem State.setRun_pending : (s.setRun c v).pending = s.pending := rfl
@[simp] theorem State.setRun_hostReply : (s.setRun c v).hostReply = s.hostReply := rfl
@[simp] theorem State.setRun_ctrlReply : (s.setRun c v).ctrlReply = s.ctrlReply := rfl
@[simp] theorem State.setRun_draws : (s.setRun c v).draws = s.draws := rfl
end

section
variable (s : State) (c : Channel) (v : Coef)
@[simp] theorem State.setCoefOf_cfg : (s.setCoefOf c v).cfg = s.cfg := rfl
@[simp] theorem State.setCoefOf_status : (s.setCoefOf c v).status = s.status := rfl
@[simp] theorem State.setCoefOf_note : (s.setCoefOf c v).note = s.note := rfl
@[simp] theorem State.setCoefOf_args : (s.setCoefOf c v).args = s.args := rfl
@[simp] theorem State.setCoefOf_fs : (s.setCoefOf c v).fs = s.fs := rfl
@[simp] theorem State.setCoefOf_maxBlk : (s.setCoefOf c v).maxBlk = s.maxBlk := rfl
@[simp] theorem State.setCoefOf_coef : (s.setCoefOf c v).coef = s.coef.set c v := rfl
@[simp] theorem State.setCoefOf_hist : (s.setCoefOf c v).hist = s.hist := rfl
@[simp] theorem State.setCoefOf_buf : (s.setCoefOf c v).buf = s.buf := rfl
@[simp] theorem State.setCoefOf_pending : (s.setCoefOf c v).pending = s.pending := rfl
@[simp] theorem State.setCoefOf_hostReply : (s.setCoefOf c v).hostReply = s.hostReply := rfl
@[simp] theorem State.setCoefOf_ctrlReply : (s.setCoefOf c v).ctrlReply = s.ctrlReply := rfl
@[simp] theorem State.setCoefOf_draws : (s.setCoefOf c v).draws = s.draws := rfl
end

section
variable (s : State) (c : Channel) (v : Hist)
@[simp] theorem State.setHistOf_cfg : (s.setHistOf c v).cfg = s.cfg := rfl
@[simp] theorem State.setHistOf_status : (s.setHistOf c v).status = s.status := rfl
@[simp] theorem State.setHistOf_note : (s.setHistOf c v).note = s.note := rfl
@[simp] theorem State.setHistOf_args : (s.setHistOf c v).args = s.args := rfl
@[simp] theorem State.setHistOf_fs : (s.setHistOf c v).fs = s.fs := rfl
@[simp] theorem State.setHistOf_maxBlk : (s.setHistOf c v).maxBlk = s.maxBlk := rfl
@[simp] theorem State.setHistOf_coef : (s.setHistOf c v).coef = s.coef := rfl
@[simp] theorem State.setHistOf_hist : (s.setHistOf c v).hist = s.hist.set c v := rfl
@[simp] theorem State.setHistOf_buf : (s.setHistOf c v).buf = s.buf := rfl
@[simp] theorem State.setHistOf_pending : (s.setHistOf c v).pending = s.pending := rfl
@[simp] theorem State.setHistOf_hostReply : (s.setHistOf c v).hostReply = s.hostReply := rfl
@[simp] theorem State.setHistOf_ctrlReply : (s.setHistOf c v).ctrlReply = s.ctrlReply := rfl
@[simp] theorem State.setHistOf_draws : (s.setHistOf c v).draws = s.draws := rfl
end

@[simp] theorem PerChannel.get_set_same {α : Type} (p : PerChannel α) (c : Channel) (v : α) :
    (p.set c v).get c = v := by cases c <;> rfl

theorem PerChannel.get_set_other {α : Type} (p : PerChannel α) {c d : Channel} (v : α) (h : d ≠ c) :
    (p.set c v).get d = p.get d := by cases c <;> cases d <;> first | rfl | exact absurd rfl h

@[simp] theorem PerChannel.get_ch0 {α : Type} (p : PerChannel α) : p.get .ch0 = p.ch0 := rfl

@[simp] theorem PerChannel.get_ch1 {α : Type} (p : PerChannel α) : p.get .ch1 = p.ch1 := rfl

/-- Writes of two channels' values commute. -/
theorem PerChannel.set_comm {α : Type} (p : PerChannel α) (v w : α) :
    (p.set .ch0 v).set .ch1 w = (p.set .ch1 w).set .ch0 v := rfl

/-- `setRun` writes one RUN bit of STATUS and nothing else. -/
theorem State.setRun_eq (s : State) (c : Channel) (v : Bool) :
    s.setRun c v = { s with status := { s.status with run := s.status.run.set c v } } := rfl

/-- `setCoefOf` writes one channel's coefficients and nothing else. -/
theorem State.setCoefOf_eq (s : State) (c : Channel) (k : Coef) :
    s.setCoefOf c k = { s with coef := s.coef.set c k } := rfl

/-- `setHistOf` writes one channel's history and nothing else. -/
theorem State.setHistOf_eq (s : State) (c : Channel) (h : Hist) :
    s.setHistOf c h = { s with hist := s.hist.set c h } := rfl

/-- The error action writes ERR and ECODE and nothing else (60_exceptions.md R201). -/
theorem raiseError_eq (e : ErrorCode) (s : State) :
    raiseError e s = { s with status := { s.status with
      err := true
      ecode := if s.status.ecode = 0#4 then e.code else s.status.ecode } } := rfl

/-- Every error has a code that is not 0, and at most 4 (60_exceptions.md R200). -/
theorem ErrorCode.code_range (e : ErrorCode) : e.code ≠ 0#4 ∧ e.code.toNat ≤ 4 := by
  cases e <;> decide

end Sys2Proof.Machine
end

