-- ==== Sys2Proof/Laws/Memory.lean ====
section
/-! SUPPORT. The laws of the sample buffers: read after write, the canonical form, and what
`memRead` and `memWrite` can do. -/

namespace Sys2Proof.Machine

/-! ## Read after write -/

@[simp] theorem Memory.find_store_same (m : Memory) (a : Nat) (v : Word) :
    (m.store a v).find a = some v := by
  induction m with
  | nil => simp [Memory.store, Memory.find]
  | cons p rest ih =>
    obtain ⟨k, u⟩ := p
    unfold Memory.store
    split
    · simp [Memory.find]
    · split
      · simp [Memory.find]
      · rename_i h
        simp [Memory.find, Ne.symm h, ih]

theorem Memory.find_store_other (m : Memory) {a b : Nat} (v : Word) (h : b ≠ a) :
    (m.store a v).find b = m.find b := by
  induction m with
  | nil => simp [Memory.store, Memory.find, Ne.symm h]
  | cons p rest ih =>
    obtain ⟨k, u⟩ := p
    unfold Memory.store
    split
    · simp [Memory.find, Ne.symm h]
    · split
      · rename_i hk
        subst hk
        simp [Memory.find, Ne.symm h]
      · simp [Memory.find, ih]

/-! ## The canonical form -/

theorem Memory.wfFrom_mono (cap : Nat) (m : Memory) {low low' : Nat} (h : low' ≤ low)
    (hm : Memory.wfFrom cap low m = true) : Memory.wfFrom cap low' m = true := by
  cases m with
  | nil => rfl
  | cons p rest =>
    simp only [Memory.wfFrom, Bool.and_eq_true, decide_eq_true_eq] at hm ⊢
    exact ⟨⟨h.trans hm.1.1, hm.1.2⟩, hm.2⟩

/-- Below the first address nothing is stored. -/
theorem Memory.find_below (cap : Nat) (m : Memory) {low a : Nat}
    (hm : Memory.wfFrom cap low m = true) (h : a < low) : m.find a = none := by
  induction m generalizing low with
  | nil => rfl
  | cons p rest ih =>
    simp only [Memory.wfFrom, Bool.and_eq_true, decide_eq_true_eq] at hm
    have hne : p.1 ≠ a := by omega
    simp [Memory.find, hne, ih hm.2 (by omega)]

theorem Memory.store_wfFrom (cap : Nat) (m : Memory) {low a : Nat} (v : Word) (hlow : low ≤ a)
    (ha : isBufWord cap a = true) (hm : Memory.wfFrom cap low m = true) :
    Memory.wfFrom cap low (m.store a v) = true := by
  induction m generalizing low with
  | nil => simp [Memory.store, Memory.wfFrom, hlow, ha]
  | cons p rest ih =>
    obtain ⟨k, u⟩ := p
    simp only [Memory.wfFrom, Bool.and_eq_true, decide_eq_true_eq] at hm
    unfold Memory.store
    split
    · rename_i hk
      simp only [Memory.wfFrom, Bool.and_eq_true, decide_eq_true_eq]
      exact ⟨⟨hlow, ha⟩, ⟨⟨hk, hm.1.2⟩, hm.2⟩⟩
    · split
      · rename_i hk
        subst hk
        simp only [Memory.wfFrom, Bool.and_eq_true, decide_eq_true_eq]
        exact ⟨⟨hlow, ha⟩, hm.2⟩
      · simp only [Memory.wfFrom, Bool.and_eq_true, decide_eq_true_eq]
        exact ⟨hm.1, ih (by omega) hm.2⟩

/-- A store to a buffer word keeps the canonical form. -/
theorem Memory.store_wf (cap : Nat) (m : Memory) {a : Nat} (v : Word)
    (ha : isBufWord cap a = true) (hm : m.wf cap = true) : (m.store a v).wf cap = true :=
  Memory.store_wfFrom cap m v (Nat.zero_le a) ha hm

theorem Memory.ext_from (cap : Nat) (m n : Memory) {low low' : Nat}
    (hm : Memory.wfFrom cap low m = true) (hn : Memory.wfFrom cap low' n = true)
    (h : ∀ a, m.find a = n.find a) : m = n := by
  induction m generalizing n low low' with
  | nil =>
    cases n with
    | nil => rfl
    | cons q n' => have := h q.1; simp [Memory.find] at this
  | cons p m' ih =>
    obtain ⟨k, u⟩ := p
    cases n with
    | nil => have := h k; simp [Memory.find] at this
    | cons q n' =>
      obtain ⟨l, w⟩ := q
      simp only [Memory.wfFrom, Bool.and_eq_true, decide_eq_true_eq] at hm hn
      have hkl : k = l := by
        rcases Nat.lt_trichotomy k l with hlt | heq | hgt
        · have := h k
          rw [Memory.find, if_pos rfl, Memory.find, if_neg (by omega),
            Memory.find_below cap n' hn.2 (by omega)] at this
          cases this
        · exact heq
        · have := h l
          rw [Memory.find, if_neg (by omega), Memory.find_below cap m' hm.2 (by omega), Memory.find,
            if_pos rfl] at this
          cases this
      subst hkl
      have huw : u = w := by have := h k; simpa [Memory.find] using this
      subst huw
      congr 1
      refine ih n' hm.2 hn.2 fun a => ?_
      by_cases ha : k = a
      · subst ha
        rw [Memory.find_below cap m' hm.2 (by omega), Memory.find_below cap n' hn.2 (by omega)]
      · have := h a
        simpa [Memory.find, ha] using this

/-- Buffers in canonical form that hold the same words are the same data. -/
theorem Memory.wf_ext (cap : Nat) (m n : Memory) (hm : m.wf cap = true) (hn : n.wf cap = true)
    (h : ∀ a, m.find a = n.find a) : m = n :=
  Memory.ext_from cap m n hm hn h

/-! ## Which addresses are buffer words -/

theorem isBufWord_eq_true (cap a : Nat) : isBufWord cap a = true ↔
    (0x4000 ≤ a ∧ a < 0x8000 ∧ a < 0x4000 + cap) ∨ (0x8000 ≤ a ∧ a < 0xC000 ∧ a < 0x8000 + cap) := by
  simp [isBufWord, and_assoc]

theorem isBufWord_base (cap : Nat) (c : Channel) (i : Nat) (hi : i < cap) (hcap : cap ≤ 16384) :
    isBufWord cap (bufBase c + i) = true := by
  rw [isBufWord_eq_true]
  cases c <;> simp only [bufBase] <;> omega

/-! ## memRead and memWrite -/

/-- All a buffer read can do: a stored word, a free draw, or 0 at a reserved address; only the count
of draws can change. -/
theorem memRead_cases (s : State) (a : Nat) :
    (isBufWord s.cfg.bufCap a = true ∧ ∃ v, s.buf.find a = some v ∧ memRead s a = (v, s)) ∨
    (isBufWord s.cfg.bufCap a = true ∧ s.buf.find a = none ∧
      memRead s a = (Config.freeWord s.draws, s.setDraws (s.draws + 1))) ∨
    (isBufWord s.cfg.bufCap a = false ∧ memRead s a = (0#32, s)) := by
  unfold memRead
  cases hb : isBufWord s.cfg.bufCap a with
  | false => simp
  | true => cases hf : s.buf.find a <;> simp

/-- A buffer read changes the count of draws and nothing else. -/
theorem memRead_state (s : State) (a : Nat) : ∃ d, (memRead s a).2 = s.setDraws d := by
  rcases memRead_cases s a with ⟨-, v, -, h⟩ | ⟨-, -, h⟩ | ⟨-, h⟩ <;> rw [h]
  · exact ⟨s.draws, rfl⟩
  · exact ⟨s.draws + 1, rfl⟩
  · exact ⟨s.draws, rfl⟩

theorem memRead_stored (s : State) {a : Nat} {v : Word} (ha : isBufWord s.cfg.bufCap a = true)
    (hv : s.buf.find a = some v) : memRead s a = (v, s) := by
  simp [memRead, ha, hv]

theorem memWrite_bufWord (s : State) {a : Nat} (v : Word) (ha : isBufWord s.cfg.bufCap a = true) :
    memWrite s a v = s.setBuf (s.buf.store a v) := by
  simp [memWrite, ha]

theorem memWrite_reserved (s : State) {a : Nat} (v : Word) (ha : isBufWord s.cfg.bufCap a = false) :
    memWrite s a v = s := by
  simp [memWrite, ha]

/-- A buffer write changes the buffers and nothing else. -/
theorem memWrite_state (s : State) (a : Nat) (v : Word) :
    ∃ m, memWrite s a v = s.setBuf m ∧ (∀ b, b ≠ a → m.find b = s.buf.find b) ∧
      (s.buf.wf s.cfg.bufCap = true → m.wf s.cfg.bufCap = true) := by
  cases hb : isBufWord s.cfg.bufCap a with
  | false => exact ⟨s.buf, by simp [memWrite, hb, State.setBuf], fun _ _ => rfl, id⟩
  | true =>
    exact ⟨s.buf.store a v, memWrite_bufWord s v hb, fun b h => Memory.find_store_other _ v h,
      Memory.store_wf _ _ v hb⟩

end Sys2Proof.Machine
end

