-- ==== Sys2Proof/Laws/Commands.lean ====
section
/-! SUPPORT. All that each command can do: one lemma for each shared operation and each meaning. -/

namespace Sys2Proof.Machine

/-! ## The selected channels -/

/-- `chans` by the two mask bits, channel 0 first (30_encoding.md R82). -/
theorem chans_eq (chm : BitVec 2) : chans chm =
    (if chm.getLsbD 0 then [Channel.ch0] else []) ++ (if chm.getLsbD 1 then [Channel.ch1] else []) := by
  revert chm
  decide

/-! ## HRST, SETC, PREPARE -/

theorem silence_eq (s : State) (c : Channel) : silence s c = { s with
    hist := s.hist.set c Hist.zero
    status := { s.status with run := s.status.run.set c false } } := rfl

theorem foldl_silence (chm : BitVec 2) (s : State) : (chans chm).foldl silence s = { s with
    hist := ⟨if chm.getLsbD 0 then Hist.zero else s.hist.ch0,
      if chm.getLsbD 1 then Hist.zero else s.hist.ch1⟩
    status := { s.status with run := ⟨if chm.getLsbD 0 then false else s.status.run.ch0,
      if chm.getLsbD 1 then false else s.status.run.ch1⟩ } } := by
  rw [chans_eq]
  cases chm.getLsbD 0 <;> cases chm.getLsbD 1 <;> rfl

theorem loadCoefs_chans (k : Coef) (s : State) (chm : BitVec 2) : loadCoefs k s (chans chm) = { s with
    coef := ⟨if chm.getLsbD 0 then k else s.coef.ch0, if chm.getLsbD 1 then k else s.coef.ch1⟩ } := by
  rw [loadCoefs, chans_eq]
  cases chm.getLsbD 0 <;> cases chm.getLsbD 1 <;> rfl

theorem configure_eq (s : State) : configure s = { s with
    fs := (clampFs s.cfg.fsMin s.cfg.fsMax s.args.fs).1
    maxBlk := s.args.maxBlk
    hist := ⟨Hist.zero, Hist.zero⟩
    status := { s.status with
      prep := true
      run := ⟨false, false⟩
      fsclamp := (clampFs s.cfg.fsMin s.cfg.fsMax s.args.fs).2 } } := rfl

/-! ## PROC -/

/-- The output of a step is stored as it is: it is a number or the canonical NaN. -/
@[simp] theorem bitsF32_biquadStep (k : Coef) (h : Hist) (x : F32) :
    bitsF32 (biquadStep k h x).1 = (biquadStep k h x).1 := by
  simp only [biquadStep, recurrence, bitsF32_sub32]

/-- The new input and output of a history are not subnormal (10_state.md R45). -/
theorem biquadStep_not_subnormal (k : Coef) (h : Hist) (x : F32) :
    isSubnormal32 (biquadStep k h x).2.x1 = false ∧ isSubnormal32 (biquadStep k h x).2.y1 = false := by
  simp only [biquadStep, recurrence, daz32_not_subnormal, sub32_not_subnormal, and_self]

/-- A history whose fields come from `daz32` or `ftz32`: none is subnormal. -/
def Hist.flushed (h : Hist) : Prop :=
  isSubnormal32 h.x1 = false ∧ isSubnormal32 h.x2 = false ∧ isSubnormal32 h.y1 = false ∧
    isSubnormal32 h.y2 = false

theorem biquadStep_flushed (k : Coef) {h : Hist} (x : F32) (hf : h.flushed) :
    (biquadStep k h x).2.flushed :=
  ⟨(biquadStep_not_subnormal k h x).1, hf.1, (biquadStep_not_subnormal k h x).2, hf.2.2.1⟩

/-- What processing part of channel `c`'s block can change: the words `i` to `i + n - 1` of its buffer,
its history and the count of draws; the canonical form and flushed histories are kept. -/
structure ProcEffect (c : Channel) (i n : Nat) (s t : State) : Prop where
  frame : t = { s with buf := t.buf, hist := s.hist.set c (t.hist.get c), draws := t.draws }
  words : ∀ a, ¬ (bufBase c + i ≤ a ∧ a < bufBase c + i + n) → t.buf.find a = s.buf.find a
  canonical : s.buf.wf s.cfg.bufCap = true → t.buf.wf s.cfg.bufCap = true
  flushed : (s.hist.get c).flushed → (t.hist.get c).flushed

theorem PerChannel.set_get_self {α : Type} (p : PerChannel α) (c : Channel) : p.set c (p.get c) = p := by
  cases c <;> rfl

theorem PerChannel.set_set {α : Type} (p : PerChannel α) (c : Channel) (v w : α) :
    (p.set c v).set c w = p.set c w := by
  cases c <;> rfl

theorem ProcEffect.refl (c : Channel) (i : Nat) (s : State) : ProcEffect c i 0 s s where
  frame := by rw [PerChannel.set_get_self]
  words := fun _ _ => rfl
  canonical := id
  flushed := id

theorem ProcEffect.trans {c : Channel} {i n k : Nat} {s t u : State} (h : ProcEffect c i n s t)
    (h' : ProcEffect c (i + n) k t u) : ProcEffect c i (n + k) s u where
  frame := by
    have h1 := h.frame
    have h2 := h'.frame
    generalize t.buf = tb, t.hist = th, t.draws = td at h1
    generalize u.buf = ub, u.hist = uh, u.draws = ud at h2 ⊢
    subst h1 h2
    simp [PerChannel.set_set]
  words := fun a ha => by
    rw [h'.words a (by omega), h.words a (by omega)]
  canonical := fun hw => by
    have hc : t.cfg = s.cfg := by rw [h.frame]
    have := h'.canonical
    rw [hc] at this
    exact this (h.canonical hw)
  flushed := fun hf => h'.flushed (h.flushed hf)

/-- One sample of PROC: the output replaces the input word, and the history advances (R165, R166). -/
theorem procSample_eq (c : Channel) (i : Nat) (s : State) :
    ∃ x d m, (memRead s (bufBase c + i)) = (x, s.setDraws d) ∧
      procSample c i s = { s with
        buf := m
        hist := s.hist.set c (biquadStep (s.coef.get c) (s.hist.get c) x).2
        draws := d } ∧
      (∀ b, b ≠ bufBase c + i → m.find b = s.buf.find b) ∧
      (isBufWord s.cfg.bufCap (bufBase c + i) = true →
        m = s.buf.store (bufBase c + i) (biquadStep (s.coef.get c) (s.hist.get c) x).1) ∧
      (s.buf.wf s.cfg.bufCap = true → m.wf s.cfg.bufCap = true) := by
  obtain ⟨d, hd⟩ := memRead_state s (bufBase c + i)
  have hr : memRead s (bufBase c + i) = ((memRead s (bufBase c + i)).1, s.setDraws d) := by
    rw [← hd]
  generalize hx : (memRead s (bufBase c + i)).1 = x at hr
  obtain ⟨m, hm, hother, hwf⟩ := memWrite_state
    ((s.setDraws d).setHistOf c (biquadStep (s.coef.get c) (s.hist.get c) x).2) (bufBase c + i)
    (biquadStep (s.coef.get c) (s.hist.get c) x).1
  refine ⟨x, d, m, hr, ?_, hother, fun hb => ?_, hwf⟩
  · rw [procSample, hr]
    simp only [bitsF32_biquadStep, State.setDraws_coef, State.setDraws_hist]
    rw [hm]
    rfl
  · rw [memWrite_bufWord _ _ (by exact hb)] at hm
    have := congrArg State.buf hm
    simpa using this.symm

theorem procSample_effect (c : Channel) (i : Nat) (s : State) : ProcEffect c i 1 s (procSample c i s) := by
  obtain ⟨x, d, m, -, heq, hother, -, hwf⟩ := procSample_eq c i s
  rw [heq]
  refine ⟨?_, fun a ha => hother a (by omega), hwf, fun hf => ?_⟩
  · simp
  · simpa using biquadStep_flushed _ x hf

theorem procSamples_effect (c : Channel) (n i : Nat) (s : State) :
    ProcEffect c i n s (procSamples c n i s) := by
  induction n generalizing i s with
  | zero => exact ProcEffect.refl c i s
  | succ n ih =>
    have h := (procSample_effect c i s).trans (ih (i + 1) (procSample c i s))
    rwa [Nat.add_comm] at h

/-- PROC on one channel: the samples, and RUN[c] if there is one (R165). -/
theorem procChannel_eq (cnt : Nat) (s : State) (c : Channel) :
    procChannel cnt s c = { procSamples c cnt 0 s with
      status := { s.status with run := s.status.run.set c (s.status.run.get c || decide (1 ≤ cnt)) } } := by
  have hst : (procSamples c cnt 0 s).status = s.status := by
    rw [(procSamples_effect c cnt 0 s).frame]
  unfold procChannel
  rcases Nat.eq_zero_or_pos cnt with rfl | h
  · simp [procSamples, PerChannel.set_get_self]
  · simp [Nat.one_le_iff_ne_zero.mpr (Nat.pos_iff_ne_zero.mp h), State.setRun_eq, hst]

/-! ## All that each command can answer -/

theorem execPrepare_cases {s t : State} (h : execPrepare s = .next t) :
    (1 ≤ s.args.maxBlk.toNat ∧ s.args.maxBlk.toNat ≤ s.cfg.bufCap ∧
      t = loadDesign (configure s) (designNote s.cfg s.note (configure s).fs)) ∨
    ((s.args.maxBlk.toNat = 0 ∨ s.cfg.bufCap < s.args.maxBlk.toNat) ∧
      t = raiseError .maxBlkRange s) := by
  unfold execPrepare at h
  split at h
  · rename_i hr
    cases h
    exact .inr ⟨hr, rfl⟩
  · rename_i hr
    cases h
    exact .inl ⟨by omega, by omega, rfl⟩

theorem execUpdate_cases {s t : State} (h : execUpdate s = .next t) :
    (s.status.prep = true ∧ t = loadDesign s (designNote s.cfg s.note s.fs)) ∨
    (s.status.prep = false ∧ t = raiseError .notPrepared s) := by
  unfold execUpdate at h
  split at h
  · rename_i hp; cases h; exact .inl ⟨hp, rfl⟩
  · rename_i hp; cases h; exact .inr ⟨by simpa using hp, rfl⟩

theorem execSetc_cases {chm : BitVec 2} {s t : State} (h : execSetc chm s = .next t) :
    (s.status.prep = true ∧ t = loadCoefs s.args.coef s (chans chm)) ∨
    (s.status.prep = false ∧ t = raiseError .notPrepared s) := by
  unfold execSetc at h
  split at h
  · rename_i hp; cases h; exact .inl ⟨hp, rfl⟩
  · rename_i hp; cases h; exact .inr ⟨by simpa using hp, rfl⟩

theorem execProc_cases {chm : BitVec 2} {cnt : Nat} {s t : State} (h : execProc chm cnt s = .next t) :
    (s.status.prep = true ∧ cnt ≤ s.maxBlk.toNat ∧ t = (chans chm).foldl (procChannel cnt) s) ∨
    (s.status.prep = true ∧ s.maxBlk.toNat < cnt ∧ t = raiseError .countRange s) ∨
    (s.status.prep = false ∧ t = raiseError .notPrepared s) := by
  unfold execProc at h
  split at h
  · rename_i hp
    split at h
    · rename_i hc; cases h; exact .inr (.inl ⟨hp, hc, rfl⟩)
    · rename_i hc; cases h; exact .inl ⟨hp, by omega, rfl⟩
  · rename_i hp; cases h; exact .inr (.inr ⟨by simpa using hp, rfl⟩)

/-- No command stops the block: `exec` always answers a next state (60_exceptions.md R208). -/
theorem exec_next (i : Instr) (s : State) : ∃ t, exec i s = .next t := by
  cases i with
  | nop => exact ⟨_, rfl⟩
  | prepare => simp only [exec, execPrepare]; split <;> exact ⟨_, rfl⟩
  | update => simp only [exec, execUpdate]; split <;> exact ⟨_, rfl⟩
  | setc chm => simp only [exec, execSetc]; split <;> exact ⟨_, rfl⟩
  | proc chm cnt =>
    simp only [exec, execProc]
    split
    · split <;> exact ⟨_, rfl⟩
    · exact ⟨_, rfl⟩
  | hrst chm => exact ⟨_, rfl⟩
  | srst => exact ⟨_, rfl⟩

end Sys2Proof.Machine
end

