-- ==== Sys2Proof/Laws/Blocks.lean ====
section
/-! SUPPORT. What a PROC computes on a stored block, and what it leaves of the other channel
(42_channel_filter.md R165, R166). -/

namespace Sys2Proof.Machine

/-- The output of one sample. -/
theorem biquadStep_output (k : Coef) (h : Hist) (x : F32) :
    (biquadStep k h x).1 = recurrence k h (daz32 x) := by simp only [biquadStep]

/-- The history after one sample. -/
theorem biquadStep_history (k : Coef) (h : Hist) (x : F32) :
    (biquadStep k h x).2 = ⟨daz32 x, h.x1, recurrence k h (daz32 x), h.y1⟩ := by simp only [biquadStep]

/-- A block gives as many outputs as it has samples. -/
theorem filterBlock_length (k : Coef) (h : Hist) (xs : List F32) :
    (filterBlock k h xs).1.length = xs.length := by
  induction xs generalizing h with
  | nil => rfl
  | cons x xs ih => simp [filterBlock, ih]

/-- Where every sample of the run is stored, `procSamples` computes `filterBlock` and changes no other word. -/
theorem procSamples_written (c : Channel) (xs : List Word) (i : Nat) (s : State)
    (hb : ∀ j < xs.length, isBufWord s.cfg.bufCap (bufBase c + (i + j)) = true)
    (hx : ∀ j (h : j < xs.length), s.buf.find (bufBase c + (i + j)) = some xs[j]) :
    ∃ m, procSamples c xs.length i s = { s with
        buf := m
        hist := s.hist.set c (filterBlock (s.coef.get c) (s.hist.get c) xs).2 } ∧
      (∀ j (h : j < xs.length), m.find (bufBase c + (i + j)) =
        some ((filterBlock (s.coef.get c) (s.hist.get c) xs).1[j]'(by rw [filterBlock_length]; exact h))) ∧
      (∀ a, ¬ (bufBase c + i ≤ a ∧ a < bufBase c + i + xs.length) → m.find a = s.buf.find a) ∧
      (s.buf.wf s.cfg.bufCap = true → m.wf s.cfg.bufCap = true) := by
  induction xs generalizing i s with
  | nil => exact ⟨s.buf, by simp [procSamples, filterBlock, PerChannel.set_get_self], by simp, fun _ _ => rfl, id⟩
  | cons x xs ih =>
    have hb0 := hb 0 (by simp)
    have hx0 := hx 0 (by simp)
    simp only [Nat.add_zero, List.getElem_cons_zero] at hb0 hx0
    obtain ⟨x', d, m, hr, he, hother, hst, hwf⟩ := procSample_eq c i s
    rw [memRead_stored s hb0 hx0] at hr
    obtain ⟨rfl, hd⟩ := Prod.mk.inj hr
    have hd : d = s.draws := by have := congrArg State.draws hd; exact this.symm
    subst hd
    have hst := hst hb0
    set o := biquadStep (s.coef.get c) (s.hist.get c) x with ho
    set s1 : State := { s with buf := m, hist := s.hist.set c o.2, draws := s.draws } with hs1
    have hg : s1.hist.get c = o.2 := by simp [hs1]
    have hk : s1.coef.get c = s.coef.get c := rfl
    obtain ⟨m2, h1, h2, h3, h4⟩ := ih (i + 1) s1 (fun j hj => by
        have := hb (j + 1) (by simpa using hj); rwa [show i + (j + 1) = i + 1 + j by omega] at this)
      (fun j hj => by
        have := hx (j + 1) (by simpa using hj)
        rw [show i + (j + 1) = i + 1 + j by omega] at this
        change m.find _ = _
        rw [hother _ (by omega), this]
        simp)
    rw [hg, hk] at h1 h2
    refine ⟨m2, ?_, ?_, ?_, ?_⟩
    · simp only [List.length_cons, procSamples, he]
      rw [h1]
      simp [hs1, filterBlock, ← ho, PerChannel.set_set]
    · intro j hj
      cases j with
      | zero =>
        simp only [Nat.add_zero, filterBlock, List.getElem_cons_zero]
        rw [h3 _ (by omega)]
        change m.find _ = _
        rw [hst, Memory.find_store_same]
      | succ j =>
        simp only [filterBlock, List.getElem_cons_succ]
        rw [show i + (j + 1) = i + 1 + j by omega]
        exact h2 j (by simpa using hj)
    · intro a ha
      simp only [List.length_cons] at ha
      rw [h3 a (by omega)]
      exact hother a (by omega)
    · intro hw; exact h4 (hwf hw)

/-- A ready block lies within the buffer. -/
theorem ProcReady.buf {s : State} {cnt : Nat} (h : ProcReady s cnt) :
    cnt ≤ s.cfg.bufCap ∧ s.cfg.bufCap ≤ 16384 := by
  obtain ⟨h1, h2, h3, h4⟩ := h
  simp only [Config.legal, Bool.and_eq_true, decide_eq_true_eq] at h1
  exact ⟨by omega, h1.1.1.1.2⟩

/-- Every sample address of a ready block is a buffer word. -/
theorem ProcReady.word {s : State} {cnt : Nat} (h : ProcReady s cnt) (c : Channel) (j : Nat) (hj : j < cnt) :
    isBufWord s.cfg.bufCap (bufBase c + j) = true :=
  isBufWord_base _ _ _ (by have := (ProcReady.buf h).1; omega) (ProcReady.buf h).2

/-- A ready PROC filters its channels in turn. -/
theorem ProcReady.exec {s : State} {cnt : Nat} {chm : BitVec 2} (h : ProcReady s cnt) :
    Sys2Proof.Machine.exec (.proc chm cnt) s = .next ((chans chm).foldl (procChannel cnt) s) := by
  simp only [Sys2Proof.Machine.exec, execProc]; rw [if_pos h.2.1, if_neg (by have := h.2.2.1; omega)]

/-- Where every sample of the block is stored, a channel computes `filterBlock` and sets its RUN bit. -/
theorem procChannel_written (c : Channel) (xs : List Word) (s : State) (h : ProcReady s xs.length)
    (hx : ∀ j (h : j < xs.length), s.buf.find (bufBase c + j) = some xs[j]) :
    ∃ m, procChannel xs.length s c = { s with
        buf := m
        hist := s.hist.set c (filterBlock (s.coef.get c) (s.hist.get c) xs).2
        status := { s.status with run := s.status.run.set c (s.status.run.get c || decide (1 ≤ xs.length)) } } ∧
      (∀ j (h : j < xs.length), m.find (bufBase c + j) =
        some ((filterBlock (s.coef.get c) (s.hist.get c) xs).1[j]'(by rw [filterBlock_length]; exact h))) ∧
      (∀ a, ¬ (bufBase c ≤ a ∧ a < bufBase c + xs.length) → m.find a = s.buf.find a) ∧
      (s.buf.wf s.cfg.bufCap = true → m.wf s.cfg.bufCap = true) := by
  obtain ⟨m, h1, h2, h3, h4⟩ := procSamples_written c xs 0 s
    (fun j hj => by rw [Nat.zero_add]; exact ProcReady.word h c j hj)
    (fun j hj => by rw [Nat.zero_add]; exact hx j hj)
  refine ⟨m, ?_, fun j hj => ?_, fun a ha => h3 a (by omega), h4⟩
  · rw [procChannel_eq, h1]
  · have := h2 j hj; rwa [Nat.zero_add] at this

/-- A stored block, word by word. -/
theorem blockWords_elems {m : Memory} {c : Channel} {n : Nat} {xs : List Word}
    (h : blockWords m c n = xs.map some) :
    xs.length = n ∧ ∀ j (h : j < xs.length), m.find (bufBase c + j) = some xs[j] := by
  have hl : xs.length = n := by have := congrArg List.length h; simpa [blockWords] using this.symm
  refine ⟨hl, fun j hj => ?_⟩
  have := congrArg (fun l => l[j]?) h
  simp [blockWords, hj, hl ▸ hj] at this
  exact this

/-- A block given word by word. -/
theorem blockWords_of_elems {m : Memory} {c : Channel} {xs : List Word} 
  (h : ∀ j (h : j < xs.length), m.find (bufBase c + j) = some xs[j]) :
    blockWords m c xs.length = xs.map some := by
  apply List.ext_getElem
  · simp [blockWords]
  · intro j h1 h2
    simp [blockWords] at h1 h2 ⊢
    exact h j h1

/-- Filtering a channel leaves the state ready. -/
theorem ProcReady.channel {s : State} {cnt n : Nat} {c : Channel} (h : ProcReady s cnt) :
    ProcReady (procChannel n s c) cnt := by
  rw [procChannel_eq]
  have := (procSamples_effect c n 0 s).frame
  generalize procSamples c n 0 s = t at *
  rw [this]; exact h

/-- Filtering one channel leaves the other channel's history and words, and every coefficient. -/
theorem procChannel_other (c d : Channel) (n : Nat) (hcd : c ≠ d) (s : State) :
   (procChannel n s c).coef = s.coef ∧ (procChannel n s c).hist.get d = s.hist.get d ∧
   ∀ j < n, n ≤ 16384 → (procChannel n s c).buf.find (bufBase d + j) = s.buf.find (bufBase d + j) := by
  rw [procChannel_eq]
  have E := procSamples_effect c n 0 s
  have hf := E.frame
  have hw := E.words
  generalize procSamples c n 0 s = t at *
  refine ⟨by rw [hf], ?_, ?_⟩
  · rw [hf]; cases c <;> cases d <;> first | exact absurd rfl hcd | rfl
  · intro j hj hn
    apply hw
    cases c <;> cases d <;> first | exact absurd rfl hcd | (simp only [bufBase]; omega)

/-- Blocks of memories that agree. -/
theorem blockWords_congr {m m' : Memory} {c : Channel} {n : Nat}
    (h : ∀ j < n, m.find (bufBase c + j) = m'.find (bufBase c + j)) :
    blockWords m c n = blockWords m' c n := by
  apply List.ext_getElem
  · simp [blockWords]
  · intro j h1 h2; simp [blockWords] at h1 ⊢; exact h j h1

end Sys2Proof.Machine
end

