-- ==== Sys2Proof/Laws/Decode.lean ====
section
/-! SUPPORT. The fields of a command word, and all that decoding can answer. -/

namespace Sys2Proof

theorem formatC_toNat (op : BitVec 4) (chm : BitVec 2) (cnt : BitVec 16) :
    (formatC op chm cnt).toNat = cnt.toNat * 65536 + chm.toNat * 16 + op.toNat := by
  have h1 := op.isLt
  have h2 := chm.isLt
  have hlow : (chm ++ op).toNat = chm.toNat * 16 + op.toNat := by
    rw [BitVec.toNat_append, ← Nat.shiftLeft_add_eq_or_of_lt h1, Nat.shiftLeft_eq]
  have hmid : (0#10 ++ (chm ++ op)).toNat = chm.toNat * 16 + op.toNat := by
    rw [BitVec.toNat_append, hlow]
    simp
  rw [formatC, BitVec.toNat_append, hmid, ← Nat.shiftLeft_add_eq_or_of_lt (by omega),
    Nat.shiftLeft_eq]
  omega

@[simp] theorem opField_toNat (w : Word) : (opField w).toNat = w.toNat % 16 := by
  simp [opField, BitVec.extractLsb'_toNat]

@[simp] theorem chmField_toNat (w : Word) : (chmField w).toNat = w.toNat / 16 % 4 := by
  simp [chmField, BitVec.extractLsb'_toNat, Nat.shiftRight_eq_div_pow]

@[simp] theorem rsvField_toNat (w : Word) : (rsvField w).toNat = w.toNat / 64 % 1024 := by
  simp [rsvField, BitVec.extractLsb'_toNat, Nat.shiftRight_eq_div_pow]

@[simp] theorem cntField_toNat (w : Word) : (cntField w).toNat = w.toNat / 65536 % 65536 := by
  simp [cntField, BitVec.extractLsb'_toNat, Nat.shiftRight_eq_div_pow]

@[simp] theorem opField_formatC (op : BitVec 4) (chm : BitVec 2) (cnt : BitVec 16) :
    opField (formatC op chm cnt) = op := by
  apply BitVec.eq_of_toNat_eq
  rw [opField_toNat, formatC_toNat]
  omega

@[simp] theorem chmField_formatC (op : BitVec 4) (chm : BitVec 2) (cnt : BitVec 16) :
    chmField (formatC op chm cnt) = chm := by
  apply BitVec.eq_of_toNat_eq
  rw [chmField_toNat, formatC_toNat]
  omega

@[simp] theorem rsvField_formatC (op : BitVec 4) (chm : BitVec 2) (cnt : BitVec 16) :
    rsvField (formatC op chm cnt) = 0#10 := by
  apply BitVec.eq_of_toNat_eq
  rw [rsvField_toNat, formatC_toNat, BitVec.toNat_ofNat]
  omega

@[simp] theorem cntField_formatC (op : BitVec 4) (chm : BitVec 2) (cnt : BitVec 16) :
    cntField (formatC op chm cnt) = cnt := by
  apply BitVec.eq_of_toNat_eq
  rw [cntField_toNat, formatC_toNat]
  omega

/-- A word whose reserved field is 0 is the format of its fields. -/
theorem formatC_fields (w : Word) (h : rsvField w = 0#10) :
    formatC (opField w) (chmField w) (cntField w) = w := by
  have hr : (rsvField w).toNat = 0 := by rw [h]; rfl
  apply BitVec.eq_of_toNat_eq
  rw [rsvField_toNat] at hr
  rw [formatC_toNat, opField_toNat, chmField_toNat, cntField_toNat]
  omega

theorem decodeWhole_ok {w : Word} {i j : Instr} (h : decodeWhole w i = .ok j) :
    j = i ∧ chmField w = 0#2 ∧ cntField w = 0#16 := by
  unfold decodeWhole at h
  split at h
  · rename_i hc
    cases h
    exact ⟨rfl, hc⟩
  · cases h

theorem decodeChannels_ok {w : Word} {mk : BitVec 2 → Instr} {j : Instr}
    (h : decodeChannels w mk = .ok j) : j = mk (chmField w) ∧ cntField w = 0#16 := by
  unfold decodeChannels at h
  split at h
  · rename_i hc
    cases h
    exact ⟨rfl, hc⟩
  · cases h

/-- All that decoding can answer: the fields of a word that decodes, command by command. -/
theorem decode_ok_cases {w : Word} {i : Instr} (h : decode w = .ok i) : rsvField w = 0#10 ∧
    ((i = .nop ∧ opField w = 0x0#4 ∧ chmField w = 0#2 ∧ cntField w = 0#16) ∨
     (i = .prepare ∧ opField w = 0x1#4 ∧ chmField w = 0#2 ∧ cntField w = 0#16) ∨
     (i = .update ∧ opField w = 0x2#4 ∧ chmField w = 0#2 ∧ cntField w = 0#16) ∨
     (i = .setc (chmField w) ∧ opField w = 0x3#4 ∧ cntField w = 0#16) ∨
     (i = .proc (chmField w) (cntField w).toNat ∧ opField w = 0x4#4) ∨
     (i = .hrst (chmField w) ∧ opField w = 0x5#4 ∧ cntField w = 0#16) ∨
     (i = .srst ∧ opField w = 0xF#4 ∧ chmField w = 0#2 ∧ cntField w = 0#16)) := by
  unfold decode at h
  split at h
  · cases h
  rename_i hop
  split at h
  · cases h
  rename_i hrsv
  refine ⟨by simpa using hrsv, ?_⟩
  split at h
  · rename_i h0
    obtain ⟨hi, hf⟩ := decodeWhole_ok h
    exact .inl ⟨hi, h0, hf⟩
  split at h
  · rename_i h0
    obtain ⟨hi, hf⟩ := decodeWhole_ok h
    exact .inr (.inl ⟨hi, h0, hf⟩)
  split at h
  · rename_i h0
    obtain ⟨hi, hf⟩ := decodeWhole_ok h
    exact .inr (.inr (.inl ⟨hi, h0, hf⟩))
  split at h
  · rename_i h0
    obtain ⟨hi, hf⟩ := decodeChannels_ok h
    exact .inr (.inr (.inr (.inl ⟨hi, h0, hf⟩)))
  split at h
  · rename_i h0
    cases h
    exact .inr (.inr (.inr (.inr (.inl ⟨rfl, h0⟩))))
  split at h
  · rename_i h0
    obtain ⟨hi, hf⟩ := decodeChannels_ok h
    exact .inr (.inr (.inr (.inr (.inr (.inl ⟨hi, h0, hf⟩)))))
  · rename_i h0 h1 h2 h3 h4 h5
    obtain ⟨hi, hf⟩ := decodeWhole_ok h
    refine .inr (.inr (.inr (.inr (.inr (.inr ⟨hi, ?_, hf⟩)))))
    have hlt := (opField w).isLt
    apply BitVec.eq_of_toNat_eq
    simp only [BitVec.le_def, ← BitVec.toNat_inj, BitVec.toNat_ofNat] at hop h0 h1 h2 h3 h4 h5 ⊢
    omega

/-! ## The masks of the opcode table as numbers -/

@[simp] theorem and_full_mask (w : Word) : w &&& 0xFFFFFFFF#32 = w := by
  apply BitVec.eq_of_toNat_eq
  rw [BitVec.toNat_and]
  exact Nat.and_two_pow_sub_one_of_lt_two_pow w.isLt

/-- The mask of SETC and HRST drops CHM. -/
theorem and_channel_mask_toNat (w : Word) :
    (w &&& 0xFFFFFFCF#32).toNat = w.toNat / 64 * 64 + w.toNat % 16 := by
  have h1 : w &&& 0xFFFFFFCF#32 = (w >>> 6) <<< 6 ||| (w &&& 0xF#32) := by
    ext i hi
    simp only [BitVec.getElem_and, BitVec.getElem_or, BitVec.getElem_shiftLeft]
    interval_cases i <;> simp [BitVec.getLsbD_eq_getElem]
  have h2 : (w &&& 0xF#32).toNat = w.toNat % 16 := by
    rw [BitVec.toNat_and]
    exact Nat.and_two_pow_sub_one_eq_mod _ 4
  have hw := w.isLt
  have h3 := Nat.shiftLeft_add_eq_or_of_lt (i := 6) (b := w.toNat % 16) (by omega) (w.toNat / 2 ^ 6)
  rw [h1, BitVec.toNat_or, h2, BitVec.toNat_shiftLeft, BitVec.toNat_ushiftRight,
    Nat.shiftRight_eq_div_pow, Nat.shiftLeft_eq, Nat.mod_eq_of_lt (by omega)]
  rw [Nat.shiftLeft_eq] at h3
  rw [← h3]
  omega

/-- The mask of PROC drops CHM and CNT. -/
theorem and_proc_mask_toNat (w : Word) :
    (w &&& 0x0000FFCF#32).toNat = w.toNat % 65536 / 64 * 64 + w.toNat % 16 := by
  have h : w &&& 0x0000FFCF#32 = (w &&& 0xFFFF#32) &&& 0xFFFFFFCF#32 := by
    ext i hi
    simp only [BitVec.getElem_and]
    interval_cases i <;> simp
  have h2 : (w &&& 0xFFFF#32).toNat = w.toNat % 65536 := by
    rw [BitVec.toNat_and]
    exact Nat.and_two_pow_sub_one_eq_mod _ 16
  rw [h, and_channel_mask_toNat, h2]
  omega

end Sys2Proof
end

