-- ==== Sys2Proof/Laws/PerInstr.lean ====
section
/-! SUPPORT. Statements made once for each command. -/

namespace Sys2Proof.Laws

/-- The encoding of a command is a word of the command's row of the opcode table
(30_encoding.md R80, R86). -/
def RowMatch.Statement (i : Instr) : Prop := rowSelects (rowOf i) (encode i) = true

theorem RowMatch.nop : RowMatch.Statement .nop := by
  simp [RowMatch.Statement, rowSelects, rowOf, encode, formatC]

theorem RowMatch.prepare : RowMatch.Statement .prepare := by
  simp [RowMatch.Statement, rowSelects, rowOf, encode, formatC]

theorem RowMatch.update : RowMatch.Statement .update := by
  simp [RowMatch.Statement, rowSelects, rowOf, encode, formatC]

theorem RowMatch.setc (chm : BitVec 2) : RowMatch.Statement (.setc chm) := by
  have h := chm.isLt
  rw [RowMatch.Statement, rowSelects, beq_iff_eq, rowOf, encode, ← BitVec.toNat_inj,
    and_channel_mask_toNat, formatC_toNat]
  simp only [BitVec.toNat_ofNat]
  omega

theorem RowMatch.proc (chm : BitVec 2) (cnt : Nat) : RowMatch.Statement (.proc chm cnt) := by
  have h := chm.isLt
  rw [RowMatch.Statement, rowSelects, beq_iff_eq, rowOf, encode, ← BitVec.toNat_inj,
    and_proc_mask_toNat, formatC_toNat]
  simp only [BitVec.toNat_ofNat]
  omega

theorem RowMatch.hrst (chm : BitVec 2) : RowMatch.Statement (.hrst chm) := by
  have h := chm.isLt
  rw [RowMatch.Statement, rowSelects, beq_iff_eq, rowOf, encode, ← BitVec.toNat_inj,
    and_channel_mask_toNat, formatC_toNat]
  simp only [BitVec.toNat_ofNat]
  omega

theorem RowMatch.srst : RowMatch.Statement .srst := by
  simp [RowMatch.Statement, rowSelects, rowOf, encode, formatC]

end Sys2Proof.Laws
end

