-- ==== Sys2Proof/Laws/Rounding.lean ====
section
/-! SUPPORT. Rounding over the real numbers: the value of a pattern's magnitude, counts of last places,
and when a count is correct rounding (00_scope.md R13, R14). -/

namespace Sys2Proof.Machine

/-- The magnitude of finite magnitude bits. -/
noncomputable def magValue (f : FloatFormat) (b : Nat) : ℝ :=
  if b < 2 ^ f.frac then (b : ℝ) * 2 ^ minExp f
  else ((b % 2 ^ f.frac + 2 ^ f.frac : Nat) : ℝ) * 2 ^ (minExp f + ((b / 2 ^ f.frac : Nat) - 1))

theorem two_zpow_pos (e : Int) : (0 : ℝ) < 2 ^ e := zpow_pos (by norm_num) e

theorem two_zpow_le {a b : Int} (h : a ≤ b) : (2 : ℝ) ^ a ≤ 2 ^ b := zpow_le_zpow_right₀ (by norm_num) h

theorem two_zpow_split (a b : Int) (h : b ≤ a) :
    (2 : ℝ) ^ a = ((2 ^ (a - b).toNat : Nat) : ℝ) * 2 ^ b := by
  rw [Nat.cast_pow, Nat.cast_ofNat, ← zpow_natCast, ← zpow_add₀ (by norm_num)]
  congr 1
  omega

theorem magValue_nonneg (f : FloatFormat) (b : Nat) : 0 ≤ magValue f b := by
  unfold magValue
  split <;> exact mul_nonneg (Nat.cast_nonneg _) (two_zpow_pos _).le

theorem realOfParts_eq (neg : Bool) (m : Nat) (e : Int) :
    realOfParts neg m e = (if neg then -1 else 1) * ((m : ℝ) * 2 ^ e) := by
  cases neg <;> simp [realOfParts, signedMag]

/-- The real value of a finite pattern, by its sign and magnitude bits. -/
theorem realOf_finite (f : FloatFormat) {w : Nat} (h : isFiniteBits f w) :
    realOf f w = (if signBit f w then -1 else 1) * magValue f (magBits f w) := by
  unfold isFiniteBits at h
  have hu : unpack f w = if magBits f w < 2 ^ f.frac then .fin (signBit f w) (magBits f w) (minExp f)
      else .fin (signBit f w) (magBits f w % 2 ^ f.frac + 2 ^ f.frac)
        (minExp f + ((magBits f w / 2 ^ f.frac : Nat) - 1)) := by
    unfold unpack
    simp only
    rw [if_neg (by omega), if_neg (by omega)]
  unfold realOf magValue
  by_cases hb : magBits f w < 2 ^ f.frac
  · rw [hu, if_pos hb, if_pos hb]
    exact realOfParts_eq _ _ _
  · rw [hu, if_neg hb, if_neg hb]
    exact realOfParts_eq _ _ _

theorem isFiniteBits_withSign (f : FloatFormat) (neg : Bool) {b : Nat} (h : b < infBits f) :
    isFiniteBits f (withSign f neg b) := by
  rw [isFiniteBits, magBits_withSign f neg h.le]
  exact h

theorem realOf_withSign (f : FloatFormat) (neg : Bool) {b : Nat} (h : b < infBits f) :
    realOf f (withSign f neg b) = (if neg then -1 else 1) * magValue f b := by
  rw [realOf_finite f (isFiniteBits_withSign f neg h), magBits_withSign f neg h.le,
    signBit_withSign f neg h.le]

/-- `k` exponent steps and a last-place count `d` give the magnitude `d · 2^(minExp + k)`; a count of
`2^(frac+1)` carries into the exponent. -/
theorem magValue_steps (f : FloatFormat) {k d : Nat} (hk : k = 0 ∨ 2 ^ f.frac ≤ d)
    (hd : d ≤ 2 ^ (f.frac + 1)) : magValue f (k * 2 ^ f.frac + d) = (d : ℝ) * 2 ^ (minExp f + k) := by
  have hp : 0 < 2 ^ f.frac := Nat.two_pow_pos _
  have h2 : 2 ^ (f.frac + 1) = 2 * 2 ^ f.frac := by rw [Nat.pow_succ]; omega
  unfold magValue
  generalize hP : 2 ^ f.frac = P at *
  rcases Nat.lt_or_ge d P with hlt | hge
  · obtain rfl : k = 0 := by omega
    rw [if_pos (by omega)]
    simp
  · rw [if_neg (by nlinarith)]
    rcases Nat.lt_or_ge d (2 * P) with hlt | hge2
    · obtain ⟨r, rfl⟩ : ∃ r, d = P + r := ⟨d - P, by omega⟩
      have e : k * P + (P + r) = r + P * (k + 1) := by ring
      rw [e, Nat.add_mul_mod_self_left, Nat.add_mul_div_left _ _ hp, Nat.mod_eq_of_lt (by omega),
        Nat.div_eq_of_lt (by omega)]
      have : r + P = P + r := by ring
      rw [this]
      congr 2
      push_cast
      ring
    · obtain rfl : d = 2 * P := by omega
      have e : k * P + 2 * P = P * (k + 2) := by ring
      rw [e, Nat.mul_mod_right, Nat.mul_div_cancel_left _ hp]
      have : minExp f + (((k + 2 : Nat) : Int) - 1) = minExp f + k + 1 := by push_cast; ring
      rw [this, zpow_add_one₀ (by norm_num)]
      push_cast
      ring

/-- Against a last place of exponent `q`, a magnitude is a whole number of last places, or it lies below
`2^frac` of them. -/
theorem magValue_grid (f : FloatFormat) (b : Nat) {q : Int} (hq : minExp f ≤ q) :
    (∃ n : Nat, magValue f b = (n : ℝ) * 2 ^ q) ∨
      (minExp f < q ∧ magValue f b < ((2 ^ f.frac : Nat) : ℝ) * 2 ^ q) := by
  have hp : 0 < 2 ^ f.frac := Nat.two_pow_pos _
  unfold magValue
  split
  · rename_i hb
    rcases hq.lt_or_eq with hlt | rfl
    · right
      refine ⟨hlt, ?_⟩
      calc (b : ℝ) * 2 ^ minExp f < ((2 ^ f.frac : Nat) : ℝ) * 2 ^ minExp f :=
            mul_lt_mul_of_pos_right (by exact_mod_cast hb) (two_zpow_pos _)
        _ ≤ _ := mul_le_mul_of_nonneg_left (two_zpow_le hlt.le) (Nat.cast_nonneg _)
    · exact .inl ⟨b, rfl⟩
  · rename_i hb
    set m := b % 2 ^ f.frac + 2 ^ f.frac
    set e := minExp f + (((b / 2 ^ f.frac : Nat) : Int) - 1) with he
    have h1 : 1 ≤ b / 2 ^ f.frac := (Nat.one_le_div_iff hp).2 (by omega)
    have hm : m < 2 * 2 ^ f.frac := by have := Nat.mod_lt b hp; omega
    rcases Int.lt_or_le e q with hlt | hge
    · right
      refine ⟨by omega, ?_⟩
      have h2 : (2 : ℝ) ^ q = ((2 ^ (q - e).toNat : Nat) : ℝ) * 2 ^ e := two_zpow_split q e hlt.le
      rw [h2, ← mul_assoc]
      refine mul_lt_mul_of_pos_right ?_ (two_zpow_pos e)
      have : 2 ≤ 2 ^ (q - e).toNat := by
        calc 2 = 2 ^ 1 := rfl
          _ ≤ _ := Nat.pow_le_pow_right (by norm_num) (by omega)
      have : m < 2 ^ f.frac * 2 ^ (q - e).toNat := by nlinarith
      exact_mod_cast this
    · left
      refine ⟨m * 2 ^ (e - q).toNat, ?_⟩
      rw [two_zpow_split e q hge]
      push_cast
      ring

/-- Nearest, ties to even, on whole numbers. -/
theorem shiftNearestEven_spec (m k : Nat) :
    |(shiftNearestEven m k : ℝ) - (m : ℝ) / ((2 ^ k : Nat) : ℝ)| ≤ 1 / 2 ∧
    (|(shiftNearestEven m k : ℝ) - (m : ℝ) / ((2 ^ k : Nat) : ℝ)| = 1 / 2 →
      shiftNearestEven m k % 2 = 0) := by
  have hp : 0 < 2 ^ k := Nat.two_pow_pos _
  unfold shiftNearestEven
  simp only
  generalize 2 ^ k = P at *
  have hm : m = P * (m / P) + m % P := (Nat.div_add_mod m P).symm
  have hr := Nat.mod_lt m hp
  generalize m / P = q at *
  generalize m % P = r at *
  have hP : (0 : ℝ) < P := by exact_mod_cast hp
  have e : (m : ℝ) / P = q + (r : ℝ) / P := by
    rw [hm]; push_cast; field_simp
  rw [e]
  split
  · rename_i hc
    have hge : (P : ℝ) ≤ 2 * r := by exact_mod_cast (by omega : P ≤ 2 * r)
    have hlt : (r : ℝ) < P := by exact_mod_cast hr
    have h1 : (1 : ℝ) / 2 ≤ r / P := by rw [div_le_div_iff₀ (by norm_num) hP]; linarith
    have h2 : (r : ℝ) / P < 1 := by rw [div_lt_one hP]; exact hlt
    push_cast
    have ha : |((q : ℝ) + 1) - (q + r / P)| = 1 - r / P := by
      rw [abs_of_pos (by linarith)]; ring
    rw [ha]
    refine ⟨by linarith, fun ht => ?_⟩
    have hh : (r : ℝ) / P = 1 / 2 := by linarith
    rw [div_eq_div_iff hP.ne' (by norm_num)] at hh
    have : r * 2 = 1 * P := by exact_mod_cast hh
    omega
  · rename_i hc
    have hle : 2 * (r : ℝ) ≤ P := by exact_mod_cast (by omega : 2 * r ≤ P)
    have h0 : (0 : ℝ) ≤ (r : ℝ) / P := by positivity
    have h1 : (r : ℝ) / P ≤ 1 / 2 := by rw [div_le_div_iff₀ hP (by norm_num)]; linarith
    have ha : |(q : ℝ) - (q + r / P)| = r / P := by
      rw [show (q : ℝ) - (q + r / P) = -(r / P) by ring, abs_neg, abs_of_nonneg h0]
    rw [ha]
    refine ⟨h1, fun ht => ?_⟩
    rw [div_eq_div_iff hP.ne' (by norm_num)] at ht
    have : r * 2 = 1 * P := by exact_mod_cast ht
    omega

/-- A whole number within one half of `y` is a nearest one; where another is as near, it is a tie. -/
theorem nearest_whole {d n : Nat} {y : ℝ} (h : |(d : ℝ) - y| ≤ 1 / 2) :
    |(d : ℝ) - y| ≤ |(n : ℝ) - y| ∧ (|(d : ℝ) - y| = |(n : ℝ) - y| → n ≠ d → |(d : ℝ) - y| = 1 / 2) := by
  by_cases hn : n = d
  · subst hn
    exact ⟨le_refl _, fun _ h => absurd rfl h⟩
  · have h1 : (1 : ℝ) ≤ |(n : ℝ) - d| := by
      have : (1 : Int) ≤ |(n : Int) - d| := Int.one_le_abs (by omega)
      exact_mod_cast this
    have h2 : |(n : ℝ) - d| ≤ |(n : ℝ) - y| + |(d : ℝ) - y| := by
      have := abs_sub_le (n : ℝ) y d
      rwa [abs_sub_comm y] at this
    exact ⟨by linarith, fun he _ => by linarith⟩

theorem withSign_even (f : FloatFormat) (neg : Bool) (k : Nat) {d : Nat} (hp : 1 ≤ f.frac)
    (hd : d % 2 = 0) : withSign f neg (k * 2 ^ f.frac + d) % 2 = 0 := by
  obtain ⟨p, hp⟩ : ∃ p, f.frac = p + 1 := ⟨f.frac - 1, by omega⟩
  have h1 : 2 ^ f.frac = 2 * 2 ^ p := by rw [hp, Nat.pow_succ]; omega
  have h2 : signWeight f = 2 * 2 ^ (p + f.expo) := by
    rw [signWeight, hp, show p + 1 + f.expo = p + f.expo + 1 by omega, Nat.pow_succ]; omega
  have h3 : k * 2 ^ f.frac = 2 * (k * 2 ^ p) := by rw [h1]; ring
  unfold withSign
  rw [h2, h3]
  split <;> omega

/-- A count `d` of last places within one half of the exact value, even on a tie, is correct rounding:
no finite pattern is nearer, and where another number is as near the last bit is 0. -/
theorem nearest_pattern (f : FloatFormat) (neg : Bool) {k d : Nat} {y : ℝ} (hp : 1 ≤ f.frac)
    (hk : k = 0 ∨ 2 ^ f.frac ≤ d) (hd : d ≤ 2 ^ (f.frac + 1)) (hy : 0 ≤ y)
    (hky : k = 0 ∨ ((2 ^ f.frac : Nat) : ℝ) ≤ y) (hn : |(d : ℝ) - y| ≤ 1 / 2)
    (ht : |(d : ℝ) - y| = 1 / 2 → d % 2 = 0) (hb : k * 2 ^ f.frac + d < infBits f) :
    isFiniteBits f (withSign f neg (k * 2 ^ f.frac + d)) ∧ ∀ w, isFiniteBits f w →
      |realOf f (withSign f neg (k * 2 ^ f.frac + d)) -
          (if neg then -1 else 1) * (y * 2 ^ (minExp f + k))| ≤
        |realOf f w - (if neg then -1 else 1) * (y * 2 ^ (minExp f + k))| ∧
      (|realOf f (withSign f neg (k * 2 ^ f.frac + d)) -
          (if neg then -1 else 1) * (y * 2 ^ (minExp f + k))| =
        |realOf f w - (if neg then -1 else 1) * (y * 2 ^ (minExp f + k))| →
        realOf f w ≠ realOf f (withSign f neg (k * 2 ^ f.frac + d)) →
        withSign f neg (k * 2 ^ f.frac + d) % 2 = 0) := by
  refine ⟨isFiniteBits_withSign f neg hb, fun w hw => ?_⟩
  rw [realOf_withSign f neg hb, magValue_steps f hk hd]
  have hQ : (0 : ℝ) < 2 ^ (minExp f + k) := two_zpow_pos _
  set Q : ℝ := 2 ^ (minExp f + k) with hQe
  have hs : ∀ a b : ℝ, |(if neg then -1 else 1) * a - (if neg then -1 else 1) * b| = |a - b| := by
    intro a b
    cases neg
    · simp
    · simp only [if_true]; rw [← abs_neg]; congr 1; ring
  have hss : (if neg then (-1 : ℝ) else 1) * (if neg then -1 else 1) = 1 := by cases neg <;> simp
  obtain ⟨u, hu⟩ : ∃ u, realOf f w = (if neg then -1 else 1) * u :=
    ⟨(if neg then -1 else 1) * realOf f w, by rw [← mul_assoc, hss, one_mul]⟩
  have hucase : u = magValue f (magBits f w) ∨ u = - magValue f (magBits f w) := by
    have h := realOf_finite f hw
    rw [hu] at h
    generalize signBit f w = sb at h
    cases neg <;> cases sb <;> simp at h <;> first | (left; linarith) | (right; linarith)
  rw [hu, hs, hs]
  have hl : |(d : ℝ) * Q - y * Q| = |(d : ℝ) - y| * Q := by
    rw [← sub_mul, abs_mul, abs_of_pos hQ]
  rw [hl]
  have key : ∀ n : Nat, u = n * Q → |(d : ℝ) - y| * Q ≤ |u - y * Q| ∧
      (|(d : ℝ) - y| * Q = |u - y * Q| → u ≠ d * Q → d % 2 = 0) := by
    rintro n rfl
    have hr : |(n : ℝ) * Q - y * Q| = |(n : ℝ) - y| * Q := by
      rw [← sub_mul, abs_mul, abs_of_pos hQ]
    rw [hr]
    have N := nearest_whole (n := n) hn
    refine ⟨mul_le_mul_of_nonneg_right N.1 hQ.le, fun he hne => ?_⟩
    refine ht (N.2 (mul_right_cancel₀ hQ.ne' he) ?_)
    rintro rfl
    exact hne rfl
  have fin : (|(d : ℝ) - y| * Q ≤ |u - y * Q| ∧
      (|(d : ℝ) - y| * Q = |u - y * Q| → u ≠ d * Q → d % 2 = 0)) := by
    rcases hucase with hc | hc
    · rcases magValue_grid f (magBits f w) (q := minExp f + k) (by omega) with ⟨n, hn'⟩ | ⟨hlt, hsm⟩
      · exact key n (by rw [hc, hn'])
      · have hy' : ((2 ^ f.frac : Nat) : ℝ) ≤ y := by
          rcases hky with h | h
          · omega
          · exact h
        have N := (nearest_whole (n := 2 ^ f.frac) hn).1
        rw [abs_of_nonpos (a := ((2 ^ f.frac : Nat) : ℝ) - y) (by linarith)] at N
        rw [← hc] at hsm
        have : |u - y * Q| = y * Q - u := by
          rw [abs_of_nonpos]
          · ring
          · nlinarith
        have hstrict : |(d : ℝ) - y| * Q < |u - y * Q| := by
          rw [this]; nlinarith
        exact ⟨hstrict.le, fun he => absurd he hstrict.ne⟩
    · have h0 := magValue_nonneg f (magBits f w)
      have K := nearest_whole (n := 0) hn
      rcases h0.lt_or_eq with hpos | hz
      · have hyQ : 0 ≤ y * Q := mul_nonneg hy hQ.le
        have : |u - y * Q| = y * Q + magValue f (magBits f w) := by
          rw [hc, abs_of_nonpos (by linarith)]; ring
        have K1 := K.1
        rw [Nat.cast_zero, zero_sub, abs_neg, abs_of_nonneg hy] at K1
        have hstrict : |(d : ℝ) - y| * Q < |u - y * Q| := by rw [this]; nlinarith
        exact ⟨hstrict.le, fun he => absurd he hstrict.ne⟩
      · exact key 0 (by rw [hc, ← hz]; simp)
  refine ⟨fin.1, fun he hne => withSign_even f neg k hp (fin.2 he ?_)⟩
  rintro rfl
  exact hne rfl

/-- What a rounding to `k` exponent steps and `d` last places must meet to be correct, where the exact
magnitude is `y` last places. -/
structure RoundedCount (f : FloatFormat) (k d : Nat) (y : ℝ) : Prop where
  pos : 0 < y
  below : y < ((2 ^ (f.frac + 1) : Nat) : ℝ)
  normal : k = 0 ∨ ((2 ^ f.frac : Nat) : ℝ) ≤ y
  near : |(d : ℝ) - y| ≤ 1 / 2
  tie : |(d : ℝ) - y| = 1 / 2 → d % 2 = 0

theorem RoundedCount.le {f : FloatFormat} {k d : Nat} {y : ℝ} (h : RoundedCount f k d y) :
    d ≤ 2 ^ (f.frac + 1) := by
  have := (abs_le.1 h.near).2
  have h2 := h.below
  have : (d : ℝ) < ((2 ^ (f.frac + 1) : Nat) : ℝ) + 1 := by linarith
  exact Nat.lt_succ_iff.1 (by exact_mod_cast this)

theorem RoundedCount.ge {f : FloatFormat} {k d : Nat} {y : ℝ} (h : RoundedCount f k d y) :
    k = 0 ∨ 2 ^ f.frac ≤ d := by
  rcases h.normal with h0 | h1
  · exact .inl h0
  · right
    have := (abs_le.1 h.near).1
    have : ((2 ^ f.frac : Nat) : ℝ) < (d : ℝ) + 1 := by linarith
    exact Nat.lt_succ_iff.1 (by exact_mod_cast this)

/-- Rounding overflows exactly from the overflow bound on. -/
theorem overflow_iff (f : FloatFormat) (he : 2 ≤ f.expo) {k d : Nat} {y : ℝ} (h : RoundedCount f k d y) :
    overflowBound f ≤ y * 2 ^ (minExp f + k) ↔ infBits f ≤ k * 2 ^ f.frac + d := by
  have hle := h.le
  have hge := h.ge
  obtain ⟨K, hK⟩ : ∃ K, 2 ^ f.expo = K + 3 := by
    have : 2 ^ 2 ≤ 2 ^ f.expo := Nat.pow_le_pow_right (by norm_num) he
    exact ⟨2 ^ f.expo - 3, by omega⟩
  have hP : 0 < 2 ^ f.frac := Nat.two_pow_pos _
  have h1 : 2 ^ (f.frac + 1) = 2 * 2 ^ f.frac := by rw [Nat.pow_succ]; omega
  have h2 : 2 ^ (f.frac + 2) = 4 * 2 ^ f.frac := by rw [Nat.pow_add]; omega
  have hob : overflowBound f = (2 * ((2 ^ f.frac : Nat) : ℝ) - 1 / 2) * 2 ^ (minExp f + K) := by
    have hKz : (2 : Int) ^ f.expo = K + 3 := by exact_mod_cast hK
    unfold overflowBound
    rw [realOfParts_eq, hKz, show minExp f + ((K : Int) + 3) - 4 = minExp f + K - 1 by ring,
      zpow_sub_one₀ (by norm_num), h2]
    rw [Nat.cast_sub (by omega)]
    push_cast

    ring
  have hinf : infBits f = (K + 2) * 2 ^ f.frac := by
    rw [infBits, hK]
    rfl
  have hbelow := h.below
  have hnormal := h.normal
  have hnear := abs_le.1 h.near
  have htie := h.tie
  rw [h1] at hbelow hle
  rw [hob, hinf]
  generalize 2 ^ f.frac = P at *
  have hP' : (1 : ℝ) ≤ P := by exact_mod_cast hP
  have hKp : (0 : ℝ) < 2 ^ (minExp f + K) := two_zpow_pos _
  push_cast at hbelow
  rcases Nat.lt_trichotomy k K with hlt | rfl | hgt
  · have hn : ¬ (K + 2) * P ≤ k * P + d := by
      have : (k + 1) * P ≤ K * P := Nat.mul_le_mul_right _ hlt
      nlinarith
    refine iff_of_false (not_le.2 ?_) hn
    have h3 : (2 : ℝ) ^ (minExp f + k) * 2 ≤ 2 ^ (minExp f + K) := by
      rw [← zpow_add_one₀ (by norm_num)]
      exact two_zpow_le (by omega)
    have hkp : (0 : ℝ) < 2 ^ (minExp f + k) := two_zpow_pos _
    calc y * 2 ^ (minExp f + k) < 2 * P * 2 ^ (minExp f + k) := mul_lt_mul_of_pos_right hbelow hkp
      _ = P * (2 ^ (minExp f + k) * 2) := by ring
      _ ≤ P * 2 ^ (minExp f + K) := mul_le_mul_of_nonneg_left h3 (by positivity)
      _ ≤ _ := mul_le_mul_of_nonneg_right (by linarith) hKp.le
  · rw [mul_le_mul_iff_left₀ hKp]
    have : (k + 2) * P ≤ k * P + d ↔ 2 * P ≤ d := by constructor <;> intro <;> nlinarith
    rw [this]
    constructor
    · intro hy
      by_contra hd
      have hd' : d ≤ 2 * P - 1 := by omega
      have hd2 : (d : ℝ) ≤ 2 * P - 1 := by
        have : (d : ℝ) + 1 ≤ 2 * P := by exact_mod_cast (by omega : d + 1 ≤ 2 * P)
        linarith
      have e1 : (d : ℝ) = 2 * P - 1 := by linarith [hnear.1]
      have e2 : |(d : ℝ) - y| = 1 / 2 := by
        rw [abs_of_nonpos (by linarith)]; linarith [hnear.1]
      have := htie e2
      have e3 : d + 1 = 2 * P := by
        have : (d : ℝ) + 1 = 2 * P := by linarith
        exact_mod_cast this
      omega
    · intro hd
      have : (2 : ℝ) * P ≤ d := by exact_mod_cast hd
      linarith [hnear.2]
  · have hk0 : k ≠ 0 := by omega
    have hd : P ≤ d := by rcases hge with h | h; exact absurd h hk0; exact h
    have hy : (P : ℝ) ≤ y := by rcases hnormal with h | h; exact absurd h hk0; exact h
    refine iff_of_true ?_ (by nlinarith)
    have h3 : (2 : ℝ) ^ (minExp f + K) * 2 ≤ 2 ^ (minExp f + k) := by
      rw [← zpow_add_one₀ (by norm_num)]
      exact two_zpow_le (by omega)
    calc (2 * (P : ℝ) - 1 / 2) * 2 ^ (minExp f + K) ≤ P * (2 ^ (minExp f + K) * 2) := by nlinarith
      _ ≤ P * 2 ^ (minExp f + k) := mul_le_mul_of_nonneg_left h3 (by positivity)
      _ ≤ y * 2 ^ (minExp f + k) := mul_le_mul_of_nonneg_right hy (two_zpow_pos _).le

/-- A rounded count is correct rounding. -/
theorem isRounded_of_count (f : FloatFormat) (hp : 1 ≤ f.frac) (he : 2 ≤ f.expo) (neg : Bool)
    {k d : Nat} {y : ℝ} (h : RoundedCount f k d y) :
    IsRounded f ((if neg then -1 else 1) * (y * 2 ^ (minExp f + k)))
      (withSign f neg (min (k * 2 ^ f.frac + d) (infBits f))) := by
  have hx : 0 < y * 2 ^ (minExp f + k) := mul_pos h.pos (two_zpow_pos _)
  have habs : |(if neg then -1 else 1) * (y * 2 ^ (minExp f + k))| = y * 2 ^ (minExp f + k) := by
    cases neg <;> simp only [Bool.false_eq_true, if_false, if_true, one_mul, neg_mul, abs_neg, abs_of_pos hx]
  unfold IsRounded
  rw [habs]
  by_cases hb : infBits f ≤ k * 2 ^ f.frac + d
  · rw [if_pos ((overflow_iff f he h).2 hb), Nat.min_eq_right hb]
    congr 1
    cases neg
    · simp; exact hx.le
    · simp; exact hx
  · rw [if_neg (fun hh => hb ((overflow_iff f he h).1 hh)), Nat.min_eq_left (by omega)]
    exact nearest_pattern f neg hp h.ge h.le h.pos.le h.normal h.near h.tie (by omega)

theorem log2_bounds {m : Nat} (h : m ≠ 0) : 2 ^ Nat.log2 m ≤ m ∧ m < 2 ^ (Nat.log2 m + 1) :=
  ⟨Nat.log2_self_le h, Nat.lt_log2_self⟩

/-- The exponent of the last place to which a magnitude is rounded. -/
def lastPlace (f : FloatFormat) (m : Nat) (e : Int) : Int :=
  max (e + (Nat.log2 m : Int) - f.frac) (minExp f)

/-- The number of last places to which a magnitude is rounded. -/
def lastCount (f : FloatFormat) (m : Nat) (e : Int) : Nat :=
  shiftNearestEven (m * 2 ^ (e - lastPlace f m e).toNat) (lastPlace f m e - e).toNat

theorem roundBits_eq (f : FloatFormat) {m : Nat} (e : Int) (hm : m ≠ 0) : roundBits f m e =
    min ((lastPlace f m e - minExp f).toNat * 2 ^ f.frac + lastCount f m e) (infBits f) := by
  simp [roundBits, hm, lastPlace, lastCount]

theorem lastPlace_eq (f : FloatFormat) (m : Nat) (e : Int) :
    minExp f + ((lastPlace f m e - minExp f).toNat : Int) = lastPlace f m e := by
  have : minExp f ≤ lastPlace f m e := le_max_right _ _
  omega

/-- A magnitude in last places lies in the range of the significand. -/
theorem lastPlace_range (f : FloatFormat) {m : Nat} (e : Int) (hm : m ≠ 0) :
    (m : ℝ) * 2 ^ (e - lastPlace f m e) < ((2 ^ (f.frac + 1) : Nat) : ℝ) ∧
    ((lastPlace f m e - minExp f).toNat = 0 ∨
      ((2 ^ f.frac : Nat) : ℝ) ≤ (m : ℝ) * 2 ^ (e - lastPlace f m e)) := by
  obtain ⟨h1, h2⟩ := log2_bounds hm
  have hq : e + (Nat.log2 m : Int) - f.frac ≤ lastPlace f m e := le_max_left _ _
  have hcast : ∀ n : Nat, ((2 ^ n : Nat) : ℝ) = (2 : ℝ) ^ (n : Int) := by intro n; simp
  constructor
  · have hlt : (m : ℝ) < 2 ^ ((Nat.log2 m + 1 : Nat) : Int) := by
      rw [← hcast]; exact_mod_cast h2
    calc (m : ℝ) * 2 ^ (e - lastPlace f m e)
        < 2 ^ ((Nat.log2 m + 1 : Nat) : Int) * 2 ^ (e - lastPlace f m e) :=
          mul_lt_mul_of_pos_right hlt (two_zpow_pos _)
      _ = 2 ^ (((Nat.log2 m + 1 : Nat) : Int) + (e - lastPlace f m e)) := by
          rw [← zpow_add₀ (by norm_num)]
      _ ≤ 2 ^ ((f.frac + 1 : Nat) : Int) := two_zpow_le (by push_cast; omega)
      _ = _ := (hcast _).symm
  · rcases le_total (e + (Nat.log2 m : Int) - f.frac) (minExp f) with h | h
    · left
      rw [lastPlace, max_eq_right h]; simp
    · right
      have he : lastPlace f m e = e + (Nat.log2 m : Int) - f.frac := max_eq_left h
      have hge : (2 : ℝ) ^ ((Nat.log2 m : Nat) : Int) ≤ m := by
        rw [← hcast]; exact_mod_cast h1
      calc ((2 ^ f.frac : Nat) : ℝ) = 2 ^ ((f.frac : Nat) : Int) := hcast _
        _ = 2 ^ ((Nat.log2 m : Nat) : Int) * 2 ^ (e - lastPlace f m e) := by
            rw [← zpow_add₀ (by norm_num), he]; congr 1; ring
        _ ≤ _ := mul_le_mul_of_nonneg_right hge (two_zpow_pos _).le

/-- The count is the magnitude in last places, rounded to nearest, ties to even. -/
theorem lastCount_near (f : FloatFormat) (m : Nat) (e : Int) :
    |(lastCount f m e : ℝ) - (m : ℝ) * 2 ^ (e - lastPlace f m e)| ≤ 1 / 2 ∧
    (|(lastCount f m e : ℝ) - (m : ℝ) * 2 ^ (e - lastPlace f m e)| = 1 / 2 →
      lastCount f m e % 2 = 0) := by
  have h := shiftNearestEven_spec (m * 2 ^ (e - lastPlace f m e).toNat) (lastPlace f m e - e).toNat
  have hy : ((m * 2 ^ (e - lastPlace f m e).toNat : Nat) : ℝ) /
      ((2 ^ (lastPlace f m e - e).toNat : Nat) : ℝ) = (m : ℝ) * 2 ^ (e - lastPlace f m e) := by
    have hc : e - lastPlace f m e =
        ((e - lastPlace f m e).toNat : Int) - ((lastPlace f m e - e).toNat : Int) := by omega
    conv_rhs => rw [hc]
    rw [zpow_sub₀ (by norm_num)]
    push_cast
    rw [zpow_natCast, zpow_natCast, mul_div_assoc]
  rw [hy] at h
  exact h

theorem lastCount_rounded (f : FloatFormat) {m : Nat} (e : Int) (hm : m ≠ 0) :
    RoundedCount f (lastPlace f m e - minExp f).toNat (lastCount f m e)
      ((m : ℝ) * 2 ^ (e - lastPlace f m e)) where
  pos := mul_pos (by exact_mod_cast Nat.pos_of_ne_zero hm) (two_zpow_pos _)
  below := (lastPlace_range f e hm).1
  normal := (lastPlace_range f e hm).2
  near := (lastCount_near f m e).1
  tie := (lastCount_near f m e).2

/-- A magnitude known only to lie strictly between two even multiples of a power of two is rounded by
its odd multiple, if that is long enough: it lies on the same side of every number at which the result
changes. -/
theorem lastCount_sticky (f : FloatFormat) {Q : Nat} {g : Int} {x : ℝ} (hQ : 2 ^ (f.frac + 1) ≤ Q)
    (hlo : (Q : ℝ) * 2 ^ (g + 1) < x) (hhi : x < ((Q : ℝ) + 1) * 2 ^ (g + 1)) :
    RoundedCount f (lastPlace f (2 * Q + 1) g - minExp f).toNat (lastCount f (2 * Q + 1) g)
      (x * 2 ^ (-lastPlace f (2 * Q + 1) g)) := by
  have hM : (2 * Q + 1) ≠ 0 := by omega
  have R := lastCount_rounded f g hM
  have hlog : f.frac + 2 ≤ Nat.log2 (2 * Q + 1) := by
    rw [Nat.le_log2 hM, Nat.pow_succ]; omega
  have hq : g + 2 ≤ lastPlace f (2 * Q + 1) g := by
    have : g + (Nat.log2 (2 * Q + 1) : Int) - f.frac ≤ lastPlace f (2 * Q + 1) g := le_max_left _ _
    omega
  generalize lastPlace f (2 * Q + 1) g = q at *
  generalize lastCount f (2 * Q + 1) g = d at *
  obtain ⟨j, hj⟩ : ∃ j : Nat, q = g + 2 + j := ⟨(q - g - 2).toNat, by omega⟩
  have hg : (0 : ℝ) < 2 ^ (g + 1) := two_zpow_pos _
  have hJ : (2 : ℝ) ^ (-q) = (1 / (2 * ((2 ^ j : Nat) : ℝ))) * (1 / 2 ^ (g + 1)) := by
    rw [hj, show -(g + 2 + (j : Int)) = -(j : Int) + (-1) + -(g + 1) by ring, zpow_add₀ (by norm_num),
      zpow_add₀ (by norm_num), zpow_neg, zpow_neg, zpow_natCast]
    push_cast
    rw [zpow_neg]
    field_simp
  have hJ2 : (2 : ℝ) ^ (g - q) = 1 / (4 * ((2 ^ j : Nat) : ℝ)) := by
    rw [hj, show g - (g + 2 + (j : Int)) = -(j : Int) + (-2) by ring, zpow_add₀ (by norm_num), zpow_neg, zpow_natCast]
    push_cast
    norm_num
  -- in units of 2^(g+1)
  set u : ℝ := x / 2 ^ (g + 1) with hu
  have hu1 : (Q : ℝ) < u := by rw [hu, lt_div_iff₀ hg]; exact hlo
  have hu2 : u < (Q : ℝ) + 1 := by rw [hu, div_lt_iff₀ hg]; exact hhi
  have hJp : 0 < 2 ^ j := Nat.two_pow_pos j
  have hx : x * 2 ^ (-q) = u / (2 * ((2 ^ j : Nat) : ℝ)) := by rw [hJ, hu]; field_simp
  obtain ⟨r1, r2, r3, r4, r5⟩ := R
  have hm : (((2 * Q + 1 : Nat) : ℝ)) * 2 ^ (g - q) = ((Q : ℝ) + 1 / 2) / (2 * ((2 ^ j : Nat) : ℝ)) := by
    rw [hJ2]; push_cast; field_simp; ring
  rw [hm] at r1 r2 r3 r4 r5
  rw [hx]
  have hT : (0 : ℝ) < 2 * ((2 ^ j : Nat) : ℝ) := by positivity
  generalize 2 ^ j = J at *
  have same_le : ∀ n : Nat, (n : ℝ) ≤ (Q : ℝ) + 1 / 2 → (n : ℝ) ≤ Q := by
    intro n h
    have : (n : ℝ) < ((Q + 1 : Nat) : ℝ) := by push_cast; linarith
    have : n ≤ Q := Nat.lt_succ_iff.1 (by exact_mod_cast this)
    exact_mod_cast this
  have same_ge : ∀ n : Nat, (Q : ℝ) + 1 / 2 ≤ n → (Q : ℝ) + 1 ≤ n := by
    intro n h
    have : ((Q : Nat) : ℝ) < (n : ℝ) := by linarith
    have : Q + 1 ≤ n := by exact_mod_cast this
    exact_mod_cast this
  have r4' := abs_le.1 r4
  have hA : (Q : ℝ) + 1 ≤ ((2 * d + 1) * J : Nat) := by
    apply same_ge
    have := r4'.1
    have : ((Q : ℝ) + 1 / 2) / (2 * J) ≤ d + 1 / 2 := by linarith
    rw [div_le_iff₀ hT] at this
    push_cast; linarith
  have hB : ((2 * d * J : Nat) : ℝ) ≤ (Q + J : Nat) := by
    have := r4'.2
    have : (d : ℝ) - 1 / 2 ≤ ((Q : ℝ) + 1 / 2) / (2 * J) := by linarith
    rw [le_div_iff₀ hT] at this
    have h : (2 * d * J : ℝ) < ((Q + J + 1 : Nat) : ℝ) := by push_cast; linarith
    have : 2 * d * J < Q + J + 1 := by exact_mod_cast h
    exact_mod_cast Nat.lt_succ_iff.1 this
  have hstrict : |(d : ℝ) - u / (2 * J)| < 1 / 2 := by
    rw [abs_lt]
    push_cast at hA hB
    constructor
    · have : u / (2 * J) < d + 1 / 2 := by rw [div_lt_iff₀ hT]; linarith
      linarith
    · have : (d : ℝ) - 1 / 2 < u / (2 * J) := by rw [lt_div_iff₀ hT]; linarith
      linarith
  refine ⟨?_, ?_, ?_, hstrict.le, fun h => absurd h hstrict.ne⟩
  · have : (0 : ℝ) ≤ Q := Nat.cast_nonneg _
    exact div_pos (by linarith) hT
  · rw [div_lt_iff₀ hT] at r2 ⊢
    have h : (Q : ℝ) + 1 ≤ ((2 ^ (f.frac + 1) * (2 * J) : Nat) : ℝ) := by
      apply same_ge
      push_cast at r2 ⊢; linarith
    push_cast at h ⊢; linarith
  · rcases r3 with r3 | r3
    · exact .inl r3
    · right
      rw [le_div_iff₀ hT] at r3 ⊢
      have h : ((2 ^ f.frac * (2 * J) : Nat) : ℝ) ≤ Q := by
        apply same_le
        push_cast at r3 ⊢; linarith
      push_cast at h ⊢; linarith

/-- The bits of a square root, from the top: what is found so far is never too large and, with what is
still to find, large enough. -/
theorem sqrtBits_spec (m b r : Nat) (h1 : r * r ≤ m) (h2 : m < (r + 2 ^ b) * (r + 2 ^ b)) :
    sqrtBits m b r * sqrtBits m b r ≤ m ∧ m < (sqrtBits m b r + 1) * (sqrtBits m b r + 1) := by
  induction b generalizing r with
  | zero => exact ⟨h1, by simpa [sqrtBits] using h2⟩
  | succ b ih =>
    simp only [sqrtBits]
    have e : 2 ^ (b + 1) = 2 ^ b + 2 ^ b := by rw [Nat.pow_succ]; omega
    rw [e] at h2
    split
    · rename_i h
      exact ih _ h (by rwa [Nat.add_assoc])
    · rename_i h
      exact ih _ h1 (by omega)

/-- The whole square root. -/
theorem natSqrt_spec (m : Nat) :
    natSqrt m * natSqrt m ≤ m ∧ m < (natSqrt m + 1) * (natSqrt m + 1) := by
  unfold natSqrt
  apply sqrtBits_spec
  · simp
  · rw [Nat.zero_add, ← Nat.pow_add]
    exact lt_of_lt_of_le Nat.lt_log2_self (Nat.pow_le_pow_right (by norm_num) (by omega))

/-- The patterns of magnitudes are ordered as the magnitudes are. -/
theorem magValue_lt (f : FloatFormat) {a b : Nat} (h : a < b): magValue f a < magValue f b := by
  have hP : 0 < 2 ^ f.frac := Nat.two_pow_pos _
  unfold magValue
  by_cases hb : b < 2 ^ f.frac
  · rw [if_pos (by omega), if_pos hb]
    exact mul_lt_mul_of_pos_right (by exact_mod_cast h) (two_zpow_pos _)
  · rw [if_neg hb]
    have h1 : 1 ≤ b / 2 ^ f.frac := (Nat.one_le_div_iff hP).2 (by omega)
    by_cases ha : a < 2 ^ f.frac
    · rw [if_pos ha]
      calc (a : ℝ) * 2 ^ minExp f < ((b % 2 ^ f.frac + 2 ^ f.frac : Nat) : ℝ) * 2 ^ minExp f :=
            mul_lt_mul_of_pos_right (by exact_mod_cast (by omega)) (two_zpow_pos _)
        _ ≤ _ := mul_le_mul_of_nonneg_left (two_zpow_le (by omega)) (Nat.cast_nonneg _)
    · rw [if_neg ha]
      have hle : a / 2 ^ f.frac ≤ b / 2 ^ f.frac := Nat.div_le_div_right h.le
      have ea := Nat.div_add_mod a (2 ^ f.frac)
      have eb := Nat.div_add_mod b (2 ^ f.frac)
      have la := Nat.mod_lt a hP
      generalize a / 2 ^ f.frac = qa at *
      generalize b / 2 ^ f.frac = qb at *
      generalize a % 2 ^ f.frac = ra at *
      generalize b % 2 ^ f.frac = rb at *
      generalize 2 ^ f.frac = P at *
      rcases hle.lt_or_eq with hlt | rfl
      · have : (2:ℝ) ^ (minExp f + ((qa : Int) - 1)) * 2 ≤ 2 ^ (minExp f + ((qb : Int) - 1)) := by
          rw [← zpow_add_one₀ (by norm_num)]; exact two_zpow_le (by omega)
        have hpos := two_zpow_pos (minExp f + ((qa : Int) - 1))
        have l1 : ((ra + P : Nat) : ℝ) < 2 * P := by exact_mod_cast (by omega)
        have l2 : (P : ℝ) ≤ ((rb + P : Nat) : ℝ) := by exact_mod_cast (by omega)
        calc _ < (2 * P : ℝ) * 2 ^ (minExp f + ((qa : Int) - 1)) := mul_lt_mul_of_pos_right l1 hpos
          _ = P * (2 ^ (minExp f + ((qa : Int) - 1)) * 2) := by ring
          _ ≤ P * 2 ^ (minExp f + ((qb : Int) - 1)) := mul_le_mul_of_nonneg_left this (Nat.cast_nonneg _)
          _ ≤ _ := mul_le_mul_of_nonneg_right l2 (two_zpow_pos _).le
      · refine mul_lt_mul_of_pos_right (by exact_mod_cast (by omega)) (two_zpow_pos _)

/-- A rounded number that does not overflow is finite, and no finite pattern is nearer. -/
theorem IsRounded.finite {f : FloatFormat} {x : ℝ} {r : Nat} (h : IsRounded f x r) (hx : |x| < overflowBound f) :
    isFiniteBits f r ∧ ∀ w, isFiniteBits f w → |realOf f r - x| ≤ |realOf f w - x| := by
  rw [IsRounded, if_neg (not_le.2 hx)] at h
  exact ⟨h.1, fun w hw => (h.2 w hw).1⟩

/-- Rounding does not pass a finite pattern from below. -/
theorem IsRounded.le {f : FloatFormat} {x : ℝ} {r w : Nat} (h : IsRounded f x r) (hx : |x| < overflowBound f)
    (hw : isFiniteBits f w) (hle : x ≤ realOf f w) : realOf f r ≤ realOf f w := by
  by_contra hc
  have hc := not_le.1 hc
  have := (h.finite hx).2 w hw
  rw [abs_of_nonneg (by linarith), abs_of_nonneg (by linarith)] at this
  linarith

/-- Rounding does not pass a finite pattern from above. -/
theorem IsRounded.ge {f : FloatFormat} {x : ℝ} {r w : Nat} (h : IsRounded f x r) (hx : |x| < overflowBound f)
    (hw : isFiniteBits f w) (hle : realOf f w ≤ x) : realOf f w ≤ realOf f r := by
  by_contra hc
  have hc := not_le.1 hc
  have := (h.finite hx).2 w hw
  rw [abs_of_nonpos (by linarith), abs_of_nonpos (by linarith)] at this
  linarith

/-- A common factor of two does not change how a whole number is shifted. -/
theorem shiftNearestEven_scale (m j k : Nat) : shiftNearestEven (m * 2 ^ j) (k + j) = shiftNearestEven m k := by
  unfold shiftNearestEven
  have hj : 0 < 2 ^ j := Nat.two_pow_pos _
  simp only [Nat.pow_add, Nat.mul_div_mul_right _ _ hj, Nat.mul_mod_mul_right]
  have a1 : (2 ^ k * 2 ^ j < 2 * (m % 2 ^ k * 2 ^ j)) ↔ 2 ^ k < 2 * (m % 2 ^ k) := by
    rw [← Nat.mul_assoc]; exact Nat.mul_lt_mul_right hj
  have a2 : (2 * (m % 2 ^ k * 2 ^ j) = 2 ^ k * 2 ^ j) ↔ 2 * (m % 2 ^ k) = 2 ^ k := by
    rw [← Nat.mul_assoc]; exact Nat.mul_left_inj hj.ne'
  simp only [a1, a2]

theorem shiftNearestEven_zero (m : Nat) : shiftNearestEven m 0 = m := by
  simp [shiftNearestEven, Nat.mod_one]

theorem log2_scale {m : Nat} (j : Nat) (hm : m ≠ 0) : Nat.log2 (m * 2 ^ j) = Nat.log2 m + j := by
  have h := log2_bounds hm
  have hmj : m * 2 ^ j ≠ 0 := Nat.mul_ne_zero hm (Nat.two_pow_pos _).ne'
  rw [Nat.log2_eq_iff hmj]
  constructor
  · rw [Nat.pow_add]; exact Nat.mul_le_mul_right _ h.1
  · rw [show Nat.log2 m + j + 1 = Nat.log2 m + 1 + j by omega, Nat.pow_add]
    exact Nat.mul_lt_mul_of_pos_right h.2 (Nat.two_pow_pos _)

/-- The same magnitude with another exponent rounds to the same bits. -/
theorem roundBits_scale (f : FloatFormat) (m j : Nat) (e : Int) :
    roundBits f (m * 2 ^ j) (e - j) = roundBits f m e := by
  by_cases hm : m = 0
  · simp [hm, roundBits]
  · have hmj : m * 2 ^ j ≠ 0 := Nat.mul_ne_zero hm (Nat.two_pow_pos _).ne'
    have hq : lastPlace f (m * 2 ^ j) (e - j) = lastPlace f m e := by
      rw [lastPlace, lastPlace, log2_scale j hm]; congr 2; push_cast; ring
    rw [roundBits_eq f _ hmj, roundBits_eq f _ hm, lastCount, lastCount, hq]
    generalize lastPlace f m e = q
    congr 2
    rcases Int.le_total e q with h | h
    · rw [show (e - j - q).toNat = 0 by omega, show (e - q).toNat = 0 by omega, Nat.pow_zero, Nat.mul_one, Nat.mul_one,
        show (q - (e - j)).toNat = (q - e).toNat + j by omega, shiftNearestEven_scale]
    · rw [show (q - e).toNat = 0 by omega, shiftNearestEven_zero, Nat.mul_assoc, ← Nat.pow_add]
      rw [show j + (e - j - q).toNat = (e - q).toNat + (q - (e - j)).toNat by omega, Nat.pow_add, ← Nat.mul_assoc]
      have := shiftNearestEven_scale (m * 2 ^ (e - q).toNat) (q - (e - j)).toNat 0
      rw [Nat.zero_add, shiftNearestEven_zero] at this
      exact this

/-- The real value of a pattern, from its reading. -/
theorem realOf_of_unpack {f : FloatFormat} {w : Nat} {n : Bool} {m : Nat} {e : Int}
    (h : unpack f w = .fin n m e) :
    realOf f w = (if n then -1 else 1) * ((m : ℝ) * 2 ^ e) := by
  rw [realOf, h]; exact realOfParts_eq _ _ _

end Sys2Proof.Machine
end

