-- ==== Sys2Proof/Laws/Step.lean ====
section
/-! SUPPORT. All that a step can do. -/

namespace Sys2Proof.Machine

/-! ## Host accesses -/

/-- A host read changes the count of draws and nothing else (20_memory.md R64, R65, R79). -/
theorem hostRead_state (s : State) (a : HostAddr) : ∃ d, (hostRead s a).2 = s.setDraws d := by
  unfold hostRead
  split
  · exact ⟨s.draws, rfl⟩
  · exact memRead_state s _

/-- A host write stores in NOTE, in an argument register or in a buffer word, or is ignored
(20_memory.md R64, R65). -/
theorem hostWrite_cases (s : State) (a : HostAddr) (v : Word) :
    hostWrite s a v = s ∨ (a = 0x0002#16 ∧ hostWrite s a v = s.setNote v) ∨
    (a ≠ 0x0002#16 ∧ ∃ r, hostWrite s a v = s.setArgs r) ∨
    (a ≠ 0x0002#16 ∧ ∃ m, hostWrite s a v = s.setBuf m ∧
      (s.buf.wf s.cfg.bufCap = true → m.wf s.cfg.bufCap = true)) := by
  have hne : ∀ n : Nat, a.toNat = n → n ≠ 2 → a ≠ 0x0002#16 := by
    rintro n h hn rfl
    exact hn h.symm
  unfold hostWrite
  split
  · unfold writeReg
    split
    case h_1 h => exact .inr (.inl ⟨BitVec.eq_of_toNat_eq h, rfl⟩)
    case h_10 => exact .inl rfl
    all_goals
      rename_i h
      exact .inr (.inr (.inl ⟨hne _ h (by decide), _, rfl⟩))
  · rename_i hw
    obtain ⟨m, hm, -, hwf⟩ := memWrite_state s a.toNat v
    refine .inr (.inr (.inr ⟨?_, m, hm, hwf⟩))
    rintro rfl
    exact hw (by decide)

/-! ## Steps -/

/-- All that a step can do: nothing is pending; or the first pending event happens, be it a read, a
command, a command word that is illegal, another host write, a control access or a power-on reset. -/
theorem step_cases {s t : State} (h : step s = .next t) :
    (s.pending = [] ∧ t = s) ∨ ∃ e rest, s.pending = e :: rest ∧
      ((∃ a, e = .hostRead a ∧
          t = (hostRead (s.setPending rest) a).2.setHostReply
            (some (hostRead (s.setPending rest) a).1)) ∨
       (∃ w i, e = .hostWrite cmdAddr w ∧ decode w = .ok i ∧ exec i (s.setPending rest) = .next t) ∨
       (∃ w why, e = .hostWrite cmdAddr w ∧ decode w = .error why ∧
          t = raiseError .illegalCmd (s.setPending rest)) ∨
       (∃ a v, e = .hostWrite a v ∧ a ≠ cmdAddr ∧ t = hostWrite (s.setPending rest) a v) ∨
       (e = .ctrlRead ∧ t = (s.setPending rest).setCtrlReply (some s.note)) ∨
       (∃ v, e = .ctrlWrite v ∧ t = (s.setPending rest).setNote v) ∨
       (e = .powerOn ∧ t = powerOn (s.setPending rest))) := by
  unfold step advance at h
  split at h
  · rename_i hp
    cases h
    exact .inl ⟨hp, rfl⟩
  · rename_i e rest hp
    refine .inr ⟨e, rest, hp, ?_⟩
    unfold perform at h
    split at h
    · cases h
      exact .inl ⟨_, rfl, rfl⟩
    · split at h
      · rename_i w ha
        subst ha
        unfold runCommand at h
        split at h
        · rename_i i hi
          exact .inr (.inl ⟨w, i, rfl, hi, h⟩)
        · rename_i why hwhy
          cases h
          exact .inr (.inr (.inl ⟨w, why, rfl, hwhy, rfl⟩))
      · rename_i ha
        cases h
        exact .inr (.inr (.inr (.inl ⟨_, _, rfl, ha, rfl⟩)))
    · cases h
      exact .inr (.inr (.inr (.inr (.inl ⟨rfl, rfl⟩))))
    · cases h
      exact .inr (.inr (.inr (.inr (.inr (.inl ⟨_, rfl, rfl⟩)))))
    · cases h
    · cases h
      exact .inr (.inr (.inr (.inr (.inr (.inr ⟨rfl, rfl⟩)))))

/-- The next step after `withFetchWord` issues the word as a command (log 5). -/
theorem step_withFetchWord (s : State) (nbits w : Nat) :
    step (s.withFetchWord nbits w) = runCommand (BitVec.ofNat 32 (w % 2 ^ nbits)) s := by
  simp [step, advance, perform, State.withFetchWord, State.setPending]

/-! ## Runs -/

/-- A run that answers a next state took a step to a next state first. -/
theorem run_succ_next {k : Nat} {s t : State} (h : Host.Core.run core (k + 1) s = .next t) :
    ∃ u, step s = .next u ∧ Host.Core.run core k u = .next t := by
  have h' := (Host.Core.run.eq_2 core s k).symm.trans h
  cases hst : core.step s with
  | next u => exact ⟨u, hst, by simpa only [hst] using h'⟩
  | fault r => simp only [hst] at h'; cases h'
  | refused r => simp only [hst] at h'; cases h'

/-- A step to a next state, then the rest of the run. -/
theorem run_succ {k : Nat} {s u : State} (h : step s = .next u) :
    Host.Core.run core (k + 1) s = Host.Core.run core k u := by
  refine (Host.Core.run.eq_2 core s k).trans ?_
  have h' : core.step s = .next u := h
  simp only [h']

/-- A property that every step keeps holds along every run. -/
theorem run_keeps {P : State → Prop} (hstep : ∀ s t, P s → step s = .next t → P t) (k : Nat)
    (s t : State) (hs : P s) (h : Host.Core.run core k s = .next t) : P t := by
  induction k generalizing s with
  | zero =>
    cases h
    exact hs
  | succ k ih =>
    obtain ⟨u, hu, h⟩ := run_succ_next h
    exact ih u (hstep s u hs hu) h

/-! ## Pairs of words -/

theorem asF64_words (v : F64) : asF64 (hiWord v) (loWord v) = v := by
  apply BitVec.eq_of_toNat_eq
  have h := v.isLt
  simp only [asF64, hiWord, loWord, BitVec.toNat_append, BitVec.extractLsb'_toNat]
  rw [← Nat.shiftLeft_add_eq_or_of_lt (by omega), Nat.shiftLeft_eq, Nat.shiftRight_eq_div_pow,
    Nat.shiftRight_eq_div_pow]
  omega

theorem loWord_asF64 (hi lo : Word) : loWord (asF64 hi lo) = lo := by
  apply BitVec.eq_of_toNat_eq
  have h := lo.isLt
  simp only [asF64, loWord, BitVec.toNat_append, BitVec.extractLsb'_toNat]
  rw [← Nat.shiftLeft_add_eq_or_of_lt h, Nat.shiftLeft_eq, Nat.shiftRight_eq_div_pow]
  omega

theorem hiWord_asF64 (hi lo : Word) : hiWord (asF64 hi lo) = hi := by
  apply BitVec.eq_of_toNat_eq
  have h := lo.isLt
  have h' := hi.isLt
  simp only [asF64, hiWord, BitVec.toNat_append, BitVec.extractLsb'_toNat]
  rw [← Nat.shiftLeft_add_eq_or_of_lt h, Nat.shiftLeft_eq, Nat.shiftRight_eq_div_pow]
  omega

end Sys2Proof.Machine
end

