-- ==== Sys2Proof/Tests/Slice0.lean ====
section
/-! SUPPORT. Small tests, each against a value of the spec, and for every statement with hypotheses a
concrete case that meets them.  The vectors are those of 95_test_vectors.md. -/

namespace Sys2Proof.Tests

open Sys2Proof Sys2Proof.Machine

/-! ## Helpers -/

/-- The state after one step, or the state itself where the step stops. -/
def after (s : State) : State :=
  match step s with
  | .next t => t
  | _ => s

/-- One event comes next. -/
def next (e : Event) (s : State) : State := { s with pending := [e] }

/-- The state after the host issues a command word. -/
def command (w : Word) (s : State) : State := after (next (.hostWrite 0x0000#16 w) s)

/-- The word a host read of an address returns. -/
def readAt (a : HostAddr) (s : State) : Option Word := (after (next (.hostRead a) s)).hostReply

/-- The state after a host write. -/
def writeAt (a : HostAddr) (v : Word) (s : State) : State := after (next (.hostWrite a v) s)

/-- The state after reset with the arguments of a PREPARE written and a note selected. -/
def asked (note fsHi fsLo blk : Word) : State :=
  { State.reset with note := note, args := { Args.reset with maxBlk := blk, fsLo := fsLo, fsHi := fsHi } }

/-- A prepared block at 44100.0 with MAXBLK = 8 and the identity coefficients. -/
def ready : State :=
  { State.reset with
    status := { Status.reset with prep := true }
    fs := 0x40E5888000000000#64
    maxBlk := 8#32 }

/-- The set K of V-PROC. -/
def setK : Coef := ⟨0x3F000000#32, 0x3E800000#32, 0x3E000000#32, 0xBF000000#32, 0x3E800000#32⟩

/-- `ready` with channel 0's coefficients, history and input block. -/
def loaded (k : Coef) (h : Hist) (xs : List Word) : State :=
  { ready with
    coef := ⟨k, Coef.identity⟩
    hist := ⟨h, Hist.zero⟩
    buf := (xs.zipIdx.map fun p => (0x4000 + p.2, p.1)) }

/-- `ready` with a block of two written words in each channel. -/
def bothLoaded : State :=
  { ready with
    coef := ⟨setK, setK⟩
    buf := [(0x4000, 0x3F800000#32), (0x4001, 0#32), (0x8000, 0x40000000#32),
      (0x8001, 0x3F800000#32)] }

/-! ## What the checks refuse -/

theorem test_wf_refuses_count : (Instr.proc 1#2 65536).wf = false := by decide
theorem test_wf_admits_count : (Instr.proc 1#2 65535).wf = true := by decide
theorem test_wf_refuses_word_width : (Event.otherWidth .host 32).wf = false := by decide
theorem test_legal_default : Config.default.legal = true := by decide
theorem test_legal_refuses_no_buffer : Config.legal { Config.default with bufCap := 0 } = false := by
  decide
theorem test_legal_refuses_large_buffer :
    Config.legal { Config.default with bufCap := 16385 } = false := by decide
theorem test_legal_refuses_zero_rate :
    Config.legal { Config.default with fsMin := 0#64 } = false := by decide
theorem test_legal_refuses_infinite_rate :
    Config.legal { Config.default with fsMax := 0x7FF0000000000000#64 } = false := by decide
theorem test_legal_refuses_empty_range :
    Config.legal { Config.default with fsMin := 0x412E848000000001#64 } = false := by decide
theorem test_stmt_refuses_index : (Stmt.loadBuf .ch0 0x4000 0#32).wf = false := by decide
theorem test_stmt_refuses_count : (Stmt.block 1#2 65536).wf = false := by decide
theorem test_memory_refuses_order :
    Memory.wf 4096 [(0x4001, 1#32), (0x4000, 1#32)] = false := by decide
theorem test_memory_refuses_repeat :
    Memory.wf 4096 [(0x4000, 1#32), (0x4000, 1#32)] = false := by decide
theorem test_memory_refuses_reserved : Memory.wf 4096 [(0x5000, 1#32)] = false := by decide
theorem test_memory_admits_both_buffers :
    Memory.wf 4096 [(0x4000, 1#32), (0x4FFF, 1#32), (0x8FFF, 1#32)] = true := by decide

/-! ## Decoding, from the bits of 30_encoding.md R86: CNT, RSV, CHM, OP -/

theorem test_decode_nop : decode 0b0000000000000000_0000000000_00_0000#32 = .ok .nop := by decide
theorem test_decode_prepare :
    decode 0b0000000000000000_0000000000_00_0001#32 = .ok .prepare := by decide
theorem test_decode_update :
    decode 0b0000000000000000_0000000000_00_0010#32 = .ok .update := by decide
theorem test_decode_setc :
    decode 0b0000000000000000_0000000000_01_0011#32 = .ok (.setc 1#2) := by decide
theorem test_decode_setc_right :
    decode 0b0000000000000000_0000000000_10_0011#32 = .ok (.setc 2#2) := by decide
theorem test_decode_proc :
    decode 0b0000001000000000_0000000000_11_0100#32 = .ok (.proc 3#2 512) := by decide
theorem test_decode_proc_longest :
    decode 0b1111111111111111_0000000000_01_0100#32 = .ok (.proc 1#2 65535) := by decide
theorem test_decode_hrst :
    decode 0b0000000000000000_0000000000_01_0101#32 = .ok (.hrst 1#2) := by decide
theorem test_decode_srst : decode 0b0000000000000000_0000000000_00_1111#32 = .ok .srst := by decide
/-- The illegal words of V-DEC. -/
theorem test_decode_illegal :
    decode 0x00000006#32 = .error .op ∧ decode 0x0000000E#32 = .error .op ∧
    decode 0x00000040#32 = .error .rsv ∧ decode 0x00008004#32 = .error .rsv ∧
    decode 0x00000010#32 = .error .chmOrCnt ∧ decode 0x00000011#32 = .error .chmOrCnt ∧
    decode 0x00000032#32 = .error .chmOrCnt ∧ decode 0x00010002#32 = .error .chmOrCnt ∧
    decode 0x80000003#32 = .error .cnt ∧ decode 0x00010005#32 = .error .cnt ∧
    decode 0x0000001F#32 = .error .chmOrCnt ∧ decode 0xFFFFFFFF#32 = .error .rsv := by decide
theorem test_encode_proc : encode (.proc 3#2 512) = 0x02000034#32 := by decide
theorem test_decodeTableWord :
    decodeTableWord 32 0x02000034 = some (.proc 3#2 512) ∧ decodeTableWord 32 0x40 = none := by decide
theorem test_withFetchWord : step (State.reset.withFetchWord 32 0x02000014) =
    exec (.proc 1#2 512) { State.reset with pending := [] } := rfl
theorem test_disassemble :
    disassemble 0x02000034#32 = "PROC ch0,ch1, 512" ∧ disassemble 0x00000003#32 = "SETC -" ∧
    disassemble 0x00010005#32 = ".word 0x00010005 ; illegal" := by decide +kernel

/-! ## Numbers -/

/-- V-CLAMPFS. -/
theorem test_clampFs :
    let c := clampFs Config.default.fsMin Config.default.fsMax
    c 0x40E5888000000000#64 = (0x40E5888000000000#64, false) ∧
    c 0x3FF0000000000000#64 = (0x3FF0000000000000#64, false) ∧
    c 0x412E848000000000#64 = (0x412E848000000000#64, false) ∧
    c 0x8000000000000000#64 = (0x3FF0000000000000#64, true) ∧
    c 0x0000000000000001#64 = (0x3FF0000000000000#64, true) ∧
    c 0xC014000000000000#64 = (0x3FF0000000000000#64, true) ∧
    c 0x7FF0000000000000#64 = (0x412E848000000000#64, true) ∧
    c 0x7FF8000000000000#64 = (0x3FF0000000000000#64, true) ∧
    c 0xFFF0000000000001#64 = (0x3FF0000000000000#64, true) := by decide +kernel

/-- V-DES-2 and the A4 row of V-DES-1, from the reference sine and cosine. -/
theorem test_design_A4 :
    angular 0x407B800000000000#64 0x40E5888000000000#64 = 0x3FB00C6938F15E29#64 ∧
    sqrt64 gain24 = 0x400FD93C1F526DE0#64 ∧
    coefFrom 0x3FB009B8777F3581#64 0x3FEFEFE87D5F3914#64 gain24 =
      ⟨0x3F817E8C#32, 0xBFFF4BD7#32, 0x3F7C9BDC#32, 0xBFFF4BD7#32, 0x3F7F98F3#32⟩ := by decide +kernel

/-- The clamp of V-DES-6, and its boundary in V-DES-7. -/
theorem test_clampFreq :
    clampFreq Config.default.clampRatio 0x407B800000000000#64 0x4089000000000000#64 =
      (0x4078800000000000#64, true) ∧
    (clampFreq Config.default.clampRatio 0x407EDE147AE147AE#64 0x408F780000000000#64).2 = true ∧
    (clampFreq Config.default.clampRatio 0x407EDE147AE147AE#64 0x408F800000000000#64).2 = false := by
  decide +kernel

/-- V-RES: no note falls through to another (R106). -/
theorem test_resolve_C4 : resolve Config.default.fBypass 1#32 =
    (0x40705A147AE147AE#64, 0x402FB2A734897867#64) := by decide
theorem test_resolve_unknown : resolve Config.default.fBypass 13#32 =
    (0x4034000000000000#64, 0x3FF0000000000000#64) := by decide

/-! ## Ports and registers -/

/-- The reserved accesses of V-DEC. -/
theorem test_reserved_accesses :
    readAt 0x0030#16 State.reset = some 0#32 ∧ readAt 0x0000#16 State.reset = some 0#32 ∧
    readAt 0x5000#16 State.reset = some 0#32 ∧ readAt 0x000B#16 State.reset = some 0x4251504B#32 ∧
    writeAt 0x0030#16 5#32 State.reset = State.reset ∧ writeAt 0x0001#16 5#32 State.reset = State.reset ∧
    writeAt 0x000B#16 5#32 State.reset = State.reset := by decide +kernel
theorem test_read_FS : readAt 0x000C#16 ready = some 0#32 ∧
    readAt 0x000D#16 ready = some 0x40E58880#32 := by decide
/-- The last word of a buffer is stored, and the first address past it is not (R64). -/
theorem test_write_buffer_end :
    (writeAt 0x4FFF#16 7#32 State.reset).buf = [(0x4FFF, 7#32)] ∧
    (writeAt 0x5000#16 7#32 State.reset).buf = [] := by decide
theorem test_status_word : Status.word ⟨true, ⟨false, false⟩, true, false, true, 2#4⟩ = 0x00002109#32 :=
  by decide
theorem test_control_port :
    (after (next (.ctrlWrite 10#32) State.reset)).note = 10#32 ∧
    (after (next .ctrlRead { State.reset with note := 7#32 })).ctrlReply = some 7#32 := by decide

/-! ## Commands -/

/-- V-NOP-1. -/
theorem test_nop : command 0x00000000#32 bothLoaded = bothLoaded := by decide +kernel
/-- V-PREP: a legal block, and one with both clamps. -/
theorem test_prepare :
    (command 0x00000001#32 (asked 10#32 0x40E58880#32 0#32 512#32)).status.word = 0x00000001#32 ∧
    (command 0x00000001#32 (asked 10#32 0x7FF80000#32 0#32 16#32)).status.word = 0x00000019#32 ∧
    (command 0x00000001#32 (asked 10#32 0x7FF80000#32 0#32 16#32)).fs = 0x3FF0000000000000#64 := by
  decide +kernel
/-- V-PREP: block sizes of 0 and of BUF_CAP + 1. -/
theorem test_prepare_range :
    (command 0x00000001#32 (asked 10#32 0x40E58880#32 0#32 0#32)).status.word = 0x00004100#32 ∧
    (command 0x00000001#32 (asked 10#32 0x40E58880#32 0#32 4097#32)).status.word = 0x00004100#32 ∧
    (command 0x00000001#32 (asked 0#32 0x40E58880#32 0#32 4096#32)).status.word = 0x00000001#32 := by
  decide +kernel
/-- V-UPD-2. -/
theorem test_update_unprepared :
    (command 0x00000002#32 State.reset).status.word = 0x00002100#32 ∧
    (command 0x00000002#32 State.reset).coef.ch0 = Coef.identity := by decide
/-- V-UPD-5: FCLAMP clears when the new note is not clamped. -/
theorem test_update_clears_FCLAMP :
    (command 0x00000002#32 { ready with
      fs := 0x4089000000000000#64
      note := 1#32
      status := { ready.status with fclamp := true } }).status.word = 0x00000001#32 := by decide +kernel
/-- V-SETC-1 and V-SETC-3: raw words in the selected channel only. -/
theorem test_setc :
    (command 0x00000013#32 { ready with args := { ready.args with coef :=
      ⟨0x7FC00001#32, 0x00000001#32, 0#32, 0#32, 0xFF800000#32⟩ } }).coef =
    ⟨⟨0x7FC00001#32, 0x00000001#32, 0#32, 0#32, 0xFF800000#32⟩, Coef.identity⟩ := by decide
/-- V-SETC-4. -/
theorem test_setc_unprepared :
    (command 0x00000013#32 State.reset).status.word = 0x00002100#32 := by decide
/-- V-PROC-1 and V-PROC-7: an impulse, and a NaN that stays. -/
theorem test_proc :
    (command 0x00060014#32 (loaded setK Hist.zero
      [0x3F800000#32, 0#32, 0#32, 0#32, 0#32, 0#32])).buf.map Prod.snd =
      [0x3F000000#32, 0x3F000000#32, 0x3E800000#32, 0#32, 0xBD800000#32, 0xBD000000#32] ∧
    (command 0x00010014#32 (loaded setK Hist.zero [0x7FC00001#32])).hist.ch0 =
      ⟨0x7FC00001#32, 0#32, 0x7FC00000#32, 0#32⟩ := by decide +kernel
/-- V-PROC-E2, V-PROC-E3 and V-PROC-E5. -/
theorem test_proc_errors :
    (command 0x00090014#32 ready).status.word = 0x00003101#32 ∧
    (command 0x00090004#32 ready).status.word = 0x00003101#32 ∧
    (command 0xFFFF0004#32 State.reset).status.word = 0x00002100#32 := by decide
/-- V-HRST-1. -/
theorem test_hrst :
    let s := command 0x00000025#32 { ready with
      status := { ready.status with run := ⟨true, true⟩ }
      hist := ⟨⟨1#32, 2#32, 3#32, 4#32⟩, ⟨0x3F000000#32, 0x3E800000#32, 0x7FC00000#32, 1#32⟩⟩ }
    s.hist = ⟨⟨1#32, 2#32, 3#32, 4#32⟩, Hist.zero⟩ ∧ s.status.run = ⟨true, false⟩ := by decide
/-- V-SRST-1. -/
theorem test_srst :
    let s := command 0x0000000F#32 { bothLoaded with
      note := 7#32
      status := ⟨true, ⟨false, false⟩, true, false, true, 2#4⟩ }
    s.status.word = 0#32 ∧ s.note = 7#32 ∧ s.maxBlk = 0#32 ∧ s.buf = bothLoaded.buf ∧
      s.coef.ch0 = Coef.identity := by decide
/-- V-DEC and V-PROC-E6: an illegal word, and the first error kept. -/
theorem test_illegal_word :
    (command 0x00010054#32 ready).status.word = 0x00001101#32 ∧
    (command 0x00000002#32 (command 0x00000006#32 State.reset)).status.word = 0x00001100#32 := by
  decide

/-- V-PROC-2 to V-PROC-14 on single samples: the output and, where it is telling, the new history. -/
theorem test_biquad_vectors :
    let k (b0 b1 b2 a1 a2 : F32) (h : Hist) (x : F32) := (biquadStep ⟨b0, b1, b2, a1, a2⟩ h x).1
    k 0x3F800000#32 0#32 0#32 0#32 0#32 Hist.zero 0x80000000#32 = 0#32 ∧
    k 0x0D800000#32 0#32 0#32 0#32 0#32 Hist.zero 0xB0800000#32 = 0#32 ∧
    k 0x3F800000#32 0#32 0#32 0#32 0#32 Hist.zero 0x00800000#32 = 0x00800000#32 ∧
    k 0x40000000#32 0#32 0#32 0#32 0#32 Hist.zero 0x7F61B1E6#32 = 0x7F800000#32 ∧
    k 0#32 0#32 0#32 0#32 0#32 Hist.zero 0x7F800000#32 = 0x7FC00000#32 ∧
    k 0x3F800000#32 0xBF800000#32 0#32 0#32 0#32 ⟨0x7F800000#32, 0#32, 0x7F800000#32, 0#32⟩
      0x7F800000#32 = 0x7FC00000#32 ∧
    k 0x3F800000#32 0x33800000#32 0#32 0#32 0#32 ⟨0x3F800000#32, 0#32, 0x3F800000#32, 0#32⟩
      0x3F800000#32 = 0x3F800000#32 ∧
    k 0x00000001#32 0#32 0#32 0#32 0#32 Hist.zero 0x3F800000#32 = 0#32 ∧
    k 0xBF800000#32 0xBF800000#32 0xBF800000#32 0x3F800000#32 0x3F800000#32 Hist.zero 0#32 =
      0x80000000#32 := by decide +kernel

/-! ## The hypotheses of the statements can be met

One theorem for each statement of Obligations.lean that has hypotheses, in the order of that file;
where a statement has several clauses, one case for each at a boundary. -/

/-- A step that answers a next state, for the witnesses about steps. -/
theorem step_command (w : Word) (i : Instr) (s : State) (h : decode w = .ok i) :
    step { s with pending := [.hostWrite 0x0000#16 w] } = exec i { s with pending := [] } := by
  simp [step, advance, perform, cmdAddr, runCommand, h, State.setPending]

theorem witness_DecodeOfEncode : (Instr.proc 3#2 65535).wf = true ∧ (Instr.proc 0#2 0).wf = true ∧
    (Instr.setc 3#2).wf = true := by decide

theorem witness_EncodeOfDecode : decode 0xFFFF0034#32 = .ok (.proc 3#2 65535) := by decide

theorem witness_RowsDoNotOverlap : (0x00000004#32, 0x0000FFCF#32) ∈ opcodeTable ∧
    rowSelects (0x00000004#32, 0x0000FFCF#32) 0xFFFF0034#32 = true := by decide

/-- A word for each item of R87, with the state in which it is issued. -/
theorem witness_IllegalWords :
    (∃ why, decode 0x00000006#32 = .error why) ∧ (∃ why, decode 0x0000000E#32 = .error why) ∧
    (∃ why, decode 0x00000043#32 = .error why) ∧ (∃ why, decode 0x0001000F#32 = .error why) ∧
    (∃ why, decode 0x00010005#32 = .error why) ∧
    (next (.hostWrite 0x0000#16 0x00000006#32) ready).pending =
      .hostWrite 0x0000#16 0x00000006#32 :: [] :=
  ⟨⟨.op, by decide⟩, ⟨.op, by decide⟩, ⟨.rsv, by decide⟩, ⟨.chmOrCnt, by decide⟩, ⟨.cnt, by decide⟩,
    rfl⟩

theorem witness_StepRunsDecodedCommand :
    (next (.hostWrite 0x0000#16 0x00080034#32) ready).pending =
      .hostWrite 0x0000#16 0x00080034#32 :: [] ∧ decode 0x00080034#32 = .ok (.proc 3#2 8) := by decide

theorem witness_BlockWaits : State.reset.pending = [] := rfl

theorem witness_BlockNeverStops : ∀ port bits,
    (next .powerOn ready).pending.head? ≠ some (.otherWidth port bits) := by
  intro port bits h
  cases h

theorem witness_OtherWidthsAreRefused :
    (next (.otherWidth .control 16) ready).pending = .otherWidth .control 16 :: [] := rfl

/-- A mapped register, and each range of reserved addresses at its ends, with the default BUF_CAP. -/
theorem witness_HostReadFollowsRegisterMap :
    (next (.hostRead 0x002B#16) ready).pending = .hostRead 0x002B#16 :: [] ∧
    (let reserved (a : HostAddr) : Prop :=
      a.toNat = 0x15 ∨ a.toNat = 0x16 ∨ a.toNat = 0x17 ∨ a.toNat = 0x1D ∨
      a.toNat = 0x1E ∨ a.toNat = 0x1F ∨ (0x24 ≤ a.toNat ∧ a.toNat ≤ 0x27) ∨
      (0x2C ≤ a.toNat ∧ a.toNat < 0x4000) ∨ 0xC000 ≤ a.toNat ∨
      (0x4000 ≤ a.toNat ∧ a.toNat < 0x8000 ∧ 0x4000 + ready.cfg.bufCap ≤ a.toNat) ∨
      (0x8000 ≤ a.toNat ∧ a.toNat < 0xC000 ∧ 0x8000 + ready.cfg.bufCap ≤ a.toNat)
    reserved 0x0015#16 ∧ reserved 0x0017#16 ∧ reserved 0x001D#16 ∧ reserved 0x001F#16 ∧
    reserved 0x0024#16 ∧ reserved 0x0027#16 ∧ reserved 0x002C#16 ∧ reserved 0x3FFF#16 ∧
    reserved 0x5000#16 ∧ reserved 0x7FFF#16 ∧ reserved 0x9000#16 ∧ reserved 0xBFFF#16 ∧
    reserved 0xC000#16 ∧ reserved 0xFFFF#16 ∧ ¬ reserved 0x0014#16 ∧ ¬ reserved 0x0018#16 ∧
    ¬ reserved 0x002B#16 ∧ ¬ reserved 0x4000#16 ∧ ¬ reserved 0x4FFF#16 ∧ ¬ reserved 0x8000#16 ∧
    ¬ reserved 0x8FFF#16) := by
  refine ⟨rfl, ?_⟩
  simp [ready, State.reset, Config.default]

/-- A writable register, and each range of addresses at which a write is ignored at its ends. -/
theorem witness_HostWriteFollowsRegisterMap :
    (next (.hostWrite 0x000A#16 5#32) ready).pending = .hostWrite 0x000A#16 5#32 :: [] ∧
    (let ignored (a : HostAddr) : Prop :=
      a.toNat = 0x1 ∨ (0xB ≤ a.toNat ∧ a.toNat < 0x4000) ∨ 0xC000 ≤ a.toNat ∨
      (0x4000 ≤ a.toNat ∧ a.toNat < 0x8000 ∧ 0x4000 + ready.cfg.bufCap ≤ a.toNat) ∨
      (0x8000 ≤ a.toNat ∧ a.toNat < 0xC000 ∧ 0x8000 + ready.cfg.bufCap ≤ a.toNat)
    ignored 0x0001#16 ∧ ignored 0x000B#16 ∧ ignored 0x3FFF#16 ∧ ignored 0x5000#16 ∧
    ignored 0x7FFF#16 ∧ ignored 0x9000#16 ∧ ignored 0xBFFF#16 ∧ ignored 0xC000#16 ∧
    ignored 0xFFFF#16 ∧ ¬ ignored 0x0000#16 ∧ ¬ ignored 0x0002#16 ∧ ¬ ignored 0x000A#16 ∧
    ¬ ignored 0x4FFF#16 ∧ ¬ ignored 0x8FFF#16) := by
  refine ⟨rfl, ?_⟩
  simp [ready, State.reset, Config.default]

/-- The last word of the second buffer. -/
theorem witness_HostWriteOfBufferWord : 4095 < ready.cfg.bufCap ∧ ready.cfg.bufCap ≤ 16384 ∧
    (next (.hostWrite (BitVec.ofNat 16 (bufBase .ch1 + 4095)) 7#32) ready).pending =
      .hostWrite (BitVec.ofNat 16 (bufBase .ch1 + 4095)) 7#32 :: [] := by decide

/-- A stored word, and one that nothing has stored. -/
theorem witness_HostReadOfBufferWord : 1 < bothLoaded.cfg.bufCap ∧ 4095 < bothLoaded.cfg.bufCap ∧
    bothLoaded.cfg.bufCap ≤ 16384 ∧ bothLoaded.buf.find (bufBase .ch1 + 1) = some 0x3F800000#32 ∧
    bothLoaded.buf.find (bufBase .ch1 + 4095) = none ∧
    (next (.hostRead (BitVec.ofNat 16 (bufBase .ch1 + 1))) bothLoaded).pending =
      .hostRead (BitVec.ofNat 16 (bufBase .ch1 + 1)) :: [] := by decide

theorem witness_ControlPortReachesNote :
    (next (.ctrlWrite 5#32) ready).pending = .ctrlWrite 5#32 :: [] ∧
    (next .ctrlRead ready).pending = .ctrlRead :: [] ∧
    (next (.hostRead 0x0002#16) ready).pending = .hostRead 0x0002#16 :: [] := by decide

/-- A block size of 1, and of BUF_CAP. -/
theorem witness_StartPreparesTheBlock : State.reset.pending = [] ∧ State.reset.clean = true ∧
    1 ≤ (1#32).toNat ∧ (4096#32).toNat ≤ State.reset.cfg.bufCap := by decide

theorem witness_PowerOnValues : (next .powerOn bothLoaded).pending = .powerOn :: [] := by decide

theorem witness_SrstIsPowerOnButNoteAndBuffers :
    (next .powerOn bothLoaded).pending = .powerOn :: [] := by decide

/-- The write of the word 0, and a word of OP 0 with the last bit of CNT set. -/
theorem witness_NopHasNoEffect :
    (next (.hostWrite 0x0000#16 0x00000000#32) ready).pending =
      .hostWrite 0x0000#16 0x00000000#32 :: [] ∧
    (0x80000000#32).extractLsb' 0 4 = 0#4 ∧ 0x80000000#32 ≠ 0x00000000#32 := by decide

/-- A command that is not SRST, on a block that has recorded an error. -/
theorem witness_SrstResetsRegisters :
    (∃ t, exec (.proc 1#2 9) { ready with status := { ready.status with err := true, ecode := 2#4 } } =
      .next t ∧ t.status.ecode = 2#4) ∧ Instr.proc 1#2 9 ≠ .srst :=
  ⟨⟨_, rfl, rfl⟩, by decide⟩

/-- A block size of 1, and of BUF_CAP. -/
theorem witness_PrepareConfiguresAndDesigns :
    (let s := asked 10#32 0x40E58880#32 0#32 1#32
     1 ≤ s.args.maxBlk.toNat ∧ s.args.maxBlk.toNat ≤ s.cfg.bufCap) ∧
    (let s := asked 10#32 0x40E58880#32 0#32 4096#32
     1 ≤ s.args.maxBlk.toNat ∧ s.args.maxBlk.toNat ≤ s.cfg.bufCap) := by decide

/-- A block size of 0, and of BUF_CAP + 1. -/
theorem witness_PrepareRejectsBlockSize :
    (asked 0#32 0#32 0#32 0#32).args.maxBlk.toNat = 0 ∧
    (asked 0#32 0#32 0#32 4097#32).cfg.bufCap < (asked 0#32 0#32 0#32 4097#32).args.maxBlk.toNat := by
  decide

theorem witness_PrepareIsIdempotent :
    ∃ t, exec .prepare (asked 10#32 0x40E58880#32 0#32 512#32) = .next t ∧ t.status.prep = true :=
  ⟨_, rfl, rfl⟩

theorem witness_UpdateDesignsBothChannels : ready.status.prep = true := by decide

theorem witness_SetcCopiesArguments : ready.status.prep = true ∧
    State.reset.status.prep = false ∧ (3#2).getLsbD 0 = true ∧
    (3#2).getLsbD 1 = true ∧ (0#2).getLsbD 0 = false := by decide

/-- A count of MAXBLK and of 0, both channels selected and none, and an address outside the blocks. -/
theorem witness_ProcCompletesWithinFrame : ready.status.prep = true ∧ 8 ≤ ready.maxBlk.toNat ∧
    0 ≤ ready.maxBlk.toNat ∧ (2#2).getLsbD 0 = false ∧ (1#2).getLsbD 1 = false ∧
    ¬ inBlock .ch0 8 0x4008 ∧ inBlock .ch0 8 0x4007 ∧ ¬ inBlock .ch1 8 0x7FFF := by
  simp [ready, State.reset, Status.reset, inBlock, bufBase]

theorem ready_procReady : ProcReady ready 8 ∧ ProcReady ready 1 ∧ ProcReady ready 0 := by
  simp only [ProcReady]
  decide

theorem bothLoaded_procReady : ProcReady bothLoaded 2 := by
  simp only [ProcReady]
  decide

theorem witness_ProcComputesRecurrence : ProcReady bothLoaded 2 ∧
    ∀ c, selects 3#2 c = true → blockWords bothLoaded.buf c 2 =
      (match c with
        | .ch0 => [0x3F800000#32, 0#32]
        | .ch1 => [0x40000000#32, 0x3F800000#32]).map some := by
  refine ⟨bothLoaded_procReady, ?_⟩
  intro c _
  cases c <;> rfl

/-- Each note of the table has a number of its own, and 0 and 13 are none. -/
theorem witness_ResolveFollowsNoteTable : (0#32).toNat = 0 ∧ 13 ≤ (13#32).toNat ∧
    13 ≤ (0xFFFFFFFF#32).toNat ∧ ¬ 13 ≤ (12#32).toNat := by decide

/-- A rate for each line of CLAMPFS, with the default limits. -/
theorem witness_ClampFsFollowsRule :
    isNaN64 0x7FF8000000000000#64 = true ∧
    gt64 Config.default.fsMin 0x3FEFFFFFFFFFFFFF#64 = true ∧
    (isNaN64 0x412E848000000001#64 = false ∧ gt64 Config.default.fsMin 0x412E848000000001#64 = false ∧
      gt64 0x412E848000000001#64 Config.default.fsMax = true) ∧
    (isNaN64 0x412E848000000000#64 = false ∧ gt64 Config.default.fsMin 0x412E848000000000#64 = false ∧
      gt64 0x412E848000000000#64 Config.default.fsMax = false) := by decide +kernel

theorem witness_ClampFsLandsInRange : Config.default.legal = true := by decide

/-- A clean block on which a command raises nothing, and one case for each error. -/
theorem witness_CommandErrors : State.reset.status.err = false ∧ State.reset.status.ecode = 0#4 ∧
    ready.status.err = false ∧ ready.status.ecode = 0#4 ∧
    (∃ t, exec .prepare State.reset = .next t ∧ t.status.ecode = 4#4) ∧
    (∃ t, exec .update State.reset = .next t ∧ t.status.ecode = 2#4) ∧
    (∃ t, exec (.proc 0#2 9) ready = .next t ∧ t.status.ecode = 3#4) ∧
    (∃ t, exec (.proc 0#2 8) ready = .next t ∧ t.status.ecode = 0#4) :=
  ⟨rfl, rfl, rfl, rfl, ⟨_, rfl, rfl⟩, ⟨_, rfl, rfl⟩, ⟨_, rfl, rfl⟩, ⟨_, rfl, rfl⟩⟩

theorem witness_RaisingCommandHasNoOtherEffect :
    ∃ t, exec (.proc 1#2 9) ready = .next t ∧ ready.status.err = false ∧ t.status.err = true :=
  ⟨_, rfl, rfl, rfl⟩

theorem witness_UnpreparedCommandsRaise : State.reset.status.prep = false := rfl

theorem witness_ProcCountRange : ready.status.prep = true ∧ ready.maxBlk.toNat < 9 := by decide

/-- A step that keeps an error, and the two that clear it. -/
theorem witness_ErrorsAreSticky :
    (∃ t, step (next (.ctrlWrite 5#32) { ready with
        status := { ready.status with err := true, ecode := 3#4 } }) = .next t ∧
      t.status.err = true ∧ t.status.ecode = 3#4) ∧
    (∃ t, step (next (.hostWrite 0x0000#16 0x0000000F#32) ready) = .next t) ∧
    (∃ t, step (next .powerOn ready) = .next t) :=
  ⟨⟨_, rfl, rfl, rfl⟩, ⟨_, rfl⟩, ⟨_, rfl⟩⟩

/-- A step that sets PREP, and the two that clear it. -/
theorem witness_PrepTransitions :
    (∃ t, step (next (.hostWrite 0x0000#16 0x00000001#32) (asked 0#32 0x40E58880#32 0#32 1#32)) =
      .next t ∧ t.status.prep = true) ∧
    (∃ t, step (next (.hostWrite 0x0000#16 0x0000000F#32) ready) = .next t ∧ t.status.prep = false) ∧
    (∃ t, step (next .powerOn ready) = .next t ∧ t.status.prep = false) :=
  ⟨⟨_, rfl, rfl⟩, ⟨_, rfl, rfl⟩, ⟨_, rfl, rfl⟩⟩

theorem witness_CommandsAndNote : (∃ t, exec (.setc 1#2) ready = .next t) ∧
    Instr.setc 1#2 ≠ .update ∧ Instr.setc 1#2 ≠ .prepare :=
  ⟨⟨_, rfl⟩, by decide, by decide⟩

/-- Events of both ports, followed by each of the accesses that read NOTE. -/
theorem witness_NoteIsSequentiallyConsistent :
    (∃ t, Host.Core.run core 2 { ready with pending :=
        [.ctrlWrite 5#32, .hostWrite 0x0002#16 7#32] ++ [.ctrlRead] } = .next t ∧
      t.pending = [.ctrlRead]) ∧
    (∃ t, Host.Core.run core 2 { ready with pending :=
        [.hostWrite 0x0002#16 7#32, .ctrlWrite 5#32] ++ [.hostRead 0x0002#16] } = .next t ∧
      t.note = 5#32) ∧
    (∃ t, Host.Core.run core 1 { ready with pending :=
        [.ctrlWrite 5#32] ++ [.hostWrite 0x0000#16 0x00000002#32] } = .next t ∧
      t.status.prep = true) :=
  ⟨⟨_, rfl, rfl⟩, ⟨_, rfl, rfl⟩, ⟨_, rfl, rfl⟩⟩

/-- A step that changes FS and MAXBLK, and a command that is not SRST. -/
theorem witness_ConfigurationWriters :
    (∃ t, step (next .powerOn ready) = .next t ∧ t.maxBlk ≠ ready.maxBlk ∧ t.fs ≠ ready.fs) ∧
    (∃ t, exec (.hrst 1#2) ready = .next t) ∧ Instr.hrst 1#2 ≠ .srst :=
  ⟨⟨_, rfl, by decide, by decide⟩, ⟨_, rfl⟩, by decide⟩

theorem bothLoaded_inv : (next (.hostWrite 0x0000#16 0x00020034#32) bothLoaded).Inv := by
  simp only [State.Inv, Status.errorConsistent, State.preparedRanges]
  decide

theorem witness_StepKeepsInv : (next (.hostWrite 0x0000#16 0x00020034#32) bothLoaded).Inv ∧
    ∃ t, step (next (.hostWrite 0x0000#16 0x00020034#32) bothLoaded) = .next t :=
  ⟨bothLoaded_inv, _, rfl⟩

/-- A prepared block with a designed set, and a run of two commands from reset. -/
theorem witness_DesignedSetsStayEqual :
    (next (.hostWrite 0x0000#16 0x00000002#32) ready).oneDesignedSet ∧
    (∀ e, (next (.hostWrite 0x0000#16 0x00000002#32) ready).pending.head? = some e →
      isSetc e = false) ∧
    (∃ t, step (next (.hostWrite 0x0000#16 0x00000002#32) ready) = .next t) ∧
    (∀ e ∈ [Event.hostWrite 0x0003#16 8#32, Event.hostWrite 0x0000#16 0x00000001#32],
      isSetc e = false) ∧
    (∃ t, Host.Core.run core 2 { State.reset with pending :=
      [.hostWrite 0x0003#16 8#32, .hostWrite 0x0000#16 0x00000001#32] } = .next t ∧
      t.status.prep = true) := by
  refine ⟨?_, ?_, ⟨_, rfl⟩, ?_, ⟨_, rfl, rfl⟩⟩
  · simp only [State.oneDesignedSet]
    decide
  · intro e h
    cases h
    decide
  · intro e h
    simp only [List.mem_cons, List.not_mem_nil, or_false] at h
    rcases h with rfl | rfl <;> decide

/-- Finite coefficients with B0's sign clear, an infinite A2, and a block of two zeros. -/
theorem witness_SilenceInSilenceOut :
    ProcReady (loaded setK Hist.zero [0#32, 0#32]) 2 ∧ selects 1#2 .ch0 = true ∧
    (loaded setK Hist.zero [0#32, 0#32]).hist.get .ch0 = ⟨0#32, 0#32, 0#32, 0#32⟩ ∧
    ((loaded setK Hist.zero [0#32, 0#32]).coef.get .ch0).finite = true ∧
    (∀ i < 2, (loaded setK Hist.zero [0#32, 0#32]).buf.find (bufBase .ch0 + i) = some 0#32) ∧
    setK.b0.getLsbD 31 = false ∧
    ProcReady (loaded ⟨0#32, 0#32, 0#32, 0#32, 0xFF800000#32⟩ Hist.zero [0#32, 0#32]) 2 ∧
    ((loaded ⟨0#32, 0#32, 0#32, 0#32, 0xFF800000#32⟩ Hist.zero [0#32, 0#32]).coef.get .ch0).finite =
      false := by
  simp only [ProcReady]
  decide +kernel

/-- The canonical NaN in Y1, and in Y2. -/
theorem witness_NanStaysInHistory :
    ProcReady (loaded setK ⟨0#32, 0#32, 0x7FC00000#32, 0#32⟩ []) 1 ∧ selects 1#2 .ch0 = true ∧
    isNaN32 ((loaded setK ⟨0#32, 0#32, 0x7FC00000#32, 0#32⟩ []).hist.get .ch0).y1 = true ∧
    ProcReady (loaded setK ⟨0#32, 0#32, 0#32, 0x7FC00000#32⟩ []) 1 ∧
    isNaN32 ((loaded setK ⟨0#32, 0#32, 0#32, 0x7FC00000#32⟩ []).hist.get .ch0).y2 = true := by
  simp only [ProcReady]
  decide +kernel

theorem bothLoaded_written : ∀ c, ∀ i < 2, bothLoaded.buf.find (bufBase c + i) ≠ none := by
  intro c
  cases c <;> decide

theorem witness_ChannelsAreIndependent : ProcReady bothLoaded 2 ∧
    bothLoaded.buf.wf bothLoaded.cfg.bufCap = true ∧
    (∀ c, ∀ i < 2, bothLoaded.buf.find (bufBase c + i) ≠ none) ∧
    ∃ t, exec (.proc 3#2 2) bothLoaded = .next t :=
  ⟨bothLoaded_procReady, by decide, bothLoaded_written, _, rfl⟩

/-- Two states that agree on channel 0 and differ in channel 1's coefficients and in NOTE. -/
theorem witness_OutputDependsOnOwnChannel :
    let s₁ := bothLoaded
    let s₂ := { bothLoaded with coef := ⟨setK, Coef.identity⟩, note := 9#32 }
    ProcReady s₁ 2 ∧ ProcReady s₂ 2 ∧ selects 1#2 .ch0 = true ∧ selects 3#2 .ch0 = true ∧
    s₁.coef.get .ch0 = s₂.coef.get .ch0 ∧ s₁.hist.get .ch0 = s₂.hist.get .ch0 ∧
    (∀ i < 2, s₁.buf.find (bufBase .ch0 + i) ≠ none ∧
      s₁.buf.find (bufBase .ch0 + i) = s₂.buf.find (bufBase .ch0 + i)) ∧
    (∃ t, exec (.proc 1#2 2) s₁ = .next t) ∧ (∃ t, exec (.proc 3#2 2) s₂ = .next t) :=
  ⟨bothLoaded_procReady, bothLoaded_procReady, by decide, by decide, rfl, rfl,
    fun i h => ⟨bothLoaded_written .ch0 i h, rfl⟩, ⟨_, rfl⟩, ⟨_, rfl⟩⟩

/-- The largest finite binary64. -/
theorem witness_TrigBounded : isFiniteBits binary64 (0x7FEFFFFFFFFFFFFF#64 : F64).toNat := by
  unfold isFiniteBits
  decide +kernel

/-- The smallest and the largest subnormal, and the smallest normal number. -/
theorem witness_SubnormalsBecomeZeros :
    let sub (v : F32) : Prop := v.extractLsb' 23 8 = 0#8 ∧ v.extractLsb' 0 23 ≠ 0#23
    sub 0x00000001#32 ∧ sub 0x807FFFFF#32 ∧ ¬ sub 0x00800000#32 ∧ ¬ sub 0x80000000#32 := by
  simp only
  decide

theorem witness_RoundingIsNearestEven : (binary32 = binary32 ∨ binary32 = binary64) ∧ (3 : Nat) ≠ 0 := by
  decide

theorem realOf_one64 : realOf binary64 (0x3FF0000000000000#64 : F64).toNat = 1 := by
  have h : unpack binary64 (0x3FF0000000000000#64 : F64).toNat = .fin false (2 ^ 52) (-52) := by
    decide +kernel
  rw [realOf, h]
  simp only [realOfParts, signedMag]
  norm_num

theorem witness_Binary64IsCorrectlyRounded :
    isFiniteBits binary64 (0x3FF0000000000000#64 : F64).toNat ∧
    realOf binary64 (0x3FF0000000000000#64 : F64).toNat ≠ 0 ∧
    0 ≤ realOf binary64 (0x3FF0000000000000#64 : F64).toNat := by
  refine ⟨?_, by rw [realOf_one64]; exact one_ne_zero, by rw [realOf_one64]; exact zero_le_one⟩
  unfold isFiniteBits
  decide +kernel

/-- A number that becomes a subnormal binary32, and one that overflows. -/
theorem witness_Cvt32IsRoundedThenFlushed :
    isFiniteBits binary64 (0x3790000000000000#64 : F64).toNat ∧
    isFiniteBits binary64 (0x7FEFFFFFFFFFFFFF#64 : F64).toNat := by
  unfold isFiniteBits
  decide +kernel

theorem witness_Binary32IsRoundedThenFlushed :
    isFinite32 0x7F7FFFFF#32 = true ∧ isFinite32 0x80000001#32 = true := by decide +kernel

/-- A NaN, the largest finite number, a subnormal that counts as a zero, and a normal one that does
not. -/
theorem witness_Binary32SpecialValues : isNaN32 0x7F800001#32 = true ∧
    isNaN32 0x7F800000#32 = false ∧ isFinite32 0x7F7FFFFF#32 = true ∧
    isFinite32 0x807FFFFF#32 = true ∧ isZero32 (daz32 0x807FFFFF#32) = true ∧
    isFinite32 0x80800000#32 = true ∧ isZero32 (daz32 0x80800000#32) = false := by decide +kernel

/-- The two ends of the range of rates. -/
theorem witness_DesignedCoefficientsAreFinite :
    Config.default.fsMin.toNat ≤ (0x3FF0000000000000#64 : F64).toNat ∧
    (0x412E848000000000#64 : F64).toNat ≤ Config.default.fsMax.toNat := by decide

theorem witness_BypassSet : (0#32).toNat = 0 ∧ 13 ≤ (13#32).toNat ∧
    Config.default.fsMin.toNat ≤ (0x40E5888000000000#64 : F64).toNat ∧
    (0x40E5888000000000#64 : F64).toNat ≤ Config.default.fsMax.toNat := by decide

/-- Operands whose product underflows to -0, a divisor, the lowest finite number, a number that converts
to -0, an infinity and two NaNs. -/
theorem witness_SignsAndNonFiniteOperands :
    isFiniteBits binary64 (0x8000000000000001#64 : F64).toNat ∧
    isFiniteBits binary64 (0x3FD0000000000000#64 : F64).toNat ∧
    isFiniteBits binary64 (0xFFEFFFFFFFFFFFFF#64 : F64).toNat ∧
    realOf binary64 (0x3FF0000000000000#64 : F64).toNat ≠ 0 ∧
    isFinite32 0x80800000#32 = true ∧ isFinite32 0x00800000#32 = true ∧
    isNaN64 0xB690000000000000#64 = false ∧ isNaN64 0xFFF0000000000000#64 = false ∧
    isNaN64 0x7FF0000000000001#64 = true ∧ isNaN64 0xFFFFFFFFFFFFFFFF#64 = true := by
  refine ⟨?_, ?_, ?_, by rw [realOf_one64]; exact one_ne_zero, by decide +kernel⟩ <;>
  · unfold isFiniteBits
    decide +kernel

/-- A product of two smallest normal numbers underflows to the zero with its sign (IEEE 754). -/
theorem test_mul32_underflow_sign : mul32 0x80800000#32 0x00800000#32 = 0x80000000#32 := by
  decide +kernel

end Sys2Proof.Tests
end

section
/-! PROOFS. Rounding a signed magnitude is correct rounding, and it does not pass a power of two
(00_scope.md R11, R13, R14). -/

namespace Sys2Proof.Machine

/-! ## Formats -/

/-- What the laws of rounding need of a format; binary32 and binary64 meet it. -/
structure FloatFormat.Standard (f : FloatFormat) : Prop where
  frac : 1 ≤ f.frac
  expo : 2 ≤ f.expo

theorem binary32_standard : binary32.Standard := ⟨by decide, by decide⟩

theorem binary64_standard : binary64.Standard := ⟨by decide, by decide⟩

theorem FloatFormat.Standard.infBits_pos {f : FloatFormat} (hf : f.Standard) : 0 < infBits f := by
  have h1 : 1 < 2 ^ f.expo := Nat.one_lt_two_pow (by have := hf.expo; omega)
  exact Nat.mul_pos (by omega) (Nat.two_pow_pos _)

theorem overflowBound_pos (f : FloatFormat) : 0 < overflowBound f := by
  have h : 1 < 2 ^ (f.frac + 2) := Nat.one_lt_two_pow (by omega)
  rw [overflowBound, realOfParts_eq]
  exact mul_pos (by norm_num) (mul_pos (by exact_mod_cast (by omega)) (two_zpow_pos _))

/-! ## Rounded magnitudes -/

@[simp] theorem magValue_zero (f : FloatFormat) : magValue f 0 = 0 := by
  simp [magValue]

theorem magValue_strictMono (f : FloatFormat) : StrictMono (magValue f) := fun _ _ h => magValue_lt f h

@[simp] theorem realOfParts_zero (neg : Bool) (e : Int) : realOfParts neg 0 e = 0 := by
  simp [realOfParts_eq]

@[simp] theorem roundSigned_zero (f : FloatFormat) (neg : Bool) (e : Int) :
    roundSigned f neg 0 e = withSign f neg 0 := by
  simp [roundSigned, roundBits]

theorem roundSigned_lt (f : FloatFormat) (neg : Bool) (m : Nat) (e : Int) :
    roundSigned f neg m e < 2 ^ (f.frac + f.expo + 1) := withSign_lt f neg (roundBits_le f m e)

/-- A rounded result has the sign it was rounded with. -/
@[simp] theorem signBit_roundSigned (f : FloatFormat) (neg : Bool) (m : Nat) (e : Int) :
    signBit f (roundSigned f neg m e) = neg := signBit_withSign f neg (roundBits_le f m e)

/-- The zero of either sign is zero, correctly rounded. -/
theorem isRounded_zero {f : FloatFormat} (hf : f.Standard) (neg : Bool) :
    IsRounded f 0 (withSign f neg 0) := by
  have hr : realOf f (withSign f neg 0) = 0 := by simp [realOf_withSign f neg hf.infBits_pos]
  rw [IsRounded, abs_zero, if_neg (not_le.2 (overflowBound_pos f)), hr]
  refine ⟨isFiniteBits_withSign f neg hf.infBits_pos, fun w _ => ⟨by simp, fun heq hne => ?_⟩⟩
  rw [sub_zero, sub_zero, abs_zero] at heq
  exact absurd (abs_eq_zero.1 heq.symm) hne

/-- The real number that a count of last places stands for. -/
theorem mul_lastPlace (f : FloatFormat) (m : Nat) (e : Int) (x : ℝ) :
    x * 2 ^ (-lastPlace f m e) * 2 ^ (minExp f + ((lastPlace f m e - minExp f).toNat : Int)) = x := by
  rw [lastPlace_eq, mul_assoc, ← zpow_add₀ (by norm_num), neg_add_cancel, zpow_zero, mul_one]

/-- A magnitude whose count of last places rounds `x` correctly is `x` rounded. -/
theorem isRounded_of_lastCount {f : FloatFormat} (hf : f.Standard) (neg : Bool) {m : Nat} {e : Int} {x : ℝ}
    (hm : m ≠ 0) (h : RoundedCount f (lastPlace f m e - minExp f).toNat (lastCount f m e)
      (x * 2 ^ (-lastPlace f m e))) :
    IsRounded f ((if neg then -1 else 1) * x) (roundSigned f neg m e) := by
  have hr := isRounded_of_count f hf.frac hf.expo neg h
  rwa [mul_lastPlace, ← roundBits_eq f e hm] at hr

/-- Rounding is to nearest, ties to even, with overflow to signed infinity (R14, R13). -/
theorem isRounded_roundSigned {f : FloatFormat} (hf : f.Standard) (neg : Bool) (m : Nat) (e : Int) :
    IsRounded f (realOfParts neg m e) (roundSigned f neg m e) := by
  rcases eq_or_ne m 0 with rfl | hm
  · rw [realOfParts_zero, roundSigned_zero]
    exact isRounded_zero hf neg
  · rw [realOfParts_eq]
    refine isRounded_of_lastCount hf neg hm ?_
    have hy : (m : ℝ) * 2 ^ e * 2 ^ (-lastPlace f m e) = (m : ℝ) * 2 ^ (e - lastPlace f m e) := by
      rw [mul_assoc, ← zpow_add₀ (by norm_num), ← sub_eq_add_neg]
    rw [hy]
    exact lastCount_rounded f e hm

/-- A magnitude of which `Q` is the whole part in units of `2^(g + 1)` is rounded by `2 Q` and a last bit
that says whether something is left over, if `Q` is long enough. -/
theorem isRounded_sticky {f : FloatFormat} (hf : f.Standard) (neg : Bool) {Q : Nat} {g : Int} {x : ℝ}
    (hQ : 2 ^ (f.frac + 1) ≤ Q) (hlo : (Q : ℝ) * 2 ^ (g + 1) ≤ x)
    (hhi : x < ((Q : ℝ) + 1) * 2 ^ (g + 1)) {sticky : Nat}
    (hs : sticky = if x = (Q : ℝ) * 2 ^ (g + 1) then 0 else 1) :
    IsRounded f ((if neg then -1 else 1) * x) (roundSigned f neg (2 * Q + sticky) g) := by
  subst hs
  by_cases heq : x = (Q : ℝ) * 2 ^ (g + 1)
  · have hx : ((2 * Q : Nat) : ℝ) * 2 ^ g = x := by
      rw [heq, zpow_add_one₀ (by norm_num)]
      push_cast
      ring
    rw [if_pos heq, Nat.add_zero, ← hx, ← realOfParts_eq]
    exact isRounded_roundSigned hf neg (2 * Q) g
  · rw [if_neg heq]
    exact isRounded_of_lastCount hf neg (by omega)
      (lastCount_sticky f hQ (lt_of_le_of_ne hlo (Ne.symm heq)) hhi)

/-! ## Finite patterns -/

/-- The reading of a finite pattern: its sign, a significand of at most `frac + 1` bits that is 0 only for
a zero, and its real value. -/
theorem unpack_finite {f : FloatFormat} {w : Nat} (h : isFiniteBits f w) :
    ∃ m e, unpack f w = .fin (signBit f w) m e ∧ m < 2 ^ (f.frac + 1) ∧ (m = 0 ↔ magBits f w = 0) ∧
      realOf f w = realOfParts (signBit f w) m e := by
  obtain ⟨m, e, hu, hz⟩ := unpack_of_lt_infBits f h
  refine ⟨m, e, hu, ?_, hz, by rw [realOf, hu]⟩
  have hP := Nat.two_pow_pos f.frac
  have h2 : 2 ^ (f.frac + 1) = 2 * 2 ^ f.frac := by rw [Nat.pow_succ]; omega
  unfold isFiniteBits at h
  simp only [unpack] at hu
  rw [if_neg (by omega), if_neg (by omega)] at hu
  split at hu
  · obtain ⟨-, rfl, -⟩ := FloatValue.fin.inj hu
    omega
  · obtain ⟨-, rfl, -⟩ := FloatValue.fin.inj hu
    have := Nat.mod_lt (magBits f w) hP
    omega

theorem realOfParts_eq_zero {neg : Bool} {m : Nat} {e : Int} : realOfParts neg m e = 0 ↔ m = 0 := by
  rw [realOfParts_eq]
  have := (two_zpow_pos e).ne'
  cases neg <;> simp [this]

theorem realOfParts_neg (neg : Bool) (m : Nat) (e : Int) :
    realOfParts (!neg) m e = -realOfParts neg m e := by
  cases neg <;> simp [realOfParts_eq]

/-- A correctly rounded result is no NaN. -/
theorem IsRounded.magBits_le {f : FloatFormat} {x : ℝ} {r : Nat} (h : IsRounded f x r) :
    magBits f r ≤ infBits f := by
  unfold IsRounded at h
  split at h
  · rw [h, magBits_withSign f _ le_rfl]
  · exact h.1.le

theorem abs_realOf {f : FloatFormat} {w : Nat} (h : isFiniteBits f w) :
    |realOf f w| = magValue f (magBits f w) := by
  rw [realOf_finite f h, abs_mul, abs_of_nonneg (magValue_nonneg f _)]
  cases signBit f w <;> simp

/-- Magnitude bits as exponent steps and a count of last places, which is below `2^frac` only for a
subnormal. -/
theorem steps_of_bits (f : FloatFormat) {b : Nat} (hpos : 0 < b) :
    ∃ k d, b = k * 2 ^ f.frac + d ∧ 0 < d ∧ (k = 0 ∨ 2 ^ f.frac ≤ d) ∧ d < 2 ^ (f.frac + 1) := by
  have hP := Nat.two_pow_pos f.frac
  have h2 : 2 ^ (f.frac + 1) = 2 * 2 ^ f.frac := by rw [Nat.pow_succ]; omega
  rcases Nat.lt_or_ge b (2 ^ f.frac) with hsub | hnorm
  · exact ⟨0, b, by omega, hpos, .inl rfl, by omega⟩
  · have hm := Nat.mod_lt b hP
    have hdiv := Nat.div_add_mod' b (2 ^ f.frac)
    obtain ⟨k, hk⟩ := Nat.exists_eq_add_one.2 ((Nat.one_le_div_iff hP).2 hnorm)
    rw [hk, Nat.add_mul, Nat.one_mul] at hdiv
    exact ⟨k, 2 ^ f.frac + b % 2 ^ f.frac, by omega, by omega, .inr (by omega), by omega⟩

/-- Every finite number is below the overflow bound. -/
theorem abs_realOf_lt_overflowBound {f : FloatFormat} (hf : f.Standard) {w : Nat} (h : isFiniteBits f w) :
    |realOf f w| < overflowBound f := by
  rw [abs_realOf h]
  unfold isFiniteBits at h
  generalize magBits f w = b at h ⊢
  rcases Nat.eq_zero_or_pos b with rfl | hpos
  · rw [magValue_zero]
    exact overflowBound_pos f
  obtain ⟨k, d, hb, hd, hk, hlt⟩ := steps_of_bits f hpos
  have hcount : RoundedCount f k d (d : ℝ) :=
    { pos := by exact_mod_cast hd
      below := by exact_mod_cast hlt
      normal := hk.imp_right fun h => by exact_mod_cast h
      near := by norm_num
      tie := fun h => by norm_num at h }
  rw [hb, magValue_steps f hk hlt.le]
  exact not_le.1 fun hle => absurd ((overflow_iff f hf.expo hcount).1 hle) (by omega)

/-! ## Powers of two as bounds -/

/-- The format has a normal number of value `2^k`. -/
def FloatFormat.hasPower (f : FloatFormat) (k : Int) : Bool :=
  decide (minExp f + f.frac ≤ k) && decide (k + 2 < minExp f + f.frac + 2 ^ f.expo)

/-- The pattern of `2^k`. -/
def powBits (f : FloatFormat) (k : Int) : Nat := (k - minExp f - f.frac).toNat * 2 ^ f.frac + 2 ^ f.frac

section
variable {f : FloatFormat} {k : Int} (hk : f.hasPower k = true)
include hk

theorem powBits_lt : powBits f k < infBits f := by
  rw [FloatFormat.hasPower, Bool.and_eq_true, decide_eq_true_eq, decide_eq_true_eq] at hk
  obtain ⟨hlo, hhi⟩ := hk
  have hcast : ((2 ^ f.expo : Nat) : Int) = 2 ^ f.expo := by push_cast; rfl
  rw [powBits, infBits, ← Nat.succ_mul]
  exact Nat.mul_lt_mul_of_pos_right (by omega) (Nat.two_pow_pos _)

theorem magValue_powBits : magValue f (powBits f k) = 2 ^ k := by
  rw [FloatFormat.hasPower, Bool.and_eq_true, decide_eq_true_eq, decide_eq_true_eq] at hk
  rw [powBits, magValue_steps f (.inr le_rfl) (Nat.pow_le_pow_right (by norm_num) (Nat.le_succ _)),
    Nat.cast_pow, Nat.cast_ofNat, ← zpow_natCast, ← zpow_add₀ (by norm_num)]
  congr 1
  omega

end

/-- The pattern is a finite number of magnitude at most `2^k`. -/
def Within (f : FloatFormat) (k : Int) (w : Nat) : Prop := isFiniteBits f w ∧ |realOf f w| ≤ 2 ^ k

/-- The pattern is a finite number that is at least `2^k`. -/
def AtLeast (f : FloatFormat) (k : Int) (w : Nat) : Prop := isFiniteBits f w ∧ 2 ^ k ≤ realOf f w

theorem AtLeast.ne_zero {f : FloatFormat} {k : Int} {w : Nat} (h : AtLeast f k w) : realOf f w ≠ 0 :=
  ((two_zpow_pos k).trans_le h.2).ne'

/-- A smaller bound is a bound. -/
theorem Within.mono {f : FloatFormat} {j k : Int} {w : Nat} (h : Within f j w) (hjk : j ≤ k) :
    Within f k w :=
  ⟨h.1, h.2.trans (two_zpow_le hjk)⟩

theorem magBits_le (f : FloatFormat) (w : Nat) : magBits f w ≤ w := Nat.mod_le _ _

/-- Magnitudes are bounded as their bits are. -/
theorem within_of_magBits {f : FloatFormat} {k : Int} {w : Nat} (hk : f.hasPower k = true)
    (h : magBits f w ≤ powBits f k) : Within f k w := by
  have hfin : isFiniteBits f w := h.trans_lt (powBits_lt hk)
  refine ⟨hfin, ?_⟩
  rw [abs_realOf hfin, ← magValue_powBits hk]
  exact (magValue_strictMono f).monotone h

theorem atLeast_of_bits {f : FloatFormat} {k : Int} {w : Nat} (hk : f.hasPower k = true)
    (hlo : powBits f k ≤ w) (hhi : w < infBits f) : AtLeast f k w := by
  have hw : w = withSign f false w := rfl
  rw [hw]
  refine ⟨isFiniteBits_withSign f false hhi, ?_⟩
  rw [realOf_withSign f false hhi, ← magValue_powBits hk]
  simpa using (magValue_strictMono f).monotone hlo

section
variable {f : FloatFormat} (hf : f.Standard) {k : Int} (hk : f.hasPower k = true)
include hf hk

theorem lt_overflowBound_of_le_zpow {x : ℝ} (hx : |x| ≤ 2 ^ k) : |x| < overflowBound f := by
  have hfin := isFiniteBits_withSign f false (powBits_lt hk)
  have h := abs_realOf_lt_overflowBound hf hfin
  rw [abs_realOf hfin, magBits_withSign f false (powBits_lt hk).le, magValue_powBits hk] at h
  exact hx.trans_lt h

/-- Rounding does not pass a power of two. -/
theorem IsRounded.within {x : ℝ} {r : Nat} (h : IsRounded f x r) (hx : |x| ≤ 2 ^ k) : Within f k r := by
  have hlt := lt_overflowBound_of_le_zpow hf hk hx
  have hpow := fun neg => realOf_withSign f neg (powBits_lt hk)
  rw [magValue_powBits hk] at hpow
  obtain ⟨hlo, hhi⟩ := abs_le.1 hx
  have hge := h.ge hlt (isFiniteBits_withSign f true (powBits_lt hk)) (by rw [hpow]; simpa using hlo)
  have hle := h.le hlt (isFiniteBits_withSign f false (powBits_lt hk)) (by rw [hpow]; simpa using hhi)
  rw [hpow] at hge hle
  exact ⟨(h.finite hlt).1, abs_le.2 ⟨by simpa using hge, by simpa using hle⟩⟩

end

theorem IsRounded.atLeast {f : FloatFormat} {k : Int} (hk : f.hasPower k = true) {x : ℝ} {r : Nat}
    (h : IsRounded f x r) (hlt : |x| < overflowBound f) (hx : 2 ^ k ≤ x) : AtLeast f k r := by
  have hpow := realOf_withSign f false (powBits_lt hk)
  rw [magValue_powBits hk] at hpow
  have hge := h.ge hlt (isFiniteBits_withSign f false (powBits_lt hk)) (by rw [hpow]; simpa using hx)
  rw [hpow] at hge
  exact ⟨(h.finite hlt).1, by simpa using hge⟩

end Sys2Proof.Machine
end

section
/-! PROOFS. The operations on readings of patterns: correct rounding of the exact result on finite
operands, and the width of every result (00_scope.md R11, R13). -/

namespace Sys2Proof.Machine

/-! ## Widths of results -/

theorem canonicalNaN_lt {f : FloatFormat} (hf : f.Standard) : canonicalNaN f < 2 ^ (f.frac + f.expo + 1) := by
  have h1 := infBits_lt f
  have h2 : 2 ^ (f.frac - 1) < signWeight f :=
    Nat.pow_lt_pow_right (by norm_num) (by have := hf.expo; omega)
  have h3 : 2 ^ (f.frac + f.expo + 1) = 2 * signWeight f := by rw [signWeight, Nat.pow_succ]; omega
  rw [canonicalNaN]
  omega

theorem signedInf_lt (f : FloatFormat) (n : Bool) : withSign f n (infBits f) < 2 ^ (f.frac + f.expo + 1) :=
  withSign_lt f n le_rfl

theorem signedZero_lt (f : FloatFormat) (n : Bool) : withSign f n 0 < 2 ^ (f.frac + f.expo + 1) :=
  withSign_lt f n (Nat.zero_le _)

section
variable {f : FloatFormat} (hf : f.Standard)
include hf

theorem addValue_lt (u v : FloatValue) : addValue f u v < 2 ^ (f.frac + f.expo + 1) := by
  unfold addValue
  split
  · exact canonicalNaN_lt hf
  · exact canonicalNaN_lt hf
  · split
    exacts [signedInf_lt f _, canonicalNaN_lt hf]
  · exact signedInf_lt f _
  · exact signedInf_lt f _
  · simp only
    split
    exacts [signedZero_lt f _, roundSigned_lt f _ _ _]

theorem mulValue_lt (u v : FloatValue) : mulValue f u v < 2 ^ (f.frac + f.expo + 1) := by
  unfold mulValue
  split
  · exact canonicalNaN_lt hf
  · exact canonicalNaN_lt hf
  · exact signedInf_lt f _
  · split
    exacts [canonicalNaN_lt hf, signedInf_lt f _]
  · split
    exacts [canonicalNaN_lt hf, signedInf_lt f _]
  · exact roundSigned_lt f _ _ _

theorem divValue_lt (u v : FloatValue) : divValue f u v < 2 ^ (f.frac + f.expo + 1) := by
  unfold divValue
  split
  · exact canonicalNaN_lt hf
  · exact canonicalNaN_lt hf
  · exact canonicalNaN_lt hf
  · exact signedInf_lt f _
  · exact signedZero_lt f _
  · split
    · split
      exacts [canonicalNaN_lt hf, signedInf_lt f _]
    · exact roundSigned_lt f _ _ _

theorem sqrtValue_lt (u : FloatValue) : sqrtValue f u < 2 ^ (f.frac + f.expo + 1) := by
  unfold sqrtValue
  split
  · exact canonicalNaN_lt hf
  · split
    exacts [canonicalNaN_lt hf, signedInf_lt f false]
  · split
    · exact signedZero_lt f _
    · split
      exacts [canonicalNaN_lt hf, roundSigned_lt f _ _ _]

end

/-! ## Correct rounding on finite operands -/

/-- A signed magnitude against a smaller exponent is a whole number of its units. -/
theorem realOfParts_shift (neg : Bool) (m : Nat) {e e' : Int} (h : e' ≤ e) :
    realOfParts neg m e = (signedMag neg (m * 2 ^ (e - e').toNat) : ℝ) * 2 ^ e' := by
  rw [realOfParts, two_zpow_split e e' h]
  cases neg <;> simp [signedMag] <;> ring

theorem signedMag_natAbs (i : Int) : signedMag (decide (i < 0)) i.natAbs = i := by
  rcases lt_or_ge i 0 with h | h
  · simp [signedMag, h, abs_of_neg h]
  · simp [signedMag, not_lt.2 h, abs_of_nonneg h]

theorem addValue_isRounded {f : FloatFormat} (hf : f.Standard) (n₁ n₂ : Bool) (m₁ m₂ : Nat) (e₁ e₂ : Int) :
    IsRounded f (realOfParts n₁ m₁ e₁ + realOfParts n₂ m₂ e₂)
      (addValue f (.fin n₁ m₁ e₁) (.fin n₂ m₂ e₂)) := by
  rw [realOfParts_shift n₁ m₁ (min_le_left e₁ e₂), realOfParts_shift n₂ m₂ (min_le_right e₁ e₂), ← add_mul]
  simp only [addValue]
  generalize signedMag n₁ _ = i₁
  generalize signedMag n₂ _ = i₂
  rw [← Int.cast_add]
  split
  case isTrue h0 =>
    rw [h0, Int.cast_zero, zero_mul]
    exact isRounded_zero hf _
  case isFalse =>
    have h := isRounded_roundSigned hf (decide (i₁ + i₂ < 0)) (i₁ + i₂).natAbs (min e₁ e₂)
    rwa [realOfParts, signedMag_natAbs] at h

theorem addValue_neg_isRounded {f : FloatFormat} (hf : f.Standard) (n₁ n₂ : Bool) (m₁ m₂ : Nat)
    (e₁ e₂ : Int) :
    IsRounded f (realOfParts n₁ m₁ e₁ - realOfParts n₂ m₂ e₂)
      (addValue f (.fin n₁ m₁ e₁) (negValue (.fin n₂ m₂ e₂))) := by
  rw [sub_eq_add_neg, ← realOfParts_neg]
  exact addValue_isRounded hf n₁ (!n₂) m₁ m₂ e₁ e₂

/-- The exact product. -/
theorem realOfParts_mul (n₁ n₂ : Bool) (m₁ m₂ : Nat) (e₁ e₂ : Int) :
    realOfParts n₁ m₁ e₁ * realOfParts n₂ m₂ e₂ = realOfParts (xor n₁ n₂) (m₁ * m₂) (e₁ + e₂) := by
  simp only [realOfParts_eq, zpow_add₀ (two_ne_zero (α := ℝ)), Nat.cast_mul]
  cases n₁ <;> cases n₂ <;> simp <;> ring

theorem mulValue_isRounded {f : FloatFormat} (hf : f.Standard) (n₁ n₂ : Bool) (m₁ m₂ : Nat) (e₁ e₂ : Int) :
    IsRounded f (realOfParts n₁ m₁ e₁ * realOfParts n₂ m₂ e₂)
      (mulValue f (.fin n₁ m₁ e₁) (.fin n₂ m₂ e₂)) := by
  rw [realOfParts_mul]
  exact isRounded_roundSigned hf _ _ _

/-- The exact quotient. -/
theorem realOfParts_div (n₁ n₂ : Bool) (m₁ m₂ : Nat) (e₁ e₂ : Int) :
    realOfParts n₁ m₁ e₁ / realOfParts n₂ m₂ e₂ =
      (if xor n₁ n₂ then -1 else 1) * ((m₁ : ℝ) / m₂ * 2 ^ (e₁ - e₂)) := by
  simp only [realOfParts_eq, zpow_sub₀ (two_ne_zero (α := ℝ))]
  cases n₁ <;> cases n₂ <;> simp <;> ring

theorem divValue_isRounded {f : FloatFormat} (hf : f.Standard) (n₁ n₂ : Bool) {m₁ m₂ : Nat} (e₁ e₂ : Int)
    (hm₂ : m₂ ≠ 0) (hlt : m₂ < 2 ^ (f.frac + 1)) :
    IsRounded f (realOfParts n₁ m₁ e₁ / realOfParts n₂ m₂ e₂)
      (divValue f (.fin n₁ m₁ e₁) (.fin n₂ m₂ e₂)) := by
  simp only [divValue, if_neg hm₂, divFinite]
  rcases Nat.eq_zero_or_pos m₁ with rfl | hm₁
  · simpa using isRounded_zero hf (xor n₁ n₂)
  rw [realOfParts_div]
  set k := 2 * f.frac + 5 with hk
  set n := m₁ * 2 ^ k with hn
  have hpos : (0 : ℝ) < m₂ := by exact_mod_cast Nat.pos_of_ne_zero hm₂
  set g : Int := e₁ - e₂ - k - 1 with hg
  have hx : (m₁ : ℝ) / m₂ * 2 ^ (e₁ - e₂) = (n : ℝ) / m₂ * 2 ^ (g + 1) := by
    rw [show e₁ - e₂ = (k : Int) + (g + 1) by omega, zpow_add₀ (by norm_num), zpow_natCast, hn]
    push_cast
    ring
  rw [hx]
  have hdiv := Nat.div_add_mod n m₂
  have hmod := Nat.mod_lt n (Nat.pos_of_ne_zero hm₂)
  refine isRounded_sticky hf _ ?_ ?_ ?_ ?_
  · rw [Nat.le_div_iff_mul_le (Nat.pos_of_ne_zero hm₂)]
    calc 2 ^ (f.frac + 1) * m₂ ≤ 2 ^ (f.frac + 1) * 2 ^ (f.frac + 1) := Nat.mul_le_mul_left _ hlt.le
      _ = 2 ^ (2 * f.frac + 2) := by rw [← Nat.pow_add]; congr 1; omega
      _ ≤ 1 * 2 ^ k := by rw [Nat.one_mul]; exact Nat.pow_le_pow_right (by norm_num) (by omega)
      _ ≤ n := Nat.mul_le_mul_right _ hm₁
  · exact mul_le_mul_of_nonneg_right Nat.cast_div_le (two_zpow_pos _).le
  · refine mul_lt_mul_of_pos_right ?_ (two_zpow_pos _)
    rw [div_lt_iff₀ hpos]
    exact_mod_cast (by nlinarith : n < (n / m₂ + 1) * m₂)
  · refine if_congr ?_ rfl rfl
    rw [mul_left_inj' (two_zpow_pos _).ne', div_eq_iff hpos.ne']
    norm_cast
    rw [Nat.mul_comm]
    omega

theorem sqrtValue_isRounded {f : FloatFormat} (hf : f.Standard) (neg : Bool) (m : Nat) (e : Int)
    (hx : 0 ≤ realOfParts neg m e) :
    IsRounded f (Real.sqrt (realOfParts neg m e)) (sqrtValue f (.fin neg m e)) := by
  rcases Nat.eq_zero_or_pos m with rfl | hm
  · simpa [sqrtValue] using isRounded_zero hf neg
  obtain rfl : neg = false := by
    cases neg
    · rfl
    · have := two_zpow_pos e
      have hm' : (0 : ℝ) < m := by exact_mod_cast hm
      simp only [realOfParts_eq, if_true] at hx
      nlinarith
  simp only [sqrtValue, if_neg hm.ne', Bool.false_eq_true, if_false]
  set k := 2 * (f.frac + 3) + (e % 2).toNat with hk
  set g : Int := (e - k) / 2 - 1 with hg
  set n := m * 2 ^ k with hn
  obtain ⟨hle, hlt⟩ := natSqrt_spec n
  have hG := two_zpow_pos (g + 1)
  have hsqrt : Real.sqrt (realOfParts false m e) = Real.sqrt n * 2 ^ (g + 1) := by
    have he : e = k + ((g + 1) + (g + 1)) := by omega
    have hxe : realOfParts false m e = n * (2 ^ (g + 1) * 2 ^ (g + 1)) := by
      rw [realOfParts_eq, ← zpow_add₀ (by norm_num), hn]
      conv_lhs => rw [he, zpow_add₀ (by norm_num), zpow_natCast]
      push_cast
      ring
    rw [hxe, Real.sqrt_mul (Nat.cast_nonneg n), Real.sqrt_mul_self hG.le]
  have h := isRounded_sticky hf false (Q := natSqrt n) (g := g) (x := Real.sqrt n * 2 ^ (g + 1))
    (sticky := if natSqrt n * natSqrt n = n then 0 else 1) ?_ ?_ ?_ ?_
  · rwa [hsqrt, ← one_mul (Real.sqrt n * _)]
  · by_contra hc
    have hsmall : natSqrt n + 1 ≤ 2 ^ (f.frac + 1) := by omega
    have := calc n < 2 ^ (f.frac + 1) * 2 ^ (f.frac + 1) := hlt.trans_le (Nat.mul_le_mul hsmall hsmall)
      _ = 2 ^ (2 * f.frac + 2) := by rw [← Nat.pow_add]; congr 1; omega
      _ ≤ 1 * 2 ^ k := by rw [Nat.one_mul]; exact Nat.pow_le_pow_right (by norm_num) (by omega)
      _ ≤ n := Nat.mul_le_mul_right _ hm
    exact lt_irrefl _ this
  · refine mul_le_mul_of_nonneg_right (Real.le_sqrt_of_sq_le ?_) hG.le
    rw [pow_two]
    exact_mod_cast hle
  · refine mul_lt_mul_of_pos_right ((Real.sqrt_lt' (by positivity)).2 ?_) hG
    rw [pow_two]
    exact_mod_cast hlt
  · refine if_congr ?_ rfl rfl
    rw [mul_left_inj' hG.ne', Real.sqrt_eq_iff_mul_self_eq (Nat.cast_nonneg _) (Nat.cast_nonneg _), eq_comm]
    norm_cast

end Sys2Proof.Machine
end

section
/-! PROOFS. The operations of the block on patterns (00_scope.md R7, R11 to R13), and the statements
about them. -/

namespace Sys2Proof.Machine

/-! ## Results as patterns -/

theorem add64_toNat (a b : F64) :
    (add64 a b).toNat = addValue binary64 (unpack binary64 a.toNat) (unpack binary64 b.toNat) :=
  Nat.mod_eq_of_lt (addValue_lt binary64_standard _ _)

theorem sub64_toNat (a b : F64) :
    (sub64 a b).toNat = addValue binary64 (unpack binary64 a.toNat) (negValue (unpack binary64 b.toNat)) :=
  Nat.mod_eq_of_lt (addValue_lt binary64_standard _ _)

theorem mul64_toNat (a b : F64) :
    (mul64 a b).toNat = mulValue binary64 (unpack binary64 a.toNat) (unpack binary64 b.toNat) :=
  Nat.mod_eq_of_lt (mulValue_lt binary64_standard _ _)

theorem div64_toNat (a b : F64) :
    (div64 a b).toNat = divValue binary64 (unpack binary64 a.toNat) (unpack binary64 b.toNat) :=
  Nat.mod_eq_of_lt (divValue_lt binary64_standard _ _)

theorem sqrt64_toNat (a : F64) : (sqrt64 a).toNat = sqrtValue binary64 (unpack binary64 a.toNat) :=
  Nat.mod_eq_of_lt (sqrtValue_lt binary64_standard _)

theorem isFinite32_iff (v : F32) : isFinite32 v = true ↔ isFiniteBits binary32 v.toNat := by
  rw [isFinite32, decide_eq_true_eq, isFiniteBits]

/-- A pattern that is no NaN keeps its bits when it is stored. -/
theorem bitsF32_ftz32 {v : F32} (h : magBits binary32 v.toNat ≤ infBits binary32) :
    bitsF32 (ftz32 v) = ftz32 v := by
  have hn : isNaN32 (ftz32 v) = false := by
    rw [isNaN32_ftz32, isNaN32, isNaNBits, decide_eq_false_iff_not]
    omega
  simp [bitsF32, hn]

/-- What is stored of a correctly rounded result is that result, flushed. -/
theorem stored_of_isRounded {x : ℝ} {r : Nat} (h : IsRounded binary32 x r) (hlt : r < 2 ^ 32) :
    ∃ v : F32, IsRounded binary32 x v.toNat ∧ bitsF32 (ftz32 (BitVec.ofNat 32 r)) = ftz32 v := by
  have hv : (BitVec.ofNat 32 r).toNat = r := Nat.mod_eq_of_lt hlt
  refine ⟨BitVec.ofNat 32 r, by rwa [hv], bitsF32_ftz32 ?_⟩
  rw [hv]
  exact h.magBits_le

theorem isFiniteBits_daz32 {v : F32} (h : isFinite32 v = true) : isFiniteBits binary32 (daz32 v).toNat := by
  rw [← isFinite32_iff]
  unfold daz32
  split
  · rw [isFinite32, decide_eq_true_eq, signMask_toNat]
    have : magBits binary32 (v.toNat / 2 ^ 31 * 2 ^ 31) = 0 := Nat.mul_mod_left _ (2 ^ 31)
    rw [this]
    exact binary32_standard.infBits_pos
  · exact h

/-! ## The order of the reals -/

/-- Among finite patterns the order of the keys is the order of the values. -/
theorem orderKey_lt_iff {f : FloatFormat} {a b : Nat} (ha : isFiniteBits f a) (hb : isFiniteBits f b) :
    orderKey f b < orderKey f a ↔ realOf f b < realOf f a := by
  rw [realOf_finite f ha, realOf_finite f hb, orderKey, orderKey]
  generalize magBits f a = u
  generalize magBits f b = v
  have hlt := fun i j => (magValue_strictMono f).lt_iff_lt (a := i) (b := j)
  have hu := magValue_nonneg f u
  have hv := magValue_nonneg f v
  have hu0 := hlt 0 u
  have hv0 := hlt 0 v
  rw [magValue_zero] at hu0 hv0
  cases signBit f a <;> cases signBit f b <;>
    simp only [signedMag, if_true, if_false, Bool.false_eq_true, one_mul, neg_mul, neg_lt_neg_iff,
      Nat.cast_lt, hlt]
  case false.true =>
    constructor
    · intro h
      rcases Nat.eq_zero_or_pos u with rfl | hpos
      · have := hv0.2 (by omega)
        linarith
      · have := hu0.2 hpos
        linarith
    · intro h
      by_contra hc
      obtain ⟨rfl, rfl⟩ : u = 0 ∧ v = 0 := by omega
      simp at h
  case true.false => exact iff_of_false (by omega) (by linarith)

theorem isNaN64_of_finite {a : F64} (h : isFiniteBits binary64 a.toNat) : isNaN64 a = false := by
  unfold isFiniteBits at h
  rw [isNaN64, isNaNBits, decide_eq_false_iff_not]
  omega

theorem gt64_iff {a b : F64} (ha : isFiniteBits binary64 a.toNat) (hb : isFiniteBits binary64 b.toNat) :
    gt64 a b = true ↔ realOf binary64 b.toNat < realOf binary64 a.toNat := by
  rw [← orderKey_lt_iff ha hb]
  simp [gt64, isNaN64_of_finite ha, isNaN64_of_finite hb]

/-! ## Correct rounding -/

section
variable {a b : F64} (ha : isFiniteBits binary64 a.toNat) (hb : isFiniteBits binary64 b.toNat)
include ha hb

theorem add64_isRounded :
    IsRounded binary64 (realOf binary64 a.toNat + realOf binary64 b.toNat) (add64 a b).toNat := by
  obtain ⟨m₁, e₁, hu₁, -, -, hr₁⟩ := unpack_finite ha
  obtain ⟨m₂, e₂, hu₂, -, -, hr₂⟩ := unpack_finite hb
  rw [add64_toNat, hu₁, hu₂, hr₁, hr₂]
  exact addValue_isRounded binary64_standard _ _ _ _ _ _

theorem sub64_isRounded :
    IsRounded binary64 (realOf binary64 a.toNat - realOf binary64 b.toNat) (sub64 a b).toNat := by
  obtain ⟨m₁, e₁, hu₁, -, -, hr₁⟩ := unpack_finite ha
  obtain ⟨m₂, e₂, hu₂, -, -, hr₂⟩ := unpack_finite hb
  rw [sub64_toNat, hu₁, hu₂, hr₁, hr₂]
  exact addValue_neg_isRounded binary64_standard _ _ _ _ _ _

theorem mul64_isRounded :
    IsRounded binary64 (realOf binary64 a.toNat * realOf binary64 b.toNat) (mul64 a b).toNat := by
  obtain ⟨m₁, e₁, hu₁, -, -, hr₁⟩ := unpack_finite ha
  obtain ⟨m₂, e₂, hu₂, -, -, hr₂⟩ := unpack_finite hb
  rw [mul64_toNat, hu₁, hu₂, hr₁, hr₂]
  exact mulValue_isRounded binary64_standard _ _ _ _ _ _

theorem div64_isRounded (h0 : realOf binary64 b.toNat ≠ 0) :
    IsRounded binary64 (realOf binary64 a.toNat / realOf binary64 b.toNat) (div64 a b).toNat := by
  obtain ⟨m₁, e₁, hu₁, -, -, hr₁⟩ := unpack_finite ha
  obtain ⟨m₂, e₂, hu₂, hlt, -, hr₂⟩ := unpack_finite hb
  rw [hr₂, Ne, realOfParts_eq_zero] at h0
  rw [div64_toNat, hu₁, hu₂, hr₁, hr₂]
  exact divValue_isRounded binary64_standard _ _ _ _ h0 hlt

end

theorem sqrt64_isRounded {a : F64} (ha : isFiniteBits binary64 a.toNat) (h0 : 0 ≤ realOf binary64 a.toNat) :
    IsRounded binary64 (Real.sqrt (realOf binary64 a.toNat)) (sqrt64 a).toNat := by
  obtain ⟨m, e, hu, -, -, hr⟩ := unpack_finite ha
  rw [hr] at h0 ⊢
  rw [sqrt64_toNat, hu]
  exact sqrtValue_isRounded binary64_standard _ _ _ h0

/-- Settles O53: a magnitude's count of last places is the nearest one, even on a tie. -/
theorem roundingIsNearestEven : Obligations.RoundingIsNearestEven := by
  rintro f (rfl | rfl) neg m e -
  · exact isRounded_roundSigned binary32_standard neg m e
  · exact isRounded_roundSigned binary64_standard neg m e

/-- Settles O54: each operation rounds its exact result once; a quotient and a root are rounded by a
longer one and a bit for what is left over. -/
theorem binary64IsCorrectlyRounded : Obligations.Binary64IsCorrectlyRounded := fun _ _ ha hb =>
  ⟨add64_isRounded ha hb, sub64_isRounded ha hb, mul64_isRounded ha hb, div64_isRounded ha hb,
    sqrt64_isRounded ha, gt64_iff ha hb⟩

theorem cvt32_isRounded {v : F64} (h : isFiniteBits binary64 v.toNat) :
    ∃ r : F32, IsRounded binary32 (realOf binary64 v.toNat) r.toNat ∧ cvt32 v = ftz32 r := by
  obtain ⟨m, e, hu, -, -, hr⟩ := unpack_finite h
  rw [cvt32, hu, hr]
  exact stored_of_isRounded (isRounded_roundSigned binary32_standard _ m e)
    (roundSigned_lt binary32 _ m e)

/-- Settles O55: the one rounding of `cvt32` is that of a signed magnitude. -/
theorem cvt32IsRoundedThenFlushed : Obligations.Cvt32IsRoundedThenFlushed := fun _ => cvt32_isRounded

/-- Settles O56: the flushed operands are finite, and the result rounded on them is stored flushed. -/
theorem binary32IsRoundedThenFlushed : Obligations.Binary32IsRoundedThenFlushed := by
  intro a b ha hb
  obtain ⟨m₁, e₁, hu₁, -, -, hr₁⟩ := unpack_finite (isFiniteBits_daz32 ha)
  obtain ⟨m₂, e₂, hu₂, -, -, hr₂⟩ := unpack_finite (isFiniteBits_daz32 hb)
  simp only [hr₁, hr₂, mul32, add32, sub32, hu₁, hu₂]
  exact ⟨stored_of_isRounded (mulValue_isRounded binary32_standard _ _ _ _ _ _)
      (mulValue_lt binary32_standard _ _),
    stored_of_isRounded (addValue_isRounded binary32_standard _ _ _ _ _ _)
      (addValue_lt binary32_standard _ _),
    stored_of_isRounded (addValue_neg_isRounded binary32_standard _ _ _ _ _ _)
      (addValue_lt binary32_standard _ _)⟩

/-! ## Flushing and the trigonometric bounds -/

/-- Exponent field 0 and fraction not 0: the fields of a subnormal (R12). -/
theorem isSubnormal32_fields (v : F32) :
    isSubnormal32 v = true ↔ v.extractLsb' 23 8 = 0#8 ∧ v.extractLsb' 0 23 ≠ 0#23 := by
  rw [isSubnormal32_iff, ne_eq (BitVec.extractLsb' 0 23 v), ← BitVec.toNat_inj, ← BitVec.toNat_inj,
    BitVec.extractLsb'_toNat, BitVec.extractLsb'_toNat, Nat.shiftRight_eq_div_pow, Nat.shiftRight_eq_div_pow]
  simp only [BitVec.toNat_ofNat]
  omega

theorem signMask_eq (v : F32) : v &&& 0x80000000#32 = (v.extractLsb' 31 1 ++ 0#31 : BitVec 32) := by
  apply BitVec.eq_of_toNat_eq
  have h := v.isLt
  rw [signMask_toNat, BitVec.toNat_append, BitVec.extractLsb'_toNat, Nat.shiftRight_eq_div_pow,
    Nat.shiftLeft_eq]
  simp only [BitVec.toNat_ofNat, Nat.zero_mod, Nat.or_zero]
  omega

/-- Settles O52: the test of `daz32` and `ftz32` is the one on the fields, and the mask keeps the sign. -/
theorem subnormalsBecomeZeros : Obligations.SubnormalsBecomeZeros := by
  intro v
  simp only
  rw [← isSubnormal32_fields, ← signMask_eq]
  refine ⟨fun h => ⟨by simp [daz32, h], rfl⟩, fun h => ?_⟩
  have hn := daz32_of_normal (Bool.not_eq_true _ ▸ h)
  exact ⟨hn, hn⟩

/-- The patterns of magnitude at most that of 1.0 are the finite numbers in [-1, 1]. -/
theorem within_of_inUnit64 {w : F64} (h : Config.inUnit64 w) : Within binary64 0 w.toNat :=
  within_of_magBits (by decide) h

theorem sin64_within {w : F64} (h : isFiniteBits binary64 w.toNat) :
    Within binary64 0 (Config.sin64 w).toNat := within_of_inUnit64 (Config.trig.sin_bounded w h)

theorem cos64_within {w : F64} (h : isFiniteBits binary64 w.toNat) :
    Within binary64 0 (Config.cos64 w).toNat := within_of_inUnit64 (Config.trig.cos_bounded w h)

/-- Settles O51: TRIG_BOUNDED is a bound on magnitudes, and magnitudes are ordered as their values. -/
theorem trigBounded : Obligations.TrigBounded := by
  intro w h
  have hs := sin64_within h
  have hc := cos64_within h
  rw [Within, zpow_zero] at hs hc
  exact ⟨hs, hc⟩

end Sys2Proof.Machine
end

section
/-! PROOFS. Signs, infinities, NaNs and zeros (00_scope.md R9, R11, R13). -/

namespace Sys2Proof.Machine

/-! ## Signs -/

/-- Where the divisor is no zero a quotient is a rounded magnitude. -/
theorem signBit_divValue (f : FloatFormat) (n₁ n₂ : Bool) (m₁ : Nat) {m₂ : Nat} (e₁ e₂ : Int)
    (h : m₂ ≠ 0) :
    signBit f (divValue f (.fin n₁ m₁ e₁) (.fin n₂ m₂ e₂)) = xor n₁ n₂ := by
  rw [divValue, if_neg h]
  exact signBit_roundSigned f _ _ _

theorem signBit_mulValue (f : FloatFormat) (n₁ n₂ : Bool) (m₁ m₂ : Nat) (e₁ e₂ : Int) :
    signBit f (mulValue f (.fin n₁ m₁ e₁) (.fin n₂ m₂ e₂)) = xor n₁ n₂ := signBit_roundSigned f _ _ _

theorem mul64_msb {a b : F64} (ha : isFiniteBits binary64 a.toNat) (hb : isFiniteBits binary64 b.toNat) :
    (mul64 a b).msb = xor a.msb b.msb := by
  obtain ⟨m₁, e₁, hu₁, -⟩ := unpack_finite ha
  obtain ⟨m₂, e₂, hu₂, -⟩ := unpack_finite hb
  rw [← signBit_toNat64, mul64_toNat, hu₁, hu₂, signBit_mulValue, signBit_toNat64, signBit_toNat64]

theorem div64_msb {a b : F64} (ha : isFiniteBits binary64 a.toNat) (hb : isFiniteBits binary64 b.toNat)
    (h0 : realOf binary64 b.toNat ≠ 0) : (div64 a b).msb = xor a.msb b.msb := by
  obtain ⟨m₁, e₁, hu₁, -⟩ := unpack_finite ha
  obtain ⟨m₂, e₂, hu₂, -, -, hr⟩ := unpack_finite hb
  rw [hr, Ne, realOfParts_eq_zero] at h0
  rw [← signBit_toNat64, div64_toNat, hu₁, hu₂, signBit_divValue _ _ _ _ _ _ h0, signBit_toNat64,
    signBit_toNat64]

/-- What is stored of a result that is no NaN has its sign. -/
theorem stored_msb {r : Nat} (hlt : r < 2 ^ 32) (hr : magBits binary32 r ≤ infBits binary32) :
    (bitsF32 (ftz32 (BitVec.ofNat 32 r))).msb = signBit binary32 r := by
  have hv : (BitVec.ofNat 32 r).toNat = r := Nat.mod_eq_of_lt hlt
  rw [bitsF32_ftz32 (by rwa [hv]), ftz32_msb, ← signBit_toNat32, hv]

theorem mul32_msb {a b : F32} (ha : isFinite32 a = true) (hb : isFinite32 b = true) :
    (mul32 a b).msb = xor a.msb b.msb := by
  obtain ⟨m₁, e₁, hu₁, -⟩ := unpack_finite (isFiniteBits_daz32 ha)
  obtain ⟨m₂, e₂, hu₂, -⟩ := unpack_finite (isFiniteBits_daz32 hb)
  have hr := mulValue_isRounded binary32_standard (signBit binary32 (daz32 a).toNat)
    (signBit binary32 (daz32 b).toNat) m₁ m₂ e₁ e₂
  rw [mul32, hu₁, hu₂, stored_msb (mulValue_lt binary32_standard _ _) hr.magBits_le, signBit_mulValue,
    signBit_toNat32, signBit_toNat32, daz32_msb, daz32_msb]

/-! ## Non-finite operands -/

theorem unpack_inf {f : FloatFormat} {w : Nat} (h : magBits f w = infBits f) :
    unpack f w = .inf (signBit f w) := by
  simp [unpack, h]

theorem unpack_isNaN64 {v : F64} (h : isNaN64 v = true) : unpack binary64 v.toNat = .nan := by
  rw [isNaN64, isNaNBits, decide_eq_true_eq] at h
  simp [unpack, h]

/-- A binary64 that is no NaN is finite or an infinity. -/
theorem finite_or_inf_of_not_nan {v : F64} (h : isNaN64 v = false) :
    isFiniteBits binary64 v.toNat ∨ magBits binary64 v.toNat = infBits binary64 := by
  rw [isNaN64, isNaNBits, decide_eq_false_iff_not] at h
  unfold isFiniteBits
  omega

theorem cvt32_msb {v : F64} (h : isNaN64 v = false) : (cvt32 v).msb = v.msb := by
  rw [cvt32, ← signBit_toNat64]
  rcases finite_or_inf_of_not_nan h with hfin | hinf
  · obtain ⟨m, e, hu, -⟩ := unpack_finite hfin
    rw [hu, roundValue, stored_msb (roundSigned_lt binary32 _ m e)
      (isRounded_roundSigned binary32_standard _ m e).magBits_le, signBit_roundSigned]
  · rw [unpack_inf hinf, roundValue, stored_msb (withSign_lt binary32 _ le_rfl)
      (magBits_withSign binary32 _ le_rfl).le, signBit_withSign binary32 _ le_rfl]

theorem cvt32_nan {v : F64} (h : isNaN64 v = true) : cvt32 v = 0x7FC00000#32 := by
  rw [cvt32, unpack_isNaN64 h]
  exact canonical_result

theorem gt64_nan {a b : F64} (h : isNaN64 a = true ∨ isNaN64 b = true) : gt64 a b = false := by
  rcases h with h | h <;> simp [gt64, h]

/-- The key of a finite pattern lies strictly between those of the infinities. -/
theorem abs_orderKey_finite {f : FloatFormat} {w : Nat} (h : isFiniteBits f w) :
    -(infBits f : Int) < orderKey f w ∧ orderKey f w < infBits f := by
  unfold isFiniteBits at h
  unfold orderKey signedMag
  split <;> omega

theorem gt64_inf_finite {x : F64} (h : isFiniteBits binary64 x.toNat) :
    gt64 0x7FF0000000000000#64 x = true ∧ gt64 x 0x7FF0000000000000#64 = false ∧
    gt64 x 0xFFF0000000000000#64 = true ∧ gt64 0xFFF0000000000000#64 x = false := by
  obtain ⟨hlo, hhi⟩ := abs_orderKey_finite h
  have hp : orderKey binary64 (0x7FF0000000000000#64 : F64).toNat = infBits binary64 := by decide +kernel
  have hn : orderKey binary64 (0xFFF0000000000000#64 : F64).toNat = -(infBits binary64 : Int) := by
    decide +kernel
  have hpn : isNaN64 0x7FF0000000000000#64 = false := by decide +kernel
  have hnn : isNaN64 0xFFF0000000000000#64 = false := by decide +kernel
  simp only [gt64, isNaN64_of_finite h, hp, hn, hpn, hnn, Bool.not_false, Bool.true_and,
    decide_eq_true_eq, decide_eq_false_iff_not]
  omega

/-- Settles O60: a rounded magnitude keeps the sign it is given, and the infinities bound the keys of all
finite numbers. -/
theorem signsAndNonFiniteOperands : Obligations.SignsAndNonFiniteOperands := by
  refine ⟨signBit_roundSigned, fun a b ha hb => ⟨mul64_msb ha hb, div64_msb ha hb⟩,
    fun a b ha hb => mul32_msb ha hb, fun v => cvt32_msb, fun v => cvt32_nan, ?_, fun a b => gt64_nan,
    fun x => gt64_inf_finite, ?_⟩ <;>
  decide +kernel

/-! ## Special values of binary32 -/

/-- The infinity of a sign. -/
def inf32 (n : Bool) : F32 := if n then 0xFF800000#32 else 0x7F800000#32

theorem unpack_daz32_inf32 (n : Bool) : unpack binary32 (daz32 (inf32 n)).toNat = .inf n := by
  cases n <;> decide +kernel

theorem stored_inf (n : Bool) :
    bitsF32 (ftz32 (BitVec.ofNat 32 (withSign binary32 n (infBits binary32)))) = inf32 n := by
  cases n <;> decide +kernel

/-- A finite operand after `daz32`: its sign, and a significand that is 0 exactly for a zero. -/
theorem unpack_daz32_finite {a : F32} (h : isFinite32 a = true) :
    ∃ m e, unpack binary32 (daz32 a).toNat = .fin a.msb m e ∧ (m = 0 ↔ isZero32 (daz32 a) = true) := by
  obtain ⟨m, e, hu, -, hz, -⟩ := unpack_finite (isFiniteBits_daz32 h)
  rw [signBit_toNat32, daz32_msb] at hu
  exact ⟨m, e, hu, by rw [hz, isZero32, decide_eq_true_eq]⟩

/-- An infinity with a finite number, in either position. -/
theorem inf32_with_finite (n : Bool) {a : F32} (h : isFinite32 a = true) :
    (isZero32 (daz32 a) = false →
      mul32 (inf32 n) a = inf32 (xor n a.msb) ∧ mul32 a (inf32 n) = inf32 (xor a.msb n)) ∧
    (isZero32 (daz32 a) = true →
      mul32 (inf32 n) a = 0x7FC00000#32 ∧ mul32 a (inf32 n) = 0x7FC00000#32) ∧
    add32 (inf32 n) a = inf32 n ∧ add32 a (inf32 n) = inf32 n ∧
    sub32 (inf32 n) a = inf32 n ∧ sub32 a (inf32 n) = inf32 (!n) := by
  obtain ⟨m, e, hu, hz⟩ := unpack_daz32_finite h
  simp only [mul32, add32, sub32, unpack_daz32_inf32, hu, mulValue, addValue, negValue, stored_inf,
    and_true]
  refine ⟨fun h0 => ?_, fun h0 => ?_⟩
  · have hm : m ≠ 0 := by rw [Ne, hz, h0]; decide
    simp [hm, stored_inf]
  · simp [hz.2 h0, canonical_result]

/-- `x - x = +0` (R13): the sum of a number and its negation is an exact zero, never a sum of two
negative zeros. -/
theorem sub32_self {a : F32} (h : isFinite32 a = true) : sub32 a a = 0#32 := by
  obtain ⟨m, e, hu, -⟩ := unpack_daz32_finite h
  have h0 : addValue binary32 (.fin a.msb m e) (.fin (!a.msb) m e) = 0 := by
    cases a.msb <;> simp [addValue, signedMag, withSign]
  rw [sub32, hu, negValue, h0]
  decide

/-- Settles O57: NaN operands by their reading, the table of infinities and zeros by evaluation on the
signs, an infinity with a finite number by that number's reading. -/
theorem binary32SpecialValues : Obligations.Binary32SpecialValues := by
  refine ⟨?_, by decide +kernel, fun m a => inf32_with_finite m, fun a => sub32_self, fun a b r hr => ?_⟩
  · rintro a b (h | h)
    · exact ⟨mul32_nan_left h, add32_nan_left h, sub32_nan_left h⟩
    · exact ⟨mul32_nan_right h, add32_nan_right h, sub32_nan_right h⟩
  · simp only [List.mem_cons, List.not_mem_nil, or_false] at hr
    rcases hr with rfl | rfl | rfl
    · exact ⟨mul32_not_subnormal a b, isNaN32_bitsF32⟩
    · exact ⟨add32_not_subnormal a b, isNaN32_bitsF32⟩
    · exact ⟨sub32_not_subnormal a b, isNaN32_bitsF32⟩

end Sys2Proof.Machine
end

section
/-! PROOFS. Which commands write the configuration (00_scope.md R6, 10_state.md R34 to R38, R44). -/

namespace Sys2Proof.Machine

/-- What a command that configures nothing leaves: the parameters, the arguments, FS and MAXBLK. -/
def SameSetup (s t : State) : Prop :=
  t.cfg = s.cfg ∧ t.args = s.args ∧ t.fs = s.fs ∧ t.maxBlk = s.maxBlk

theorem SameSetup.refl (s : State) : SameSetup s s := ⟨rfl, rfl, rfl, rfl⟩

theorem SameSetup.trans {s t u : State} (h : SameSetup s t) (h' : SameSetup t u) : SameSetup s u := by
  obtain ⟨hc, ha, hf, hm⟩ := h
  obtain ⟨hc', ha', hf', hm'⟩ := h'
  exact ⟨hc'.trans hc, ha'.trans ha, hf'.trans hf, hm'.trans hm⟩

theorem sameSetup_raiseError (e : ErrorCode) (s : State) : SameSetup s (raiseError e s) :=
  ⟨rfl, rfl, rfl, rfl⟩

theorem sameSetup_loadDesign (s : State) (d : Coef × Bool) : SameSetup s (loadDesign s d) :=
  ⟨rfl, rfl, rfl, rfl⟩

theorem sameSetup_loadCoefs (k : Coef) (s : State) (chm : BitVec 2) :
    SameSetup s (loadCoefs k s (chans chm)) := by
  rw [loadCoefs_chans]
  exact SameSetup.refl s

theorem sameSetup_procChannel (cnt : Nat) (s : State) (c : Channel) : SameSetup s (procChannel cnt s c) := by
  rw [procChannel_eq, (procSamples_effect c cnt 0 s).frame]
  exact SameSetup.refl s

theorem sameSetup_foldl_procChannel (cnt : Nat) (cs : List Channel) (s : State) :
    SameSetup s (cs.foldl (procChannel cnt) s) := by
  induction cs generalizing s with
  | nil => exact SameSetup.refl s
  | cons c cs ih => exact (sameSetup_procChannel cnt s c).trans (ih _)

theorem sameSetup_foldl_silence (chm : BitVec 2) (s : State) : SameSetup s ((chans chm).foldl silence s) := by
  rw [foldl_silence]
  exact SameSetup.refl s

/-- PREPARE writes FS and MAXBLK, and no parameter and no argument (42_channel_filter.md R150). -/
theorem execPrepare_keeps {s t : State} (h : execPrepare s = .next t) : t.cfg = s.cfg ∧ t.args = s.args := by
  rcases execPrepare_cases h with ⟨-, -, rfl⟩ | ⟨-, rfl⟩ <;> exact ⟨rfl, rfl⟩

/-- A command that is neither PREPARE nor SRST configures nothing. -/
theorem exec_sameSetup {i : Instr} {s t : State} (hp : i ≠ .prepare) (hs : i ≠ .srst)
    (h : exec i s = .next t) : SameSetup s t := by
  cases i with
  | nop => cases h; exact SameSetup.refl s
  | prepare => exact absurd rfl hp
  | update =>
    rcases execUpdate_cases h with ⟨-, rfl⟩ | ⟨-, rfl⟩
    · exact sameSetup_loadDesign s _
    · exact sameSetup_raiseError _ s
  | setc chm =>
    rcases execSetc_cases h with ⟨-, rfl⟩ | ⟨-, rfl⟩
    · exact sameSetup_loadCoefs _ s chm
    · exact sameSetup_raiseError _ s
  | proc chm cnt =>
    rcases execProc_cases h with ⟨-, -, rfl⟩ | ⟨-, -, rfl⟩ | ⟨-, rfl⟩
    · exact sameSetup_foldl_procChannel cnt _ s
    · exact sameSetup_raiseError _ s
    · exact sameSetup_raiseError _ s
  | hrst chm => cases h; exact sameSetup_foldl_silence chm s
  | srst => exact absurd rfl hs

/-- No command changes a parameter (00_scope.md R6). -/
theorem exec_cfg {i : Instr} {s t : State} (h : exec i s = .next t) : t.cfg = s.cfg := by
  by_cases hp : i = .prepare
  · subst hp
    exact (execPrepare_keeps h).1
  · by_cases hs : i = .srst
    · subst hs
      cases h
      rfl
    · exact (exec_sameSetup hp hs h).1

/-- No command but SRST writes an argument register. -/
theorem exec_args {i : Instr} {s t : State} (hs : i ≠ .srst) (h : exec i s = .next t) : t.args = s.args := by
  by_cases hp : i = .prepare
  · subst hp
    exact (execPrepare_keeps h).2
  · obtain ⟨-, hargs, -⟩ := exec_sameSetup hp hs h
    exact hargs

/-- The one word of PREPARE (30_encoding.md R86). -/
theorem word_of_prepare {w : Word} (h : decode w = .ok .prepare) : w = 0x00000001#32 := by
  obtain ⟨hr, hc⟩ := decode_ok_cases h
  simp only [reduceCtorEq, false_and, true_and, false_or, or_false] at hc
  obtain ⟨hop, hchm, hcnt⟩ := hc
  rw [← formatC_fields w hr, hop, hchm, hcnt]
  rfl

/-- The one word of SRST (30_encoding.md R86). -/
theorem word_of_srst {w : Word} (h : decode w = .ok .srst) : w = 0x0000000F#32 := by
  obtain ⟨hr, hc⟩ := decode_ok_cases h
  simp only [reduceCtorEq, false_and, true_and, false_or] at hc
  obtain ⟨hop, hchm, hcnt⟩ := hc
  rw [← formatC_fields w hr, hop, hchm, hcnt]
  rfl

/-- No host access but a command writes a parameter, FS or MAXBLK. -/
theorem hostWrite_setup (s : State) (a : HostAddr) (v : Word) :
    (hostWrite s a v).cfg = s.cfg ∧ (hostWrite s a v).fs = s.fs ∧ (hostWrite s a v).maxBlk = s.maxBlk := by
  rcases hostWrite_cases s a v with h | ⟨-, h⟩ | ⟨-, r, h⟩ | ⟨-, m, h, -⟩ <;> rw [h] <;>
    exact ⟨rfl, rfl, rfl⟩

/-- Every step keeps the parameters; one that is no power-on and no write of PREPARE or SRST to CMD keeps
FS and MAXBLK too. -/
theorem step_setup {s t : State} (h : step s = .next t) : t.cfg = s.cfg ∧
    ((t.fs = s.fs ∧ t.maxBlk = s.maxBlk) ∨ s.pending.head? = some .powerOn ∨
      s.pending.head? = some (.hostWrite 0x0000#16 0x00000001#32) ∨
      s.pending.head? = some (.hostWrite 0x0000#16 0x0000000F#32)) := by
  rcases step_cases h with ⟨-, rfl⟩ | ⟨e, rest, hpend, he⟩
  · exact ⟨rfl, .inl ⟨rfl, rfl⟩⟩
  rw [hpend, List.head?_cons]
  rcases he with ⟨a, -, rfl⟩ | ⟨w, i, rfl, hi, hex⟩ | ⟨w, why, -, -, rfl⟩ | ⟨a, v, -, -, rfl⟩ |
    ⟨-, rfl⟩ | ⟨v, -, rfl⟩ | ⟨rfl, rfl⟩
  · obtain ⟨d, hd⟩ := hostRead_state (s.setPending rest) a
    rw [hd]
    exact ⟨rfl, .inl ⟨rfl, rfl⟩⟩
  · refine ⟨exec_cfg (s := s.setPending rest) hex, ?_⟩
    by_cases hp : i = .prepare
    · subst hp
      rw [word_of_prepare hi]
      exact .inr (.inr (.inl rfl))
    · by_cases hs : i = .srst
      · subst hs
        rw [word_of_srst hi]
        exact .inr (.inr (.inr rfl))
      · obtain ⟨-, -, hfs, hblk⟩ := exec_sameSetup hp hs hex
        exact .inl ⟨hfs, hblk⟩
  · exact ⟨rfl, .inl ⟨rfl, rfl⟩⟩
  · obtain ⟨hc, hf⟩ := hostWrite_setup (s.setPending rest) a v
    exact ⟨hc, .inl hf⟩
  · exact ⟨rfl, .inl ⟨rfl, rfl⟩⟩
  · exact ⟨rfl, .inl ⟨rfl, rfl⟩⟩
  · exact ⟨rfl, .inr (.inl rfl)⟩

/-- Settles O43: by what each event of a step can do, and each command. -/
theorem configurationWriters : Obligations.ConfigurationWriters := by
  refine ⟨fun s t h => ?_, fun i s t hs h => exec_args hs h⟩
  obtain ⟨hcfg, hsame⟩ := step_setup h
  refine ⟨hcfg, fun hne => hsame.resolve_left ?_⟩
  rintro ⟨hfs, hblk⟩
  exact hne.elim (absurd hfs) (absurd hblk)

end Sys2Proof.Machine
end

section
/-! PROOFS. The size of every value of a design with the default parameters, and the Bypass set
(41_designer.md R120 to R131). -/

namespace Sys2Proof.Machine

/-! ## Bounds through the operations -/

section
variable {a b : F64} {j k : Int}

theorem mul64_within (ha : Within binary64 j a.toNat) (hb : Within binary64 k b.toNat)
    (hjk : binary64.hasPower (j + k) = true) : Within binary64 (j + k) (mul64 a b).toNat := by
  refine (mul64_isRounded ha.1 hb.1).within binary64_standard hjk ?_
  rw [abs_mul, zpow_add₀ (by norm_num)]
  exact mul_le_mul ha.2 hb.2 (abs_nonneg _) (two_zpow_pos _).le

theorem div64_within (ha : Within binary64 j a.toNat) (hb : AtLeast binary64 k b.toNat)
    (hjk : binary64.hasPower (j - k) = true) : Within binary64 (j - k) (div64 a b).toNat := by
  refine (div64_isRounded ha.1 hb.1 hb.ne_zero).within binary64_standard hjk ?_
  rw [abs_div, zpow_sub₀ (by norm_num)]
  exact div_le_div₀ (two_zpow_pos _).le ha.2 (two_zpow_pos _) (hb.2.trans (le_abs_self _))

end

/-- `cvt32` keeps a number finite that a power of two of binary32 bounds. -/
theorem cvt32_finite {v : F64} {k : Int} (hv : Within binary64 k v.toNat) (hk : binary32.hasPower k = true) :
    isFinite32 (cvt32 v) = true := by
  obtain ⟨r, hr, heq⟩ := cvt32_isRounded hv.1
  have hfin := (hr.within binary32_standard hk hv.2).1
  rw [heq, isFinite32_iff]
  exact isFiniteBits_daz32 ((isFinite32_iff r).2 hfin)

theorem unpack_one64 : unpack binary64 one64.toNat = .fin false (2 ^ 52) (-52) := by decide +kernel

theorem realOf_one64 : realOf binary64 one64.toNat = 1 := by
  rw [realOf_of_unpack unpack_one64]
  norm_num

theorem one64_within : Within binary64 0 one64.toNat := within_of_magBits (by decide) (by decide +kernel)

section
variable {v : F64} (hv : Within binary64 (-2) v.toNat)
include hv

/-- A number of magnitude at most 1/4 is at least -1/4 and at most 1/4. -/
theorem Within.quarter : -(1 / 4) ≤ realOf binary64 v.toNat ∧ realOf binary64 v.toNat ≤ 1 / 4 := by
  have h := abs_le.1 hv.2
  norm_num at h ⊢
  exact h

theorem one_add64_within : Within binary64 1 (add64 one64 v).toNat := by
  refine (add64_isRounded one64_within.1 hv.1).within binary64_standard (by decide) ?_
  obtain ⟨hlo, hhi⟩ := hv.quarter
  rw [realOf_one64, abs_le]
  constructor <;> norm_num <;> linarith

theorem one_sub64_within : Within binary64 1 (sub64 one64 v).toNat := by
  refine (sub64_isRounded one64_within.1 hv.1).within binary64_standard (by decide) ?_
  obtain ⟨hlo, hhi⟩ := hv.quarter
  rw [realOf_one64, abs_le]
  constructor <;> norm_num <;> linarith

theorem one_add64_atLeast : AtLeast binary64 (-1) (add64 one64 v).toNat := by
  obtain ⟨hlo, hhi⟩ := hv.quarter
  refine (add64_isRounded one64_within.1 hv.1).atLeast (by decide)
    (lt_overflowBound_of_le_zpow (k := 1) binary64_standard (by decide) ?_) ?_
  · rw [realOf_one64, abs_le]
    constructor <;> norm_num <;> linarith
  · rw [realOf_one64]
    norm_num
    linarith

end

/-! ## The coefficients -/

/-- The gains of the resolver lie between 1 and 16. -/
def GainInRange (g : F64) : Prop := AtLeast binary64 0 g.toNat ∧ Within binary64 4 g.toNat

theorem gain24_inRange : GainInRange gain24 :=
  ⟨atLeast_of_bits (by decide) (by decide +kernel) (by decide +kernel),
    within_of_magBits (by decide) (by decide +kernel)⟩

theorem one64_inRange : GainInRange one64 :=
  ⟨atLeast_of_bits (by decide) (by decide +kernel) (by decide +kernel),
    within_of_magBits (by decide) (by decide +kernel)⟩

/-- The amplitude `A = sqrt64(g)` (R126) lies between 1 and 4. -/
theorem GainInRange.sqrt {g : F64} (hg : GainInRange g) :
    AtLeast binary64 0 (sqrt64 g).toNat ∧ Within binary64 2 (sqrt64 g).toNat := by
  obtain ⟨⟨hfin, hlo⟩, -, hhi⟩ := hg
  have hhi := (abs_le.1 hhi).2
  norm_num at hlo hhi
  have h := sqrt64_isRounded hfin (by linarith)
  have hle : |Real.sqrt (realOf binary64 g.toNat)| ≤ 2 ^ (2 : Int) := by
    rw [abs_of_nonneg (Real.sqrt_nonneg _), Real.sqrt_le_left (by norm_num)]
    norm_num
    exact hhi
  refine ⟨h.atLeast (by decide) (lt_overflowBound_of_le_zpow binary64_standard (by decide) hle) ?_,
    h.within binary64_standard (by decide) hle⟩
  rw [zpow_zero, Real.one_le_sqrt]
  exact hlo

/-- `alpha = sin(w0) / (2 Q)` (R125): 20.0 is at least 16. -/
theorem alpha_within {sn : F64} (hs : Within binary64 0 sn.toNat) :
    Within binary64 (-4) (div64 sn twoQ).toNat :=
  div64_within hs (k := 4) (atLeast_of_bits (by decide) (by decide +kernel) (by decide +kernel)) (by decide)

section
variable {sn g : F64} (hs : Within binary64 0 sn.toNat) (hg : GainInRange g)
include hs hg

theorem alphaMulA_within : Within binary64 (-2) (mul64 (div64 sn twoQ) (sqrt64 g)).toNat :=
  mul64_within (alpha_within hs) hg.sqrt.2 (by decide)

theorem alphaDivA_within : Within binary64 (-2) (div64 (div64 sn twoQ) (sqrt64 g)).toNat :=
  (div64_within (alpha_within hs) hg.sqrt.1 (by decide)).mono (by norm_num)

/-- The denominator `a0` (R127) is at least 1/2. -/
theorem denominator_atLeast :
    AtLeast binary64 (-1) (add64 one64 (div64 (div64 sn twoQ) (sqrt64 g))).toNat :=
  one_add64_atLeast (alphaDivA_within hs hg)

/-- A bounded sine and cosine and a gain in range give finite coefficients (R130): each is a number of
magnitude at most 2 divided by the denominator. -/
theorem coefFrom_finite {cs : F64} (hc : Within binary64 0 cs.toNat) : (coefFrom sn cs g).finite = true := by
  have hd := denominator_atLeast hs hg
  have hquot : ∀ n : F64, Within binary64 1 n.toNat → isFinite32 (cvt32 (div64 n _)) = true :=
    fun n hn => cvt32_finite (div64_within hn hd (by decide)) (by decide)
  have hm2 : Within binary64 1 minusTwo64.toNat := within_of_magBits (by decide) (by decide +kernel)
  have hn1 := mul64_within hm2 hc (by decide)
  simp only [coefFrom, Coef.finite, Bool.and_eq_true]
  exact ⟨⟨⟨⟨hquot _ (one_add64_within (alphaMulA_within hs hg)), hquot _ hn1⟩,
    hquot _ (one_sub64_within (alphaMulA_within hs hg))⟩, hquot _ hn1⟩,
    hquot _ (one_sub64_within (alphaDivA_within hs hg))⟩

end

/-! ## The angular frequency -/

/-- The rates from FS_MIN to FS_MAX of the default parameters, 1 to 1000000, are below `2^20`. -/
theorem rate_bounds {fs : F64} (hlo : Config.default.fsMin.toNat ≤ fs.toNat)
    (hhi : fs.toNat ≤ Config.default.fsMax.toNat) :
    AtLeast binary64 0 fs.toNat ∧ Within binary64 20 fs.toNat := by
  have hmin : powBits binary64 0 ≤ Config.default.fsMin.toNat := by decide +kernel
  have hmax : Config.default.fsMax.toNat ≤ powBits binary64 20 := by decide +kernel
  have hk : binary64.hasPower 20 = true := by decide
  exact ⟨atLeast_of_bits (by decide) (hmin.trans hlo) ((hhi.trans hmax).trans_lt (powBits_lt hk)),
    within_of_magBits hk ((magBits_le _ _).trans (hhi.trans hmax))⟩

/-- The frequencies of the note table are below 512 (40_resolver.md R102). -/
theorem noteHz_within {n : Nat} {f : F64} (h : noteHz n = some f) : Within binary64 9 f.toNat := by
  refine within_of_magBits (by decide) ?_
  unfold noteHz at h
  split at h
  case h_13 => cases h
  all_goals
    cases h
    decide +kernel

/-- RESOLVE with the default parameters gives a frequency below 512 and a gain in range. -/
theorem resolve_bounds (n : Word) : Within binary64 9 (resolve Config.default.fBypass n).1.toNat ∧
    GainInRange (resolve Config.default.fBypass n).2 := by
  unfold resolve
  split
  case h_1 f hf => exact ⟨noteHz_within hf, gain24_inRange⟩
  case h_2 => exact ⟨within_of_magBits (by decide) (by decide +kernel), one64_inRange⟩

/-- The frequency used is the one asked for or `CLAMP_RATIO · fs`, both below `2^20`. -/
theorem clampFreq_within {f fs : F64} (hf : Within binary64 9 f.toNat) (hfs : Within binary64 20 fs.toNat) :
    Within binary64 20 (clampFreq Config.default.clampRatio f fs).1.toNat := by
  have hratio : Within binary64 0 Config.default.clampRatio.toNat :=
    within_of_magBits (by decide) (by decide +kernel)
  unfold clampFreq
  simp only
  split
  · exact mul64_within hratio hfs (by decide)
  · exact hf.mono (by norm_num)

/-- `w0` is finite (R123), so that TRIG_BOUNDED applies. -/
theorem angular_finite {fe fs : F64} (hfe : Within binary64 20 fe.toNat) (hfs : AtLeast binary64 0 fs.toNat) :
    isFiniteBits binary64 (angular fe fs).toNat := by
  have hpi : Within binary64 3 twoPi.toNat := within_of_magBits (by decide) (by decide +kernel)
  exact (div64_within (mul64_within hpi hfe (by decide)) hfs (by decide)).1

/-- What DESIGN computes of its inputs (R121). -/
theorem design_coef (clampRatio f g fs : F64) : (design clampRatio f g fs).1 =
    coefFrom (Config.sin64 (angular (clampFreq clampRatio f fs).1 fs))
      (Config.cos64 (angular (clampFreq clampRatio f fs).1 fs)) g := by
  unfold design
  rfl

/-- A design is made from a sine and a cosine in [-1, 1] and the gain of the note. -/
theorem designNote_eq_coefFrom (n : Word) {fs : F64} (hlo : Config.default.fsMin.toNat ≤ fs.toNat)
    (hhi : fs.toNat ≤ Config.default.fsMax.toNat) :
    ∃ sn cs, Within binary64 0 sn.toNat ∧ Within binary64 0 cs.toNat ∧
      (designNote Config.default n fs).1 = coefFrom sn cs (resolve Config.default.fBypass n).2 := by
  obtain ⟨hone, hfs⟩ := rate_bounds hlo hhi
  have hw := angular_finite (clampFreq_within (resolve_bounds n).1 hfs) hone
  exact ⟨_, _, sin64_within hw, cos64_within hw, design_coef _ _ _ _⟩

/-- Settles O58: the angular frequency is finite, so the sine and cosine are bounded, and no coefficient
exceeds 4 in magnitude. -/
theorem designedCoefficientsAreFinite : Obligations.DesignedCoefficientsAreFinite := by
  intro n fs hlo hhi
  obtain ⟨sn, cs, hs, hc, heq⟩ := designNote_eq_coefFrom n hlo hhi
  rw [heq]
  exact coefFrom_finite hs (resolve_bounds n).2 hc

/-! ## The Bypass set -/

/-- Bypass and every value from 13 up resolve to the gain 1.0 (40_resolver.md R101, R103). -/
theorem resolve_bypass (fBypass : F64) {n : Word} (h : n.toNat = 0 ∨ 13 ≤ n.toNat) :
    resolve fBypass n = (fBypass, one64) := by
  have hn : noteHz n.toNat = none := by
    unfold noteHz
    split
    case h_13 => rfl
    all_goals omega
  rw [resolve, hn]

theorem mulValue_one64 (n : Bool) (m : Nat) (e : Int) :
    mulValue binary64 (.fin n m e) (unpack binary64 one64.toNat) = roundSigned binary64 n m e := by
  have h := roundBits_scale binary64 m 52 e
  rw [unpack_one64, mulValue, Bool.xor_false, roundSigned, roundSigned, ← h]
  rfl

theorem divValue_one64 (n : Bool) (m : Nat) (e : Int) :
    divValue binary64 (.fin n m e) (unpack binary64 one64.toNat) = roundSigned binary64 n m e := by
  have hn : m * 2 ^ (2 * binary64.frac + 5) = 2 ^ 52 * (m * 2 ^ 57) := by
    rw [show 2 * binary64.frac + 5 = 52 + 57 by decide, Nat.pow_add]
    ring
  have hm : 2 * (m * 2 ^ 57) = m * 2 ^ 58 := by ring
  have he : e - (-52) - ((2 * binary64.frac + 5 : Nat) : Int) - 1 = e - (58 : Nat) := by
    rw [show 2 * binary64.frac + 5 = 109 by decide]
    omega
  rw [unpack_one64, divValue, if_neg (Nat.two_pow_pos 52).ne', divFinite, hn, Nat.mul_mod_right,
    Nat.mul_div_cancel_left _ (Nat.two_pow_pos 52), if_pos rfl, Nat.add_zero, hm, he, Bool.xor_false,
    roundSigned, roundBits_scale, roundSigned]

/-- Multiplying by 1.0 and dividing by it round the same number, with the same sign. -/
theorem mul64_one64_eq_div64 {a : F64} (h : isFiniteBits binary64 a.toNat) :
    mul64 a one64 = div64 a one64 := by
  obtain ⟨m, e, hu, -⟩ := unpack_finite h
  apply BitVec.eq_of_toNat_eq
  rw [mul64_toNat, div64_toNat, hu, mulValue_one64, divValue_one64]

/-- A number that is no zero, divided by itself, is 1.0. -/
theorem div64_self {d : F64} (h : isFiniteBits binary64 d.toNat) (h0 : realOf binary64 d.toNat ≠ 0) :
    div64 d d = one64 := by
  obtain ⟨m, e, hu, -, -, hr⟩ := unpack_finite h
  rw [hr, Ne, realOfParts_eq_zero] at h0
  have hq : m * 2 ^ (2 * binary64.frac + 5) / m = 2 ^ (2 * binary64.frac + 5) :=
    Nat.mul_div_cancel_left _ (Nat.pos_of_ne_zero h0)
  apply BitVec.eq_of_toNat_eq
  rw [div64_toNat, hu, divValue, if_neg h0, divFinite, hq, Bool.xor_self, Nat.mul_mod_right, if_pos rfl,
    sub_self]
  decide +kernel

theorem sqrt64_one64 : sqrt64 one64 = one64 := by decide +kernel

/-- With the gain 1.0 numerator and denominator are one polynomial (R131). -/
theorem coefFrom_one64 {sn : F64} (hs : Within binary64 0 sn.toNat) (cs : F64) :
    (coefFrom sn cs one64).b0 = 0x3F800000#32 ∧ (coefFrom sn cs one64).b1 = (coefFrom sn cs one64).a1 ∧
      (coefFrom sn cs one64).b2 = (coefFrom sn cs one64).a2 := by
  have hd := denominator_atLeast hs one64_inRange
  rw [sqrt64_one64] at hd
  have hcvt : cvt32 one64 = 0x3F800000#32 := by decide +kernel
  simp only [coefFrom, sqrt64_one64, mul64_one64_eq_div64 (alpha_within hs).1, div64_self hd.1 hd.ne_zero,
    hcvt, and_self]

/-- Settles O59: the gain is 1.0, whose root is 1.0, so `alpha · A` and `alpha / A` are one number. -/
theorem bypassSet : Obligations.BypassSet := by
  intro n fs hn hlo hhi
  obtain ⟨sn, cs, hs, -, heq⟩ := designNote_eq_coefFrom n hlo hhi
  rw [resolve_bypass _ hn] at heq
  simp only [heq]
  exact coefFrom_one64 hs cs

end Sys2Proof.Machine
end

section
/-! PROOFS. All that a command and a step can do, said once: the cases of `exec`, and of a step by whether it is
a command, a power-on or another access (20_memory.md R63 to R69). -/

namespace Sys2Proof.Machine

/-- All that a command can do: nothing, an error, or its own operation. -/
theorem exec_cases {i : Instr} {s t : State} (h : exec i s = .next t) :
    t = s ∨ (∃ e, t = raiseError e s) ∨
    (i = .prepare ∧ 1 ≤ s.args.maxBlk.toNat ∧ s.args.maxBlk.toNat ≤ s.cfg.bufCap ∧
      t = loadDesign (configure s) (designNote s.cfg s.note (configure s).fs)) ∨
    (i = .update ∧ t = loadDesign s (designNote s.cfg s.note s.fs)) ∨
    (∃ chm, i = .setc chm ∧ t = loadCoefs s.args.coef s (chans chm)) ∨
    (∃ chm cnt, i = .proc chm cnt ∧ t = (chans chm).foldl (procChannel cnt) s) ∨
    (∃ chm, i = .hrst chm ∧ t = (chans chm).foldl silence s) ∨
    (i = .srst ∧ t = softReset s) := by
  cases i with
  | nop => cases h; exact .inl rfl
  | prepare =>
    rcases execPrepare_cases h with ⟨hlo, hhi, ht⟩ | ⟨-, ht⟩
    · exact .inr (.inr (.inl ⟨rfl, hlo, hhi, ht⟩))
    · exact .inr (.inl ⟨_, ht⟩)
  | update =>
    rcases execUpdate_cases h with ⟨-, ht⟩ | ⟨-, ht⟩
    · exact .inr (.inr (.inr (.inl ⟨rfl, ht⟩)))
    · exact .inr (.inl ⟨_, ht⟩)
  | setc chm =>
    rcases execSetc_cases h with ⟨-, ht⟩ | ⟨-, ht⟩
    · exact .inr (.inr (.inr (.inr (.inl ⟨chm, rfl, ht⟩))))
    · exact .inr (.inl ⟨_, ht⟩)
  | proc chm cnt =>
    rcases execProc_cases h with ⟨-, -, ht⟩ | ⟨-, -, ht⟩ | ⟨-, ht⟩
    · exact .inr (.inr (.inr (.inr (.inr (.inl ⟨chm, cnt, rfl, ht⟩)))))
    · exact .inr (.inl ⟨_, ht⟩)
    · exact .inr (.inl ⟨_, ht⟩)
  | hrst chm => cases h; exact .inr (.inr (.inr (.inr (.inr (.inr (.inl ⟨chm, rfl, rfl⟩))))))
  | srst => cases h; exact .inr (.inr (.inr (.inr (.inr (.inr (.inr ⟨rfl, rfl⟩))))))

/-- PROC writes buffers, histories, RUN bits and the count of draws, and nothing else
(42_channel_filter.md R165). -/
theorem foldl_procChannel_frame (cnt : Nat) (cs : List Channel) (s : State) :
    ∃ m h d r, cs.foldl (procChannel cnt) s =
      { s with buf := m, hist := h, draws := d, status := { s.status with run := r } } := by
  induction cs generalizing s with
  | nil => exact ⟨s.buf, s.hist, s.draws, s.status.run, rfl⟩
  | cons c cs ih =>
    obtain ⟨m, h, d, r, heq⟩ := ih (procChannel cnt s c)
    refine ⟨m, h, d, r, ?_⟩
    rw [List.foldl_cons, heq, procChannel_eq, (procSamples_effect c cnt 0 s).frame]

/-- What an access that issues no command can change, with the event taken: NOTE, the arguments, the buffers,
the replies and the count of draws; the canonical form is kept. -/
structure AccessEffect (s t : State) : Prop where
  frame : t = { s with
    note := t.note
    args := t.args
    buf := t.buf
    pending := s.pending.tail
    hostReply := t.hostReply
    ctrlReply := t.ctrlReply
    draws := t.draws }
  canonical : s.buf.wf s.cfg.bufCap = true → t.buf.wf s.cfg.bufCap = true

/-- A step is a command, an illegal word, a power-on, or another access (an idle step counts as one). -/
theorem step_effect {s t : State} (h : step s = .next t) :
    (∃ w i rest, s.pending = .hostWrite cmdAddr w :: rest ∧ decode w = .ok i ∧
      exec i (s.setPending rest) = .next t) ∨
    t = raiseError .illegalCmd (s.setPending s.pending.tail) ∨
    (s.pending.head? = some .powerOn ∧ t = powerOn (s.setPending s.pending.tail)) ∨
    AccessEffect s t := by
  rcases step_cases h with ⟨hpend, rfl⟩ | ⟨e, rest, hpend, he⟩
  · have htail : t.pending.tail = t.pending := by rw [hpend]; rfl
    exact .inr (.inr (.inr ⟨by rw [htail], id⟩))
  have htail : s.pending.tail = rest := by rw [hpend]; rfl
  rcases he with ⟨a, -, rfl⟩ | ⟨w, i, rfl, hi, hex⟩ | ⟨w, why, -, -, rfl⟩ | ⟨a, v, -, -, rfl⟩ |
    ⟨-, rfl⟩ | ⟨v, -, rfl⟩ | ⟨rfl, rfl⟩
  · obtain ⟨d, hd⟩ := hostRead_state (s.setPending rest) a
    rw [hd]
    exact .inr (.inr (.inr ⟨by rw [htail]; rfl, id⟩))
  · exact .inl ⟨w, i, rest, hpend, hi, hex⟩
  · exact .inr (.inl (by rw [htail]))
  · refine .inr (.inr (.inr ?_))
    rcases hostWrite_cases (s.setPending rest) a v with heq | ⟨-, heq⟩ | ⟨-, r, heq⟩ | ⟨-, m, heq, hwf⟩ <;>
      rw [heq]
    · exact ⟨by rw [htail]; rfl, id⟩
    · exact ⟨by rw [htail]; rfl, id⟩
    · exact ⟨by rw [htail]; rfl, id⟩
    · exact ⟨by rw [htail]; rfl, hwf⟩
  · exact .inr (.inr (.inr ⟨by rw [htail]; rfl, id⟩))
  · exact .inr (.inr (.inr ⟨by rw [htail]; rfl, id⟩))
  · exact .inr (.inr (.inl ⟨by rw [hpend]; rfl, by rw [htail]⟩))

/-- A host write to CMD issues a command. -/
theorem step_command {s : State} {w : Word} {i : Instr} {rest : List Event}
    (hpend : s.pending = .hostWrite cmdAddr w :: rest) (hi : decode w = .ok i) :
    step s = exec i (s.setPending rest) := by
  simp [step, advance, hpend, perform, runCommand, hi]

/-- Settles O7: the step on a write to CMD, where the word decodes. -/
theorem stepRunsDecodedCommand : Obligations.StepRunsDecodedCommand :=
  fun _ _ _ _ hpend hi => step_command hpend hi

/-- A power-on reset, whatever the state. -/
theorem step_powerOn {s : State} {rest : List Event} (hpend : s.pending = .powerOn :: rest) :
    step s = .next (powerOn (s.setPending rest)) := by
  simp [step, advance, hpend, perform]

theorem step_hostRead {s : State} {a : HostAddr} {rest : List Event}
    (hpend : s.pending = .hostRead a :: rest) :
    step s = .next ((hostRead (s.setPending rest) a).2.setHostReply
      (some (hostRead (s.setPending rest) a).1)) := by
  simp only [step, advance, hpend, perform]

theorem step_hostWrite {s : State} {a : HostAddr} {v : Word} {rest : List Event}
    (hpend : s.pending = .hostWrite a v :: rest) (ha : a ≠ cmdAddr) :
    step s = .next (hostWrite (s.setPending rest) a v) := by
  simp only [step, advance, hpend, perform, if_neg ha]

/-- No command writes NOTE or the pending events. -/
theorem exec_note_pending {i : Instr} {s t : State} (h : exec i s = .next t) :
    t.note = s.note ∧ t.pending = s.pending := by
  rcases exec_cases h with rfl | ⟨e, rfl⟩ | ⟨-, -, -, rfl⟩ | ⟨-, rfl⟩ | ⟨chm, -, rfl⟩ | ⟨chm, cnt, -, rfl⟩ |
    ⟨chm, -, rfl⟩ | ⟨-, rfl⟩
  · exact ⟨rfl, rfl⟩
  · exact ⟨rfl, rfl⟩
  · exact ⟨rfl, rfl⟩
  · exact ⟨rfl, rfl⟩
  · rw [loadCoefs_chans]; exact ⟨rfl, rfl⟩
  · obtain ⟨m, f, d, r, heq⟩ := foldl_procChannel_frame cnt (chans chm) s
    rw [heq]; exact ⟨rfl, rfl⟩
  · rw [foldl_silence]; exact ⟨rfl, rfl⟩
  · exact ⟨rfl, rfl⟩

/-- A step takes the first pending event and no other (log 5). -/
theorem step_pending {s t : State} (h : step s = .next t) : t.pending = s.pending.tail := by
  rcases step_effect h with ⟨w, i, rest, hpend, -, hex⟩ | rfl | ⟨-, rfl⟩ | hacc
  · obtain ⟨-, hp⟩ := exec_note_pending hex
    rw [hp, hpend]
    rfl
  · rfl
  · rfl
  · rw [hacc.frame]

end Sys2Proof.Machine
end

section
/-! PROOFS. No command writes NOTE, and none but UPDATE and PREPARE reads it (10_state.md R33, 20_memory.md
R67). -/

namespace Sys2Proof.Machine

/-- A buffer read does not depend on NOTE. -/
theorem memRead_setNote (s : State) (n : Word) (a : Nat) :
    memRead (s.setNote n) a = ((memRead s a).1, (memRead s a).2.setNote n) := by
  unfold memRead
  rw [State.setNote_cfg, State.setNote_buf]
  split
  · split <;> rfl
  · rfl

/-- A buffer write does not depend on NOTE. -/
theorem memWrite_setNote (s : State) (n : Word) (a : Nat) (v : Word) :
    memWrite (s.setNote n) a v = (memWrite s a v).setNote n := by
  unfold memWrite
  rw [State.setNote_cfg, State.setNote_buf]
  split <;> rfl

theorem procSample_setNote (c : Channel) (i : Nat) (s : State) (n : Word) :
    procSample c i (s.setNote n) = (procSample c i s).setNote n := by
  rw [procSample, memRead_setNote]
  exact memWrite_setNote ((memRead s (bufBase c + i)).2.setHistOf c _) n _ _

theorem procSamples_setNote (c : Channel) (k i : Nat) (s : State) (n : Word) :
    procSamples c k i (s.setNote n) = (procSamples c k i s).setNote n := by
  induction k generalizing i s with
  | zero => rfl
  | succ k ih => rw [procSamples, procSample_setNote, ih, procSamples]

theorem procChannel_setNote (cnt : Nat) (s : State) (c : Channel) (n : Word) :
    procChannel cnt (s.setNote n) c = (procChannel cnt s c).setNote n := by
  rw [procChannel_eq, procSamples_setNote, procChannel_eq]
  rfl

/-- A command that is neither UPDATE nor PREPARE does the same with another NOTE. -/
theorem exec_setNote {i : Instr} {s t : State} (n : Word) (hu : i ≠ .update) (hp : i ≠ .prepare)
    (h : exec i s = .next t) : exec i (s.setNote n) = .next (t.setNote n) := by
  cases i with
  | nop => cases h; rfl
  | prepare => exact absurd rfl hp
  | update => exact absurd rfl hu
  | setc chm =>
    simp only [exec, execSetc, State.setNote_status, State.setNote_args, loadCoefs_chans] at h ⊢
    split at h
    · cases h; rw [if_pos ‹_›]; rfl
    · cases h; rw [if_neg ‹_›]; rfl
  | proc chm cnt =>
    have hfold : (chans chm).foldl (procChannel cnt) (s.setNote n) =
        ((chans chm).foldl (procChannel cnt) s).setNote n :=
      List.foldl_hom (State.setNote · n) fun u c => procChannel_setNote cnt u c n
    simp only [exec, execProc, State.setNote_status, State.setNote_maxBlk, hfold] at h ⊢
    split at h
    · rw [if_pos ‹_›]
      split at h
      · cases h; rw [if_pos ‹_›]; rfl
      · cases h; rw [if_neg ‹_›]
    · cases h; rw [if_neg ‹_›]; rfl
  | hrst chm => cases h; simp only [exec, execHrst, foldl_silence]; rfl
  | srst => cases h; rfl

/-- Settles O41: no command's frame holds NOTE, and every operation of the commands that do not resolve it
commutes with a write of it. -/
theorem commandsAndNote : Obligations.CommandsAndNote := by
  refine ⟨fun i s t h => ?_, fun i s t n hu hp h => exec_setNote n hu hp h⟩
  obtain ⟨hnote, -⟩ := exec_note_pending h
  exact hnote

end Sys2Proof.Machine
end

section
/-! PROOFS. Who writes STATUS: ERR and ECODE are sticky, and PREP is set by PREPARE alone (10_state.md R26,
R30, R31, 60_exceptions.md R201). -/

namespace Sys2Proof.Machine

/-- All that a command can do to STATUS: write RUN bits and FCLAMP, raise an error, set PREP in a PREPARE of
a legal block size, or reset it in an SRST. -/
theorem exec_status {i : Instr} {s t : State} (h : exec i s = .next t) :
    (∃ r c, t.status = { s.status with run := r, fclamp := c }) ∨
    (∃ e, t.status = (raiseError e s).status) ∨
    (i = .prepare ∧ 1 ≤ s.args.maxBlk.toNat ∧ s.args.maxBlk.toNat ≤ s.cfg.bufCap ∧
      ∃ r c k, t.status = { s.status with prep := true, run := r, fclamp := c, fsclamp := k }) ∨
    (i = .srst ∧ t.status = Status.reset) := by
  rcases exec_cases h with rfl | ⟨e, rfl⟩ | ⟨rfl, hlo, hhi, rfl⟩ | ⟨-, rfl⟩ | ⟨chm, -, rfl⟩ | ⟨chm, cnt, -, rfl⟩ |
    ⟨chm, -, rfl⟩ | ⟨rfl, rfl⟩
  · exact .inl ⟨_, _, rfl⟩
  · exact .inr (.inl ⟨e, rfl⟩)
  · exact .inr (.inr (.inl ⟨rfl, hlo, hhi, _, _, _, rfl⟩))
  · exact .inl ⟨_, _, rfl⟩
  · rw [loadCoefs_chans]; exact .inl ⟨_, _, rfl⟩
  · obtain ⟨m, f, d, r, heq⟩ := foldl_procChannel_frame cnt (chans chm) s
    rw [heq]; exact .inl ⟨_, _, rfl⟩
  · rw [foldl_silence]; exact .inl ⟨_, _, rfl⟩
  · exact .inr (.inr (.inr ⟨rfl, rfl⟩))

/-- All that a step can do to STATUS; only a power-on and SRST reset it, and only PREPARE sets PREP. -/
theorem step_status {s t : State} (h : step s = .next t) :
    (∃ r c, t.status = { s.status with run := r, fclamp := c }) ∨
    (∃ e, t.status = (raiseError e s).status) ∨
    (s.pending.head? = some (.hostWrite 0x0000#16 0x00000001#32) ∧
      1 ≤ s.args.maxBlk.toNat ∧ s.args.maxBlk.toNat ≤ s.cfg.bufCap ∧
      ∃ r c k, t.status = { s.status with prep := true, run := r, fclamp := c, fsclamp := k }) ∨
    ((s.pending.head? = some .powerOn ∨ s.pending.head? = some (.hostWrite 0x0000#16 0x0000000F#32)) ∧
      t.status = Status.reset) := by
  rcases step_effect h with ⟨w, i, rest, hpend, hi, hex⟩ | rfl | ⟨hpow, rfl⟩ | hacc
  · rw [hpend, List.head?_cons]
    rcases exec_status hex with hrun | herr | ⟨rfl, hprep⟩ | ⟨rfl, hreset⟩
    · exact .inl hrun
    · exact .inr (.inl herr)
    · rw [word_of_prepare hi]
      exact .inr (.inr (.inl ⟨rfl, hprep⟩))
    · rw [word_of_srst hi]
      exact .inr (.inr (.inr ⟨.inr rfl, hreset⟩))
  · exact .inr (.inl ⟨_, rfl⟩)
  · exact .inr (.inr (.inr ⟨.inl hpow, rfl⟩))
  · rw [hacc.frame]
    exact .inl ⟨_, _, rfl⟩

/-- A power-on and an SRST reset STATUS. -/
theorem step_resets_status {s t : State} (h : step s = .next t)
    (he : s.pending.head? = some .powerOn ∨ s.pending.head? = some (.hostWrite 0x0000#16 0x0000000F#32)) :
    t.status = Status.reset := by
  rcases he with he | he <;> obtain ⟨rest, hpend⟩ := List.head?_eq_some_iff.1 he
  · rw [step_powerOn hpend] at h
    cases h
    rfl
  · rw [step_command (i := .srst) hpend (by decide)] at h
    cases h
    rfl

/-- An error keeps ERR and a recorded ECODE (60_exceptions.md R201). -/
theorem raiseError_sticky (e : ErrorCode) (s : State) : (raiseError e s).status.err = true ∧
    (s.status.ecode ≠ 0#4 → (raiseError e s).status.ecode = s.status.ecode) :=
  ⟨rfl, fun h => if_neg h⟩

/-- Settles O39: by what a step can do to STATUS. -/
theorem errorsAreSticky : Obligations.ErrorsAreSticky := by
  refine fun s t h => ⟨fun hpow hsrst => ?_, fun he => by rw [step_resets_status h he]; exact ⟨rfl, rfl⟩⟩
  rcases step_status h with ⟨r, c, heq⟩ | ⟨e, heq⟩ | ⟨-, -, -, r, c, k, heq⟩ | ⟨he, -⟩
  · rw [heq]; exact ⟨id, fun _ => rfl⟩
  · rw [heq]
    obtain ⟨herr, hcode⟩ := raiseError_sticky e s
    exact ⟨fun _ => herr, hcode⟩
  · rw [heq]; exact ⟨id, fun _ => rfl⟩
  · exact (he.elim hpow hsrst).elim

/-- Settles O40: by what a step can do to STATUS. -/
theorem prepTransitions : Obligations.PrepTransitions := by
  intro s t h
  rcases step_status h with ⟨r, c, heq⟩ | ⟨e, heq⟩ | ⟨hw, hlo, hhi, r, c, k, heq⟩ | ⟨he, heq⟩ <;> rw [heq]
  · exact ⟨fun h0 h1 => absurd (h0.symm.trans h1) Bool.false_ne_true,
      fun h1 h0 => absurd (h0.symm.trans h1) Bool.false_ne_true⟩
  · exact ⟨fun h0 h1 => absurd (h0.symm.trans h1) Bool.false_ne_true,
      fun h1 h0 => absurd (h0.symm.trans h1) Bool.false_ne_true⟩
  · exact ⟨fun _ _ => ⟨hw, hlo, hhi⟩, fun _ h0 => absurd h0.symm Bool.false_ne_true⟩
  · exact ⟨fun _ h1 => absurd h1 Bool.false_ne_true, fun _ _ => he⟩

end Sys2Proof.Machine
end

section
/-! PROOFS. The active sample rate (10_state.md R37, 42_channel_filter.md R152). -/

namespace Sys2Proof

theorem positiveFinite64_iff (w : F64) :
    positiveFinite64 w = true ↔ 0 < w.toNat ∧ w.toNat < 0x7FF0000000000000 := by
  rw [positiveFinite64, Bool.and_eq_true, decide_eq_true_eq, decide_eq_true_eq]

theorem Config.legal_iff (c : Config) : c.legal = true ↔ (1 ≤ c.bufCap ∧ c.bufCap ≤ 16384) ∧
    positiveFinite64 c.fsMin = true ∧ positiveFinite64 c.fsMax = true ∧ c.fsMin.toNat ≤ c.fsMax.toNat := by
  simp only [Config.legal, Bool.and_eq_true, decide_eq_true_eq, and_assoc]

end Sys2Proof

namespace Sys2Proof.Machine

/-- The key of a non-negative pattern is the pattern. -/
theorem orderKey_of_msb {w : F64} (h : w.msb = false) : orderKey binary64 w.toNat = w.toNat := by
  rw [orderKey, signBit_toNat64, h]
  rw [BitVec.msb_eq_false_iff_two_mul_lt] at h
  exact congrArg Nat.cast (Nat.mod_eq_of_lt (by omega : w.toNat < 2 ^ 63))

/-- The key of a negative pattern is not positive. -/
theorem msb_of_orderKey_pos {w : F64} (h : 0 < orderKey binary64 w.toNat) : w.msb = false := by
  rw [← signBit_toNat64, ← Bool.not_eq_true]
  intro hs
  rw [orderKey, hs, signedMag, if_pos rfl] at h
  omega

/-- Where neither operand is a NaN, `>` compares the keys. -/
theorem gt64_eq_false_iff {a b : F64} (ha : isNaN64 a = false) (hb : isNaN64 b = false) :
    gt64 a b = false ↔ orderKey binary64 a.toNat ≤ orderKey binary64 b.toNat := by
  simp [gt64, ha, hb]

/-- A pattern below +∞ is a finite non-negative number. -/
theorem finite_of_lt {w : F64} (h : w.toNat < 0x7FF0000000000000) :
    isFiniteBits binary64 w.toNat ∧ w.msb = false := by
  constructor
  · exact (magBits_le _ _).trans_lt h
  · rw [BitVec.msb_eq_false_iff_two_mul_lt]
    omega

section
variable {lo hi : F64} (hlo : positiveFinite64 lo = true) (hhi : positiveFinite64 hi = true)
include hlo hhi

/-- CLAMPFS keeps a rate within its limits. -/
theorem clampFs_of_mem {v : F64} (h : lo.toNat ≤ v.toNat) (h' : v.toNat ≤ hi.toNat) :
    clampFs lo hi v = (v, false) := by
  rw [positiveFinite64_iff] at hlo hhi
  obtain ⟨-, hlo⟩ := hlo
  obtain ⟨-, hhi⟩ := hhi
  obtain ⟨hlf, hls⟩ := finite_of_lt hlo
  obtain ⟨hvf, hvs⟩ := finite_of_lt (h'.trans_lt hhi)
  obtain ⟨hhf, hhs⟩ := finite_of_lt hhi
  have hv := isNaN64_of_finite hvf
  have hmin : gt64 lo v = false := by
    rw [gt64_eq_false_iff (isNaN64_of_finite hlf) hv, orderKey_of_msb hls, orderKey_of_msb hvs]
    omega
  have hmax : gt64 v hi = false := by
    rw [gt64_eq_false_iff hv (isNaN64_of_finite hhf), orderKey_of_msb hhs, orderKey_of_msb hvs]
    omega
  simp [clampFs, hv, hmin, hmax]

/-- CLAMPFS gives a limit or a rate within the limits. -/
theorem clampFs_mem (r : F64) (hle : lo.toNat ≤ hi.toNat) :
    lo.toNat ≤ (clampFs lo hi r).1.toNat ∧ (clampFs lo hi r).1.toNat ≤ hi.toNat := by
  rw [positiveFinite64_iff] at hlo hhi
  obtain ⟨hpos, hlo⟩ := hlo
  obtain ⟨-, hhi⟩ := hhi
  obtain ⟨hlf, hls⟩ := finite_of_lt hlo
  obtain ⟨hhf, hhs⟩ := finite_of_lt hhi
  unfold clampFs
  split
  case isTrue => exact ⟨le_rfl, hle⟩
  case isFalse hn =>
    rw [Bool.not_eq_true] at hn
    split
    case isTrue => exact ⟨le_rfl, hle⟩
    case isFalse hmin =>
      split
      case isTrue => exact ⟨hle, le_rfl⟩
      case isFalse hmax =>
        rw [Bool.not_eq_true, gt64_eq_false_iff (isNaN64_of_finite hlf) hn, orderKey_of_msb hls] at hmin
        rw [Bool.not_eq_true, gt64_eq_false_iff hn (isNaN64_of_finite hhf), orderKey_of_msb hhs] at hmax
        have hr : r.msb = false := msb_of_orderKey_pos (by omega)
        rw [orderKey_of_msb hr, Nat.cast_le] at hmin hmax
        exact ⟨hmin, hmax⟩

end

/-- Settles O34: the clamped rate lies between two positive finite patterns, so it is finite, and CLAMPFS keeps
it. -/
theorem clampFsLandsInRange : Obligations.ClampFsLandsInRange := by
  intro cfg r hlegal
  obtain ⟨-, hmin, hmax, hle⟩ := (Config.legal_iff cfg).1 hlegal
  obtain ⟨h, h'⟩ := clampFs_mem hmin hmax r hle
  obtain ⟨-, hfin⟩ := (positiveFinite64_iff _).1 hmax
  obtain ⟨hfs, -⟩ := finite_of_lt (h'.trans_lt hfin)
  exact ⟨h, h', hfs, clampFs_of_mem hmin hmax h h'⟩

end Sys2Proof.Machine
end

section
/-! PROOFS. The invariant: one lemma for each operation of the commands and the ports, then every step
(10_state.md R30, R31, R37, R38, R45, 60_exceptions.md R200). -/

namespace Sys2Proof.Machine

theorem Hist.noSubnormal_iff (h : Hist) : h.noSubnormal = true ↔ h.flushed := by
  simp only [Hist.noSubnormal, Hist.flushed, Bool.and_eq_true, Bool.not_eq_true', and_assoc]

theorem Hist.zero_noSubnormal : Hist.zero.noSubnormal = true := by decide

/-- A block whose STATUS and histories have their reset values needs only a legal configuration and canonical
buffers. -/
theorem inv_of_reset {s : State} (hcfg : s.cfg.legal = true) (hbuf : s.buf.wf s.cfg.bufCap = true)
    (hhist : s.hist = ⟨Hist.zero, Hist.zero⟩) (hst : s.status = Status.reset) : s.Inv := by
  refine ⟨hcfg, hbuf, ?_, ?_, fun hp => ?_⟩
  · rw [hhist]; exact ⟨Hist.zero_noSubnormal, Hist.zero_noSubnormal⟩
  · rw [hst]; exact ⟨by decide, by decide⟩
  · rw [hst] at hp; exact absurd hp Bool.false_ne_true

/-- Settles O45: the default parameters are legal. -/
theorem resetHasInv : Obligations.ResetHasInv := inv_of_reset (by decide) rfl rfl rfl

/-! ## The operations of the commands -/

/-- An error sets ERR and leaves a code from 1 to 4 (60_exceptions.md R200, R201). -/
theorem errorConsistent_raiseError (e : ErrorCode) {s : State} (h : s.status.errorConsistent) :
    (raiseError e s).status.errorConsistent := by
  obtain ⟨-, hmax⟩ := h
  obtain ⟨hne, hcode⟩ := e.code_range
  rw [raiseError_eq]
  by_cases h0 : s.status.ecode = 0#4
  · rw [if_pos h0]
    exact ⟨iff_of_true rfl hne, hcode⟩
  · rw [if_neg h0]
    exact ⟨iff_of_true rfl h0, hmax⟩

section
variable {s : State} (h : s.Inv)
include h

theorem inv_raiseError (e : ErrorCode) : (raiseError e s).Inv := by
  obtain ⟨hcfg, hbuf, hhist, herr, hprep⟩ := h
  exact ⟨hcfg, hbuf, hhist, errorConsistent_raiseError e herr, hprep⟩

theorem inv_loadDesign (d : Coef × Bool) : (loadDesign s d).Inv := h

theorem inv_loadCoefs (k : Coef) (chm : BitVec 2) : (loadCoefs k s (chans chm)).Inv := by
  rw [loadCoefs_chans]
  exact h

/-- Writes of one channel's history, of the buffers, of RUN and of the draws keep the invariant, where the
history is flushed and the buffers are canonical. -/
theorem inv_channel (c : Channel) {m : Memory} {f : Hist} (hm : m.wf s.cfg.bufCap = true)
    (hf : f.flushed) (r : PerChannel Bool) (d : Nat) :
    State.Inv { s with
      buf := m
      hist := s.hist.set c f
      draws := d
      status := { s.status with run := r } } := by
  obtain ⟨hcfg, -, ⟨h0, h1⟩, herr, hprep⟩ := h
  rw [← Hist.noSubnormal_iff] at hf
  refine ⟨hcfg, hm, ?_, herr, hprep⟩
  cases c
  · exact ⟨hf, h1⟩
  · exact ⟨h0, hf⟩

theorem inv_silence (c : Channel) : (silence s c).Inv := by
  obtain ⟨-, hbuf, -⟩ := id h
  exact inv_channel h c hbuf ((Hist.noSubnormal_iff _).1 Hist.zero_noSubnormal) _ s.draws

theorem inv_procChannel (cnt : Nat) (c : Channel) : (procChannel cnt s c).Inv := by
  obtain ⟨-, hbuf, ⟨h0, h1⟩, -⟩ := id h
  have E := procSamples_effect c cnt 0 s
  have hf : (s.hist.get c).flushed := by
    rw [← Hist.noSubnormal_iff]
    cases c
    · exact h0
    · exact h1
  have hbuf' := E.canonical hbuf
  rw [procChannel_eq, E.frame]
  rw [E.frame] at hbuf'
  exact inv_channel h c hbuf' (E.flushed hf) _ _

/-- PREPARE's writes of a legal block size make a prepared block within its ranges. -/
theorem inv_configure (h1 : 1 ≤ s.args.maxBlk.toNat) (h2 : s.args.maxBlk.toNat ≤ s.cfg.bufCap) :
    (configure s).Inv := by
  obtain ⟨hcfg, hbuf, -, herr, -⟩ := h
  obtain ⟨-, hmin, hmax, hle⟩ := (Config.legal_iff _).1 hcfg
  rw [configure_eq]
  exact ⟨hcfg, hbuf, ⟨Hist.zero_noSubnormal, Hist.zero_noSubnormal⟩, herr,
    fun _ => ⟨clampFs_mem hmin hmax s.args.fs hle, h1, h2⟩⟩

/-- Every command keeps the invariant. -/
theorem exec_inv {i : Instr} {t : State} (hex : exec i s = .next t) : t.Inv := by
  rcases exec_cases hex with rfl | ⟨e, rfl⟩ | ⟨-, hlo, hhi, rfl⟩ | ⟨-, rfl⟩ | ⟨chm, -, rfl⟩ | ⟨chm, cnt, -, rfl⟩ |
    ⟨chm, -, rfl⟩ | ⟨-, rfl⟩
  · exact h
  · exact inv_raiseError h e
  · exact inv_loadDesign (inv_configure h hlo hhi) _
  · exact inv_loadDesign h _
  · exact inv_loadCoefs h _ chm
  · exact List.foldlRecOn _ _ h fun u hu c _ => inv_procChannel hu cnt c
  · exact List.foldlRecOn _ _ h fun u hu c _ => inv_silence hu c
  · obtain ⟨hcfg, hbuf, -⟩ := h
    exact inv_of_reset hcfg hbuf rfl rfl

/-- So does every access that is none: of the fields the invariant speaks of it writes the buffers only. -/
theorem inv_access {t : State} (hacc : AccessEffect s t) : t.Inv := by
  obtain ⟨hcfg, hbuf, hrest⟩ := h
  rw [hacc.frame]
  exact ⟨hcfg, hacc.canonical hbuf, hrest⟩

end

/-- Settles O44: by what a step can do, and each command. -/
theorem stepKeepsInv : Obligations.StepKeepsInv := by
  intro s t h hstep
  rcases step_effect hstep with ⟨w, i, rest, -, -, hex⟩ | rfl | ⟨-, rfl⟩ | hacc
  · exact exec_inv (s := s.setPending rest) h hex
  · exact inv_raiseError (s := s.setPending s.pending.tail) h _
  · obtain ⟨hcfg, -⟩ := h
    exact inv_of_reset hcfg rfl rfl rfl
  · exact inv_access h hacc

end Sys2Proof.Machine
end

section
/-! PROOFS. One designed set in both channels (10_state.md R46). -/

namespace Sys2Proof.Machine

/-- A designed set has B1 = A1: both are the same quotient (41_designer.md R127). -/
theorem designNote_b1_eq_a1 (cfg : Config) (n : Word) (fs : F64) :
    (designNote cfg n fs).1.b1 = (designNote cfg n fs).1.a1 := by
  rw [designNote, design_coef, coefFrom]

theorem oneDesignedSet_loadDesign (s : State) (cfg : Config) (n : Word) (fs : F64) :
    (loadDesign s (designNote cfg n fs)).oneDesignedSet := ⟨rfl, designNote_b1_eq_a1 cfg n fs⟩

/-- Every command but SETC keeps one designed set in both channels. -/
theorem exec_oneDesignedSet {i : Instr} {s t : State} (hi : ∀ chm, i ≠ .setc chm) (hs : s.oneDesignedSet)
    (h : exec i s = .next t) : t.oneDesignedSet := by
  rcases exec_cases h with rfl | ⟨e, rfl⟩ | ⟨-, -, -, rfl⟩ | ⟨-, rfl⟩ | ⟨chm, rfl, -⟩ | ⟨chm, cnt, -, rfl⟩ |
    ⟨chm, -, rfl⟩ | ⟨-, rfl⟩
  · exact hs
  · exact hs
  · exact oneDesignedSet_loadDesign _ _ _ _
  · exact oneDesignedSet_loadDesign _ _ _ _
  · exact absurd rfl (hi chm)
  · obtain ⟨m, f, d, r, heq⟩ := foldl_procChannel_frame cnt (chans chm) s
    rw [heq]; exact hs
  · rw [foldl_silence]; exact hs
  · exact ⟨rfl, rfl⟩

/-- The write to CMD of a word that decodes to another command is no SETC event. -/
theorem ne_setc_of_isSetc_false {w : Word} {i : Instr} (hi : decode w = .ok i)
    (h : isSetc (.hostWrite cmdAddr w) = false) (chm : BitVec 2) : i ≠ .setc chm := by
  rintro rfl
  simp [isSetc, hi] at h

theorem step_oneDesignedSet {s t : State} (hs : s.oneDesignedSet)
    (hno : ∀ e, s.pending.head? = some e → isSetc e = false) (h : step s = .next t) : t.oneDesignedSet := by
  rcases step_effect h with ⟨w, i, rest, hpend, hi, hex⟩ | rfl | ⟨-, rfl⟩ | hacc
  · have hne := hno (.hostWrite cmdAddr w) (by rw [hpend, List.head?_cons])
    exact exec_oneDesignedSet (s := s.setPending rest) (ne_setc_of_isSetc_false hi hne) hs hex
  · exact hs
  · exact ⟨rfl, rfl⟩
  · rw [hacc.frame]
    exact hs

/-- Both channels hold one designed set, and no SETC is still to come. -/
def DesignedToCome (s : State) : Prop := s.oneDesignedSet ∧ ∀ e ∈ s.pending, isSetc e = false

theorem step_designedToCome (s t : State) (hs : DesignedToCome s) (h : step s = .next t) :
    DesignedToCome t := by
  obtain ⟨hset, hno⟩ := hs
  refine ⟨step_oneDesignedSet hset (fun e he => hno e (List.mem_of_head? he)) h, fun e he => hno e ?_⟩
  rw [step_pending h] at he
  exact List.mem_of_mem_tail he

/-- Settles O46: a step without a SETC keeps the set; along a run the events still pending hold no SETC
either. -/
theorem designedSetsStayEqual : Obligations.DesignedSetsStayEqual := by
  refine ⟨fun s t hs hno h => step_oneDesignedSet hs hno h, fun es k t hno hrun => ?_⟩
  have hreset : DesignedToCome { State.reset with pending := es } := ⟨⟨rfl, rfl⟩, hno⟩
  obtain ⟨hset, -⟩ := run_keeps step_designedToCome k _ t hreset hrun
  exact hset

end Sys2Proof.Machine
end

section
/-! PROOFS. The host port's register map, STATUS as a word, and power-on (10_state.md R22 to R25, R32, R44,
20_memory.md R63 to R65). -/

namespace Sys2Proof.Machine

/-! ## Registers and reserved addresses -/

/-- A host address below the windows reaches the register map. -/
theorem hostRead_reg (s : State) {a : HostAddr} (ha : a.toNat < windowBase) :
    hostRead s a = (readReg s a.toNat, s) := if_pos ha

theorem hostWrite_reg (s : State) {a : HostAddr} (v : Word) (ha : a.toNat < windowBase) :
    hostWrite s a v = writeReg s a.toNat v := if_pos ha

theorem ne_cmdAddr_of_window {a : HostAddr} (h : windowBase ≤ a.toNat) : a ≠ cmdAddr := by
  rintro rfl
  exact absurd h (by decide)

/-- The reserved addresses from the windows on: from BUF_CAP on in each, and above both (20_memory.md R63). -/
theorem isBufWord_reserved {cap a : Nat} (h : 0xC000 ≤ a ∨ (0x4000 ≤ a ∧ a < 0x8000 ∧ 0x4000 + cap ≤ a) ∨
    (0x8000 ≤ a ∧ a < 0xC000 ∧ 0x8000 + cap ≤ a)) : isBufWord cap a = false := by
  rw [← Bool.not_eq_true, isBufWord_eq_true]
  omega

theorem hostRead_reserved (s : State) {a : HostAddr} (ha : windowBase ≤ a.toNat)
    (hb : isBufWord s.cfg.bufCap a.toNat = false) : hostRead s a = (0#32, s) := by
  rw [hostRead, if_neg (by omega), memRead, hb]
  rfl

theorem hostWrite_reserved (s : State) {a : HostAddr} (v : Word) (ha : windowBase ≤ a.toNat)
    (hb : isBufWord s.cfg.bufCap a.toNat = false) : hostWrite s a v = s := by
  rw [hostWrite, if_neg (by omega), memWrite_reserved s v hb]

/-- The addresses without a register give 0 (20_memory.md R64). -/
theorem readReg_reserved (s : State) {n : Nat} (h : n = 0x15 ∨ n = 0x16 ∨ n = 0x17 ∨ n = 0x1D ∨ n = 0x1E ∨
    n = 0x1F ∨ (0x24 ≤ n ∧ n ≤ 0x27) ∨ 0x2C ≤ n) : readReg s n = 0#32 := by
  unfold readReg
  split
  case h_34 => rfl
  all_goals omega

/-- The addresses without a writable register ignore a write (10_state.md R22, 20_memory.md R64). -/
theorem writeReg_ignored (s : State) {n : Nat} (v : Word) (h : n = 0x1 ∨ 0xB ≤ n) : writeReg s n v = s := by
  unfold writeReg
  split
  case h_10 => rfl
  all_goals omega

/-- Settles O11: an address below the windows gives its register, and the reserved ones give 0. -/
theorem hostReadFollowsRegisterMap : Obligations.HostReadFollowsRegisterMap := by
  intro s reads
  have reg (a : HostAddr) (ha : a.toNat < windowBase) : reads a (readReg s a.toNat) := fun rest hpend => by
    rw [step_hostRead hpend, hostRead_reg _ ha]
    rfl
  refine ⟨reg 0x00 (by decide), reg 0x01 (by decide), reg 0x02 (by decide), reg 0x03 (by decide),
    reg 0x04 (by decide), reg 0x05 (by decide), reg 0x06 (by decide), reg 0x07 (by decide),
    reg 0x08 (by decide), reg 0x09 (by decide), reg 0x0A (by decide), reg 0x0B (by decide),
    reg 0x0C (by decide), reg 0x0D (by decide), reg 0x0E (by decide), reg 0x0F (by decide),
    reg 0x10 (by decide), reg 0x11 (by decide), reg 0x12 (by decide), reg 0x13 (by decide),
    reg 0x14 (by decide), reg 0x18 (by decide), reg 0x19 (by decide), reg 0x1A (by decide),
    reg 0x1B (by decide), reg 0x1C (by decide), reg 0x20 (by decide), reg 0x21 (by decide),
    reg 0x22 (by decide), reg 0x23 (by decide), reg 0x28 (by decide), reg 0x29 (by decide),
    reg 0x2A (by decide), reg 0x2B (by decide), fun a ha => ?_⟩
  rcases Nat.lt_or_ge a.toNat windowBase with hw | hw
  · have h0 : readReg s a.toNat = 0#32 := readReg_reserved s (by rw [windowBase] at hw; omega)
    exact h0 ▸ reg a hw
  · intro rest hpend
    rw [step_hostRead hpend, hostRead_reserved _ hw
      (isBufWord_reserved (by rw [windowBase] at hw; rw [State.setPending_cfg]; omega))]
    rfl

/-- Settles O12: an address below the windows reaches its writable register, if it has one, and the reserved
ones ignore the word. -/
theorem hostWriteFollowsRegisterMap : Obligations.HostWriteFollowsRegisterMap := by
  intro s v writes
  have reg (a : HostAddr) (ha : a.toNat < windowBase) (hne : a ≠ cmdAddr) (rest : List Event)
      (hpend : s.pending = .hostWrite a v :: rest) :
      step s = .next (writeReg (s.setPending rest) a.toNat v) := by
    rw [step_hostWrite hpend hne, hostWrite_reg _ v ha]
  refine ⟨reg 0x2 (by decide) (by decide), reg 0x3 (by decide) (by decide), reg 0x4 (by decide) (by decide),
    reg 0x5 (by decide) (by decide), reg 0x6 (by decide) (by decide), reg 0x7 (by decide) (by decide),
    reg 0x8 (by decide) (by decide), reg 0x9 (by decide) (by decide), reg 0xA (by decide) (by decide),
    fun a ha rest hpend => ?_⟩
  have hne : a ≠ cmdAddr := by
    rintro rfl
    simp [cmdAddr] at ha
  rcases Nat.lt_or_ge a.toNat windowBase with hw | hw
  · rw [reg a hw hne rest hpend, writeReg_ignored _ v (by rw [windowBase] at hw; omega)]
    rfl
  · rw [step_hostWrite hpend hne, hostWrite_reserved _ v hw
      (isBufWord_reserved (by rw [windowBase] at hw; rw [State.setPending_cfg]; omega))]
    rfl

/-! ## Buffer words -/

/-- The host address of a buffer word. -/
theorem bufAddr_toNat (c : Channel) {i : Nat} (hi : i < 16384) :
    (BitVec.ofNat 16 (bufBase c + i)).toNat = bufBase c + i ∧ windowBase ≤ bufBase c + i := by
  rw [BitVec.toNat_ofNat]
  cases c <;> simp only [bufBase, windowBase] <;> omega

/-- Settles O13: the write is a store at that address, by the laws of read after write. -/
theorem hostWriteOfBufferWord : Obligations.HostWriteOfBufferWord := by
  intro s c i v rest hi hcap hpend
  obtain ⟨haddr, hbase⟩ := bufAddr_toNat c (hi.trans_le hcap)
  have hne : BitVec.ofNat 16 (bufBase c + i) ≠ cmdAddr := ne_cmdAddr_of_window (by rwa [haddr])
  refine ⟨{ s with pending := rest, buf := s.buf.store (bufBase c + i) v }, ?_, rfl,
    Memory.find_store_same _ _ v, fun a ha => Memory.find_store_other _ v ha⟩
  rw [step_hostWrite hpend hne, hostWrite, haddr, if_neg (by omega),
    memWrite_bufWord (s.setPending rest) v (isBufWord_base s.cfg.bufCap c i hi hcap)]
  rfl

/-! ## STATUS -/

/-- STATUS bit by bit. -/
theorem Status.word_getLsbD (st : Status) (i : Nat) : st.word.getLsbD i =
    if i = 0 then st.prep else if i = 1 then st.run.ch0 else if i = 2 then st.run.ch1
    else if i = 3 then st.fclamp else if i = 4 then st.fsclamp else if i = 8 then st.err
    else if 12 ≤ i then st.ecode.getLsbD (i - 12) else false := by
  simp only [Status.word, BitVec.getLsbD_append, BitVec.getLsbD_ofBool, BitVec.getLsbD_zero]
  rcases Nat.lt_or_ge i 16 with h | h
  · interval_cases i <;> rfl
  · have he : st.ecode.getLsbD (i - 12) = false := BitVec.getLsbD_of_ge _ _ (by omega)
    rw [he, if_neg (by omega)]
    grind

/-- A field of STATUS is given by its bits. -/
theorem Status.word_extract (st : Status) (i : Nat) {n : Nat} {v : BitVec n}
    (h : ∀ j < n, st.word.getLsbD (i + j) = v.getLsbD j) : st.word.extractLsb' i n = v :=
  BitVec.eq_of_getLsbD_eq fun j hj => by
    rw [BitVec.getLsbD_extractLsb', h j hj, decide_eq_true hj, Bool.true_and]

/-- Settles O15: each bit of STATUS is a bit of its field or 0. -/
theorem statusWordLayout : Obligations.StatusWordLayout := by
  intro st
  refine ⟨st.word_getLsbD 0, st.word_getLsbD 1, st.word_getLsbD 2, st.word_getLsbD 3, st.word_getLsbD 4,
    st.word_extract 5 fun j hj => ?_, st.word_getLsbD 8, st.word_extract 9 fun j hj => ?_,
    st.word_extract 12 fun j hj => ?_, st.word_extract 16 fun j hj => ?_⟩
  all_goals
    rw [st.word_getLsbD]
    grind

/-! ## Power-on -/

theorem Status.word_reset : Status.reset.word = 0#32 := by decide

/-- Settles O18: a power-on sets every register to that of `State.reset`. -/
theorem powerOnValues : Obligations.PowerOnValues := by
  unfold Obligations.PowerOnValues
  intro resetValues
  have hreset (cfg : Config) (es : List Event) (d : Nat) :
      resetValues { State.reset with cfg := cfg, pending := es, draws := d } :=
    ⟨rfl, Status.word_reset, rfl, rfl, rfl, rfl, fun c => by cases c <;> rfl, fun c => by cases c <;> rfl,
      fun _ => rfl⟩
  exact ⟨hreset _ _ _, fun s rest hpend => ⟨_, step_powerOn hpend, hreset _ _ _, rfl, rfl⟩⟩

end Sys2Proof.Machine
end

section
/-! PROOFS. The two ports' accesses of NOTE and of buffer words, and the refusal of another width (20_memory.md
R62 to R71, R79). -/

namespace Sys2Proof.Machine

/-! ## Steps on the control port, and a refused access -/

theorem step_ctrlRead {s : State} {rest : List Event} (hpend : s.pending = .ctrlRead :: rest) :
    step s = .next ((s.setPending rest).setCtrlReply (some s.note)) := by
  simp only [step, advance, hpend, perform, State.setPending_note]

theorem step_ctrlWrite {s : State} {v : Word} {rest : List Event}
    (hpend : s.pending = .ctrlWrite v :: rest) : step s = .next ((s.setPending rest).setNote v) := by
  simp only [step, advance, hpend, perform]

theorem step_otherWidth {s : State} {port : Port} {bits : Nat} {rest : List Event}
    (hpend : s.pending = .otherWidth port bits :: rest) : step s = .refused (.accessWidth port bits) := by
  simp only [step, advance, hpend, perform]

/-- A host read of 0x0002 gives NOTE. -/
theorem step_hostReadNote {s : State} {rest : List Event}
    (hpend : s.pending = .hostRead 0x0002#16 :: rest) :
    step s = .next ((s.setPending rest).setHostReply (some s.note)) := by
  rw [step_hostRead hpend, hostRead_reg _ (by decide)]
  rfl

/-- Settles O10: the step on an access of another width. -/
theorem otherWidthsAreRefused : Obligations.OtherWidthsAreRefused :=
  fun _ _ _ _ hpend => step_otherWidth hpend

/-- Settles O16: the steps on the three accesses. -/
theorem controlPortReachesNote : Obligations.ControlPortReachesNote :=
  fun _ _ => ⟨fun _ hpend => step_ctrlWrite hpend, fun hpend => step_ctrlRead hpend,
    fun hpend => step_hostReadNote hpend⟩

/-! ## A host read of a buffer word -/

/-- A host address in the windows reaches the buffers. -/
theorem hostRead_bufWord (s : State) (c : Channel) {i : Nat} (hi : i < 16384) :
    hostRead s (BitVec.ofNat 16 (bufBase c + i)) = memRead s (bufBase c + i) := by
  obtain ⟨haddr, hbase⟩ := bufAddr_toNat c hi
  rw [hostRead, haddr, if_neg (by omega)]

/-- A buffer word that nothing has stored gives a free draw (20_memory.md R79). -/
theorem memRead_unstored (s : State) {a : Nat} (ha : isBufWord s.cfg.bufCap a = true)
    (hnone : s.buf.find a = none) : memRead s a = (Config.freeWord s.draws, s.setDraws (s.draws + 1)) := by
  simp [memRead, ha, hnone]

/-- Settles O14: the read is `memRead` at that address, of a stored word or of a free draw. -/
theorem hostReadOfBufferWord : Obligations.HostReadOfBufferWord := by
  intro s c i rest hi hcap hpend
  have hword : isBufWord s.cfg.bufCap (bufBase c + i) = true := isBufWord_base _ c i hi hcap
  rw [step_hostRead hpend, hostRead_bufWord _ c (hi.trans_le hcap)]
  refine ⟨fun v hv => ?_, fun hnone => ?_⟩
  · rw [memRead_stored (s.setPending rest) hword hv]
    rfl
  · rw [memRead_unstored (s.setPending rest) hword hnone]
    rfl

/-! ## NOTE over the order of all events -/

/-- A host write to any address but CMD writes NOTE at 0x0002 and nowhere else. -/
theorem hostWrite_note (s : State) (a : HostAddr) (v : Word) :
    (hostWrite s a v).note = if a = 0x0002#16 then v else s.note := by
  split
  next ha => subst ha; rfl
  next ha =>
    rcases hostWrite_cases s a v with h | ⟨h2, -⟩ | ⟨-, r, h⟩ | ⟨-, m, h, -⟩
    · rw [h]
    · exact absurd h2 ha
    · rw [h]; rfl
    · rw [h]; rfl

/-- A step leaves NOTE as its event does: only a host write to 0x0002, a control write and a power-on change
it (10_state.md R33, 20_memory.md R69). -/
theorem step_note {s t : State} {e : Event} {rest : List Event} (hpend : s.pending = e :: rest)
    (h : step s = .next t) : t.note = noteAfter s.note e := by
  rcases step_cases h with ⟨hnil, -⟩ | ⟨e', rest', hpend', he⟩
  · rw [hpend] at hnil
    cases hnil
  rw [hpend] at hpend'
  cases hpend'
  rcases he with ⟨a, rfl, rfl⟩ | ⟨w, i, rfl, -, hex⟩ | ⟨w, why, rfl, -, rfl⟩ | ⟨a, v, rfl, -, rfl⟩ |
    ⟨rfl, rfl⟩ | ⟨v, rfl, rfl⟩ | ⟨rfl, rfl⟩
  · obtain ⟨d, hd⟩ := hostRead_state (s.setPending rest) a
    rw [hd]
    rfl
  · obtain ⟨hnote, -⟩ := exec_note_pending hex
    exact hnote
  · rfl
  · exact hostWrite_note (s.setPending rest) a v
  · rfl
  · rfl
  · rfl

/-- A run over a list of events leaves what its last write of NOTE left, and takes exactly those events
(20_memory.md R70). -/
theorem run_note (es rest : List Event) {s t : State} (hpend : s.pending = es ++ rest)
    (h : Host.Core.run core es.length s = .next t) :
    t.note = es.foldl noteAfter s.note ∧ t.pending = rest := by
  induction es generalizing s with
  | nil =>
    cases h
    exact ⟨rfl, hpend⟩
  | cons e es ih =>
    obtain ⟨u, hu, hrun⟩ := run_succ_next h
    have hnote : u.note = noteAfter s.note e := step_note hpend hu
    have htail : u.pending = es ++ rest := by rw [step_pending hu, hpend]; rfl
    rw [List.foldl_cons, ← hnote]
    exact ih htail hrun

/-- UPDATE on a prepared block designs both channels from NOTE (41_designer.md R140). -/
theorem exec_update_prepared {s : State} (hp : s.status.prep = true) :
    exec .update s = .next (loadDesign s (designNote s.cfg s.note s.fs)) := if_pos hp

/-- Settles O42: by induction on the list of events, then the steps on the three events that read NOTE. -/
theorem noteIsSequentiallyConsistent : Obligations.NoteIsSequentiallyConsistent := by
  intro es rest s t hrun n
  obtain ⟨hnote, hpend⟩ : t.note = n ∧ t.pending = rest := run_note (s := { s with pending := es ++ rest }) es rest rfl hrun
  refine ⟨hnote, hpend, ?_, ?_, ?_⟩
  · rintro r rfl
    exact ⟨_, step_ctrlRead hpend, congrArg some hnote⟩
  · rintro r rfl
    exact ⟨_, step_hostReadNote hpend, congrArg some hnote⟩
  · rintro r rfl hprep
    have hdec : decode 0x00000002#32 = .ok .update := by decide
    rw [← hnote]
    exact ⟨_, (step_command hpend hdec).trans (exec_update_prepared (s := t.setPending r) hprep), rfl, rfl⟩

end Sys2Proof.Machine
end

section
/-! PROOFS. PROC over its selected channels: what it leaves, and that it computes the recurrence over each
channel's block (42_channel_filter.md R165, R166, R173, 20_memory.md R78). -/

namespace Sys2Proof.Machine

theorem mem_chans {chm : BitVec 2} {c : Channel} : c ∈ chans chm ↔ selects chm c = true := by
  cases c <;> simp [chans]

theorem chans_nodup (chm : BitVec 2) : (chans chm).Nodup := List.Nodup.filter _ (by decide)

/-! ## The frame -/

/-- What PROC on a list of channels leaves: all but the buffers, the histories, RUN and the count of draws; the
history of a channel not in the list, and every word outside the blocks of the list; RUN is set where a sample
was processed. -/
structure ProcFrame (cs : List Channel) (cnt : Nat) (s t : State) : Prop where
  frame : t = { s with
    buf := t.buf
    hist := t.hist
    draws := t.draws
    status := { s.status with run := t.status.run } }
  run : ∀ c, t.status.run.get c = (s.status.run.get c || (decide (c ∈ cs) && decide (1 ≤ cnt)))
  hist : ∀ c, c ∉ cs → t.hist.get c = s.hist.get c
  words : ∀ a, (∀ c ∈ cs, ¬ inBlock c cnt a) → t.buf.find a = s.buf.find a

theorem procFrame_nil (cnt : Nat) (s : State) : ProcFrame [] cnt s s :=
  ⟨rfl, by simp, fun _ _ => rfl, fun _ _ => rfl⟩

/-- A first channel, then the rest of the list. -/
theorem ProcFrame.cons {c : Channel} {cs : List Channel} {cnt : Nat} {s t : State}
    (h : ProcFrame cs cnt (procChannel cnt s c) t) : ProcFrame (c :: cs) cnt s t := by
  obtain ⟨hframe, hrun, hhist, hwords⟩ := h
  have hs := procSamples_effect c cnt 0 s
  have hf := hs.frame
  have hw := hs.words
  rw [procChannel_eq] at hframe hrun hhist hwords
  generalize procSamples c cnt 0 s = u at *
  refine ⟨?_, fun d => ?_, fun d hd => ?_, fun a ha => ?_⟩
  · rw [hframe, hf]
  · rw [hrun]
    by_cases hd : d = c
    · subst hd
      rw [PerChannel.get_set_same]
      cases decide (1 ≤ cnt) <;> simp
    · simp [PerChannel.get_set_other _ _ hd, hd]
  · rw [List.mem_cons, not_or] at hd
    obtain ⟨hdc, hd⟩ := hd
    rw [hhist d hd, hf]
    exact PerChannel.get_set_other _ _ hdc
  · rw [List.forall_mem_cons] at ha
    obtain ⟨hc, hcs⟩ := ha
    rw [hwords a hcs]
    exact hw a hc

theorem procFrame_foldl (cs : List Channel) (cnt : Nat) (s : State) :
    ProcFrame cs cnt s (cs.foldl (procChannel cnt) s) := by
  induction cs generalizing s with
  | nil => exact procFrame_nil cnt s
  | cons c cs ih => exact (ih (procChannel cnt s c)).cons

/-- No sample, no effect (42_channel_filter.md R173). -/
theorem procChannel_zero (s : State) (c : Channel) : procChannel 0 s c = s := rfl

/-- PROC on a prepared block, with a count up to MAXBLK, filters its channels in turn. -/
theorem exec_proc_prepared {chm : BitVec 2} {cnt : Nat} {s : State} (hp : s.status.prep = true)
    (hcnt : cnt ≤ s.maxBlk.toNat) :
    exec (.proc chm cnt) s = .next ((chans chm).foldl (procChannel cnt) s) := by
  rw [exec, execProc, if_pos hp, if_neg (by omega)]

/-- Settles O28: by the frame of the channels in turn. -/
theorem procCompletesWithinFrame : Obligations.ProcCompletesWithinFrame := by
  intro chm cnt s hp hcnt
  refine ⟨_, exec_proc_prepared hp hcnt, ?_⟩
  obtain ⟨hframe, hrun, hhist, hwords⟩ := procFrame_foldl (chans chm) cnt s
  have hzero : chm = 0#2 ∨ cnt = 0 → (chans chm).foldl (procChannel cnt) s = s := by
    rintro (rfl | rfl)
    · rfl
    · exact List.foldl_fixed' (procChannel_zero s) _
  generalize (chans chm).foldl (procChannel cnt) s = t at *
  have hr : t.status.run = ⟨s.status.run.ch0 || (chm.getLsbD 0 && decide (1 ≤ cnt)),
      s.status.run.ch1 || (chm.getLsbD 1 && decide (1 ≤ cnt))⟩ := by
    have h0 := hrun .ch0
    have h1 := hrun .ch1
    simp only [mem_chans, Bool.decide_eq_true] at h0 h1
    exact congrArg₂ PerChannel.mk h0 h1
  have hkeep (c : Channel) (hc : selects chm c = false) : t.hist.get c = s.hist.get c :=
    hhist c (by simp [mem_chans, hc])
  refine ⟨by rw [← hr]; exact hframe, hkeep .ch0, hkeep .ch1, hzero, fun a h0 h1 => hwords a fun c hc => ?_⟩
  rw [mem_chans] at hc
  cases c with
  | ch0 => exact fun hin => h0 ⟨hc, hin⟩
  | ch1 => exact fun hin => h1 ⟨hc, hin⟩

/-! ## The recurrence -/

/-- The channels' blocks do not overlap. -/
theorem inBlock_disjoint {c d : Channel} {n a : Nat} (hcd : c ≠ d) (hn : n ≤ 16384) (h : inBlock d n a) :
    ¬ inBlock c n a := by
  obtain ⟨hlo, hhi⟩ := h
  rintro ⟨hlo', hhi'⟩
  cases c <;> cases d <;> simp only [bufBase, ne_eq, not_true] at * <;> omega

/-- PROC on a list of channels leaves the block of a channel not in it. -/
theorem ProcFrame.block {cs : List Channel} {cnt : Nat} {s t : State} (h : ProcFrame cs cnt s t)
    {d : Channel} (hd : d ∉ cs) (hn : cnt ≤ 16384) : blockWords t.buf d cnt = blockWords s.buf d cnt := by
  refine blockWords_congr fun j hj => h.words _ fun c hc => ?_
  have hcd : c ≠ d := by
    rintro rfl
    exact hd hc
  exact inBlock_disjoint hcd hn ⟨Nat.le_add_right _ j, Nat.add_lt_add_left hj _⟩

/-- PROC writes no coefficient. -/
theorem ProcFrame.coef {cs : List Channel} {cnt : Nat} {s t : State} (h : ProcFrame cs cnt s t) :
    t.coef = s.coef := by
  rw [h.frame]

/-- Channel `c` of `t` holds what the recurrence over the inputs `xs` gives from `s`. -/
def Filtered (c : Channel) (cnt : Nat) (xs : List Word) (s t : State) : Prop :=
  blockWords t.buf c cnt = (filterBlock (s.coef.get c) (s.hist.get c) xs).1.map some ∧
    t.hist.get c = (filterBlock (s.coef.get c) (s.hist.get c) xs).2

/-- A ready channel with a written block is filtered. -/
theorem procChannel_filtered {c : Channel} {cnt : Nat} {xs : List Word} {s : State} (h : ProcReady s cnt)
    (hx : blockWords s.buf c cnt = xs.map some) : Filtered c cnt xs s (procChannel cnt s c) := by
  obtain ⟨rfl, hword⟩ := blockWords_elems hx
  obtain ⟨m, heq, hout, -, -⟩ := procChannel_written c xs s h hword
  rw [heq]
  refine ⟨?_, PerChannel.get_set_same _ _ _⟩
  have := blockWords_of_elems (xs := (filterBlock (s.coef.get c) (s.hist.get c) xs).1) (m := m) (c := c)
    fun j hj => hout j (by rwa [filterBlock_length] at hj)
  rwa [filterBlock_length] at this

/-- Distinct ready channels with written blocks are filtered, in turn: one leaves the others' inputs, and
afterwards its outputs. -/
theorem foldl_procChannel_filtered {cs : List Channel} (hcs : cs.Nodup) {cnt : Nat} {xs : Channel → List Word}
    {s : State} (h : ProcReady s cnt) (hx : ∀ c ∈ cs, blockWords s.buf c cnt = (xs c).map some) :
    ∀ c ∈ cs, Filtered c cnt (xs c) s (cs.foldl (procChannel cnt) s) := by
  have hn : cnt ≤ 16384 := by
    obtain ⟨hcap, hmax⟩ := h.buf
    omega
  induction cs generalizing s with
  | nil => simp
  | cons c cs ih =>
    obtain ⟨hc, hcs⟩ := List.nodup_cons.mp hcs
    obtain ⟨hxc, hxs⟩ := List.forall_mem_cons.mp hx
    rw [List.forall_mem_cons, List.foldl_cons]
    refine ⟨?_, fun d hd => ?_⟩
    · have hrest := procFrame_foldl cs cnt (procChannel cnt s c)
      obtain ⟨hout, hhist⟩ := procChannel_filtered h hxc
      exact ⟨(hrest.block hc hn).trans hout, (hrest.hist c hc).trans hhist⟩
    · have hfirst : ProcFrame [c] cnt s (procChannel cnt s c) := procFrame_foldl [c] cnt s
      have hne (e : Channel) (he : e ∈ cs) : e ∉ [c] := by
        rw [List.mem_singleton]
        rintro rfl
        exact hc he
      have hd' := ih hcs h.channel (fun e he => (hfirst.block (hne e he) hn).trans (hxs e he)) d hd
      rwa [Filtered, hfirst.coef, hfirst.hist d (hne d hd)] at hd'

/-- Settles O29: by induction on the selected channels, each filtered on its own block. -/
theorem procComputesRecurrence : Obligations.ProcComputesRecurrence := by
  intro chm cnt s xs h hx
  exact ⟨_, h.exec, fun c hc => foldl_procChannel_filtered (chans_nodup chm) h
    (fun d hd => hx d (mem_chans.mp hd)) c (mem_chans.mpr hc)⟩

end Sys2Proof.Machine
end

section
/-! PROOFS. The decoder and the encoder are inverse, the decoder is the opcode table, and which words are
illegal (30_encoding.md R80 to R88). -/

namespace Sys2Proof

/-! ## Decoding and encoding -/

/-- Settles O1: command by command, from the fields of the format. -/
theorem decodeOfEncode : Obligations.DecodeOfEncode := by
  intro i hi
  cases i with
  | nop => simp [encode, decode, decodeWhole]
  | prepare => simp [encode, decode, decodeWhole]
  | update => simp [encode, decode, decodeWhole]
  | setc chm => simp [encode, decode, decodeChannels]
  | proc chm cnt =>
    have hcnt : cnt < 65536 := Nat.lt_succ_of_le (of_decide_eq_true hi)
    simp [encode, decode, Nat.mod_eq_of_lt hcnt]
  | hrst chm => simp [encode, decode, decodeChannels]
  | srst => simp [encode, decode, decodeWhole]

/-- A word whose reserved field is 0 is the format of what its fields hold. -/
theorem formatC_eq {w : Word} {op : BitVec 4} {chm : BitVec 2} {cnt : BitVec 16} (hrsv : rsvField w = 0#10)
    (hop : opField w = op) (hchm : chmField w = chm) (hcnt : cntField w = cnt) : formatC op chm cnt = w := by
  rw [← hop, ← hchm, ← hcnt, formatC_fields w hrsv]

/-- A number is a well-formed count whose bits are the field CNT exactly when it is the field's value. -/
theorem proc_wf_and_ofNat_eq_iff {chm : BitVec 2} {n : Nat} {v : BitVec 16} :
    (Instr.proc chm n).wf = true ∧ BitVec.ofNat 16 n = v ↔ n = v.toNat := by
  have hv := v.isLt
  rw [Instr.wf, decide_eq_true_iff, ← BitVec.toNat_inj, BitVec.toNat_ofNat]
  omega

/-- A word of PROC's OP is the encoding of the PROC of its fields, whose count is within its range. -/
theorem encode_proc_fields {w : Word} (hrsv : rsvField w = 0#10) (hop : opField w = 0x4#4) :
    (Instr.proc (chmField w) (cntField w).toNat).wf = true ∧
      encode (.proc (chmField w) (cntField w).toNat) = w := by
  obtain ⟨hwf, hcnt⟩ := (proc_wf_and_ofNat_eq_iff (chm := chmField w) (v := cntField w)).2 rfl
  exact ⟨hwf, formatC_eq hrsv hop rfl hcnt.symm⟩

/-- Settles O2: the fields that decoding a word requires are those of its command's format. -/
theorem encodeOfDecode : Obligations.EncodeOfDecode := by
  intro w i h
  obtain ⟨hrsv, hcases⟩ := decode_ok_cases h
  rcases hcases with ⟨rfl, hop, hchm, hcnt⟩ | ⟨rfl, hop, hchm, hcnt⟩ | ⟨rfl, hop, hchm, hcnt⟩ |
    ⟨rfl, hop, hcnt⟩ | ⟨rfl, hop⟩ | ⟨rfl, hop, hcnt⟩ | ⟨rfl, hop, hchm, hcnt⟩
  · exact ⟨rfl, formatC_eq hrsv hop hchm hcnt⟩
  · exact ⟨rfl, formatC_eq hrsv hop hchm hcnt⟩
  · exact ⟨rfl, formatC_eq hrsv hop hchm hcnt⟩
  · exact ⟨rfl, formatC_eq hrsv hop rfl hcnt⟩
  · exact encode_proc_fields hrsv hop
  · exact ⟨rfl, formatC_eq hrsv hop rfl hcnt⟩
  · exact ⟨rfl, formatC_eq hrsv hop hchm hcnt⟩

/-- A word decodes to a command exactly when the command is well-formed and the word is its encoding. -/
theorem decode_ok_iff {w : Word} {i : Instr} : decode w = .ok i ↔ i.wf = true ∧ encode i = w := by
  refine ⟨encodeOfDecode w i, ?_⟩
  rintro ⟨hwf, rfl⟩
  exact decodeOfEncode i hwf

/-- Settles O6: each word, as its fields, is the encoding of its command. -/
theorem sampleWordsDecode : Obligations.SampleWordsDecode :=
  ⟨decodeOfEncode .nop rfl, decodeOfEncode .prepare rfl, decodeOfEncode .update rfl,
    decodeOfEncode (.setc 1#2) rfl, decodeOfEncode (.proc 3#2 512) rfl, decodeOfEncode (.hrst 2#2) rfl,
    decodeOfEncode .srst rfl⟩

/-! ## The opcode table -/

/-- A command without operands has one word, which its row's full mask keeps whole. -/
theorem decode_ok_iff_full_mask {w : Word} {i : Instr} (hwf : i.wf = true) :
    decode w = .ok i ↔ w &&& 0xFFFFFFFF#32 = encode i := by
  rw [decode_ok_iff, and_iff_right hwf, and_full_mask, eq_comm]

/-- The mask of SETC and HRST keeps OP, RSV and CNT. -/
theorem formatC_eq_iff_channel_mask {op : BitVec 4} {chm : BitVec 2} {w : Word} :
    formatC op chm 0#16 = w ↔ w &&& 0xFFFFFFCF#32 = formatC op 0#2 0#16 ∧ chm = chmField w := by
  have hop := op.isLt
  have hchm := chm.isLt
  simp only [← BitVec.toNat_inj, and_channel_mask_toNat, formatC_toNat, chmField_toNat, BitVec.toNat_ofNat]
  omega

/-- The mask of PROC keeps OP and RSV. -/
theorem formatC_eq_iff_proc_mask {op : BitVec 4} {chm : BitVec 2} {cnt : BitVec 16} {w : Word} :
    formatC op chm cnt = w ↔
      w &&& 0x0000FFCF#32 = formatC op 0#2 0#16 ∧ chm = chmField w ∧ cnt = cntField w := by
  have hop := op.isLt
  have hchm := chm.isLt
  have hcnt := cnt.isLt
  simp only [← BitVec.toNat_inj, and_proc_mask_toNat, formatC_toNat, chmField_toNat, cntField_toNat,
    BitVec.toNat_ofNat]
  omega

/-- Settles O3: a word is its command's encoding exactly when the row's mask keeps the row's match and the
operands are the fields that the mask drops. -/
theorem decoderIsOpcodeTable : Obligations.DecoderIsOpcodeTable := by
  intro w
  refine ⟨decode_ok_iff_full_mask rfl, decode_ok_iff_full_mask rfl, decode_ok_iff_full_mask rfl,
    fun chm => decode_ok_iff.trans ((and_iff_right rfl).trans formatC_eq_iff_channel_mask),
    fun chm cnt => ?_,
    fun chm => decode_ok_iff.trans ((and_iff_right rfl).trans formatC_eq_iff_channel_mask),
    decode_ok_iff_full_mask rfl⟩
  rw [decode_ok_iff, encode, formatC_eq_iff_proc_mask, and_left_comm, and_left_comm (b := chm = _),
    proc_wf_and_ofNat_eq_iff]
  rfl

theorem rowSelects_rowOf_encode (i : Instr) : rowSelects (rowOf i) (encode i) = true := by
  cases i with
  | nop => exact Laws.RowMatch.nop
  | prepare => exact Laws.RowMatch.prepare
  | update => exact Laws.RowMatch.update
  | setc chm => exact Laws.RowMatch.setc chm
  | proc chm cnt => exact Laws.RowMatch.proc chm cnt
  | hrst chm => exact Laws.RowMatch.hrst chm
  | srst => exact Laws.RowMatch.srst

theorem rowOf_mem_opcodeTable (i : Instr) : rowOf i ∈ opcodeTable := by
  cases i <;> simp [rowOf, opcodeTable]

theorem opField_mask : ∀ r ∈ opcodeTable, opField r.2 = BitVec.allOnes 4 := by
  simp [opcodeTable, opField]

theorem eq_of_opField_match : ∀ r₁ ∈ opcodeTable, ∀ r₂ ∈ opcodeTable,
    opField r₁.1 = opField r₂.1 → r₁ = r₂ := by
  simp [opcodeTable, opField]

/-- A row that selects a word has the word's OP in its match, as every row's mask keeps OP. -/
theorem opField_of_rowSelects {r : Word × Word} {w : Word} (hr : r ∈ opcodeTable)
    (h : rowSelects r w = true) : opField w = opField r.1 := by
  have hand : opField (w &&& r.2) = opField w &&& opField r.2 := BitVec.extractLsb'_and
  rw [rowSelects, beq_iff_eq] at h
  rw [← h, hand, opField_mask r hr, BitVec.and_allOnes]

/-- A word decodes exactly when a row of the table selects it. -/
theorem decode_ok_iff_row (w : Word) :
    (∃ i, decode w = .ok i) ↔ ∃ r ∈ opcodeTable, rowSelects r w = true := by
  constructor
  · rintro ⟨i, hi⟩
    obtain ⟨-, rfl⟩ := encodeOfDecode w i hi
    exact ⟨rowOf i, rowOf_mem_opcodeTable i, rowSelects_rowOf_encode i⟩
  · rintro ⟨r, hr, h⟩
    obtain ⟨hnop, hprepare, hupdate, hsetc, hproc, hhrst, hsrst⟩ := decoderIsOpcodeTable w
    rw [rowSelects, beq_iff_eq] at h
    simp only [opcodeTable, List.mem_cons, List.not_mem_nil, or_false] at hr
    rcases hr with rfl | rfl | rfl | rfl | rfl | rfl | rfl
    · exact ⟨_, hnop.2 h⟩
    · exact ⟨_, hprepare.2 h⟩
    · exact ⟨_, hupdate.2 h⟩
    · exact ⟨_, (hsetc _).2 ⟨h, rfl⟩⟩
    · exact ⟨_, (hproc _ _).2 ⟨h, rfl, rfl⟩⟩
    · exact ⟨_, (hhrst _).2 ⟨h, rfl⟩⟩
    · exact ⟨_, hsrst.2 h⟩

/-- A word is rejected exactly when it decodes to no command. -/
theorem decode_error_iff_not_ok (w : Word) :
    (∃ why, decode w = .error why) ↔ ¬ ∃ i, decode w = .ok i := by
  cases decode w <;> simp

/-- Settles O4: the row of a word is fixed by the word's OP, and a word decodes exactly when a row selects
it. -/
theorem rowsDoNotOverlap : Obligations.RowsDoNotOverlap := by
  intro w
  refine ⟨fun r₁ hr₁ r₂ hr₂ h₁ h₂ => ?_, ?_⟩
  · exact eq_of_opField_match r₁ hr₁ r₂ hr₂
      ((opField_of_rowSelects hr₁ h₁).symm.trans (opField_of_rowSelects hr₂ h₂))
  · rw [decode_error_iff_not_ok, decode_ok_iff_row]
    simp only [not_exists, not_and, Bool.not_eq_true]

/-! ## The illegal words -/

/-- The words that decode, by their fields (30_encoding.md R83, R84, R86). -/
theorem decode_ok_iff_fields (w : Word) : (∃ i, decode w = .ok i) ↔ rsvField w = 0#10 ∧
    (((opField w = 0x0#4 ∨ opField w = 0x1#4 ∨ opField w = 0x2#4 ∨ opField w = 0xF#4) ∧
        chmField w = 0#2 ∧ cntField w = 0#16) ∨
      ((opField w = 0x3#4 ∨ opField w = 0x5#4) ∧ cntField w = 0#16) ∨ opField w = 0x4#4) := by
  constructor
  · rintro ⟨i, hi⟩
    obtain ⟨hrsv, hcases⟩ := decode_ok_cases hi
    refine ⟨hrsv, ?_⟩
    tauto
  · rintro ⟨hrsv, ⟨hop | hop | hop | hop, hchm, hcnt⟩ | ⟨hop | hop, hcnt⟩ | hop⟩
    · exact ⟨.nop, decode_ok_iff.2 ⟨rfl, formatC_eq hrsv hop hchm hcnt⟩⟩
    · exact ⟨.prepare, decode_ok_iff.2 ⟨rfl, formatC_eq hrsv hop hchm hcnt⟩⟩
    · exact ⟨.update, decode_ok_iff.2 ⟨rfl, formatC_eq hrsv hop hchm hcnt⟩⟩
    · exact ⟨.srst, decode_ok_iff.2 ⟨rfl, formatC_eq hrsv hop hchm hcnt⟩⟩
    · exact ⟨.setc _, decode_ok_iff.2 ⟨rfl, formatC_eq hrsv hop rfl hcnt⟩⟩
    · exact ⟨.hrst _, decode_ok_iff.2 ⟨rfl, formatC_eq hrsv hop rfl hcnt⟩⟩
    · exact ⟨.proc _ _, decode_ok_iff.2 (encode_proc_fields hrsv hop)⟩

/-- The words that are rejected, by their fields: the four items of 30_encoding.md R87. -/
theorem decode_error_iff_fields (w : Word) : (∃ why, decode w = .error why) ↔
    ((0x6#4 ≤ opField w ∧ opField w ≤ 0xE#4) ∨ rsvField w ≠ 0#10 ∨
      ((opField w = 0x0#4 ∨ opField w = 0x1#4 ∨ opField w = 0x2#4 ∨ opField w = 0xF#4) ∧
        (chmField w ≠ 0#2 ∨ cntField w ≠ 0#16)) ∨
      ((opField w = 0x3#4 ∨ opField w = 0x5#4) ∧ cntField w ≠ 0#16)) := by
  have hop := (opField w).isLt
  rw [decode_error_iff_not_ok, decode_ok_iff_fields]
  simp only [BitVec.le_def, ne_eq, ← BitVec.toNat_inj, BitVec.toNat_ofNat]
  omega

end Sys2Proof
end

section
/-! PROOFS. Words written to CMD: the error of an illegal word, and START, the four accesses that prepare the
block (30_encoding.md R87, R90, 60_exceptions.md R202, 70_reset_and_hazards.md R233). -/

namespace Sys2Proof.Machine

/-! ## Illegal words -/

/-- A host write to CMD of a word that is no command raises ILLEGAL_CMD (60_exceptions.md R202). -/
theorem step_illegal {s : State} {w : Word} {why : IllegalWord} {rest : List Event}
    (hpend : s.pending = .hostWrite cmdAddr w :: rest) (hw : decode w = .error why) :
    step s = .next (raiseError .illegalCmd (s.setPending rest)) := by
  simp [step, advance, hpend, perform, runCommand, hw]

/-- Settles O5: the fields of the rejected words, and the step on a write of one to CMD. -/
theorem illegalWords : Obligations.IllegalWords := by
  intro w op chm rsv cnt
  refine ⟨decode_error_iff_fields w, ?_⟩
  rintro ⟨why, hw⟩ s rest hpend
  exact step_illegal hpend hw

/-! ## START -/

/-- A run whose one step issues a command ends as the command does. -/
theorem run_last_command {s : State} {w : Word} {i : Instr} {rest : List Event}
    (hpend : s.pending = .hostWrite cmdAddr w :: rest) (hi : decode w = .ok i) :
    Host.Core.run core 1 s = exec i (s.setPending rest) := by
  obtain ⟨t, ht⟩ := exec_next i (s.setPending rest)
  exact (run_succ ((step_command hpend hi).trans ht)).trans ht.symm

/-- A run that begins with a host write to a register writes it and goes on. -/
theorem run_hostWrite_reg {k : Nat} {s : State} {a : HostAddr} {v : Word} {rest : List Event}
    (hpend : s.pending = .hostWrite a v :: rest) (ha : a.toNat < windowBase) (hne : a ≠ cmdAddr) :
    Host.Core.run core (k + 1) s = Host.Core.run core k (writeReg (s.setPending rest) a.toNat v) := by
  rw [run_succ (step_hostWrite hpend hne), hostWrite_reg _ v ha]

/-- The accesses of `START r, m` write the three arguments and issue PREPARE. -/
theorem run_start {s : State} (r : F64) (m : Word) (hpend : s.pending = []) :
    Host.Core.run core 4 (s.load [.start r m]) = exec .prepare { s with
      args := { s.args with fsLo := loWord r, fsHi := hiWord r, maxBlk := m } } := by
  have hload : (s.load [.start r m]).pending = [.hostWrite 0x0004#16 (loWord r),
      .hostWrite 0x0005#16 (hiWord r), .hostWrite 0x0003#16 m, issue .prepare] := by
    rw [State.load, hpend]
    rfl
  rw [run_hostWrite_reg hload (by decide) (by decide), run_hostWrite_reg rfl (by decide) (by decide),
    run_hostWrite_reg rfl (by decide) (by decide), run_last_command rfl (decodeOfEncode .prepare rfl)]
  refine congrArg (exec .prepare) ?_
  cases s
  cases hpend
  rfl

/-- PREPARE with a legal block size leaves the block prepared, and records no error. -/
theorem exec_prepare_legal {s : State} (hlo : 1 ≤ s.args.maxBlk.toNat)
    (hhi : s.args.maxBlk.toNat ≤ s.cfg.bufCap) :
    ∃ t, exec .prepare s = .next t ∧ t.status.prep = true ∧ t.clean = s.clean := by
  obtain ⟨t, ht⟩ := exec_next .prepare s
  rcases execPrepare_cases ht with ⟨-, -, rfl⟩ | ⟨hbad, -⟩
  · exact ⟨_, ht, rfl, rfl⟩
  · omega

/-- Settles O17: the three writes and PREPARE in turn, and PREPARE succeeds on a legal block size. -/
theorem startPreparesTheBlock : Obligations.StartPreparesTheBlock := by
  intro s r m hpend
  refine ⟨run_start r m hpend, fun hclean hlo hhi => ?_⟩
  obtain ⟨t, ht, hprep, hkeep⟩ := exec_prepare_legal (s := { s with
    args := { s.args with fsLo := loWord r, fsHi := hiWord r, maxBlk := m } }) hlo hhi
  exact ⟨t, ⟨(run_start r m hpend).trans ht, hkeep.trans hclean⟩, hprep⟩

end Sys2Proof.Machine
end

section
/-! PROOFS. RESOLVE by the note table (40_resolver.md R100 to R106). -/

namespace Sys2Proof.Machine

/-- A number with an entry in the note table resolves to that entry and the pitched-note gain. -/
theorem resolve_note (fBypass : F64) {n : Word} {f : F64} (h : noteHz n.toNat = some f) :
    resolve fBypass n = (f, gain24) := by
  rw [resolve, h]

/-- Settles O31: outside 1 to 12 the note table has no entry (`resolve_bypass`), and each listed pair is an
entry of the note table. -/
theorem resolveFollowsNoteTable : Obligations.ResolveFollowsNoteTable := by
  intro fBypass
  refine ⟨fun n hn => resolve_bypass fBypass hn, fun p hp => resolve_note fBypass ?_⟩
  revert p
  simp only [List.forall_mem_cons]
  exact ⟨rfl, rfl, rfl, rfl, rfl, rfl, rfl, rfl, rfl, rfl, rfl, rfl, List.forall_mem_nil _⟩

end Sys2Proof.Machine
end

section
/-! PROOFS. DESIGN operation by operation, and UPDATE on a prepared block (41_designer.md R120 to R129, R140,
R141). -/

namespace Sys2Proof.Machine

/-- The Nyquist clamp is one choice, by the comparison that it reports (R122). -/
theorem clampFreq_eq (clampRatio f fs : F64) : clampFreq clampRatio f fs =
    (if gt64 f (mul64 clampRatio fs) then mul64 clampRatio fs else f, gt64 f (mul64 clampRatio fs)) := by
  rw [clampFreq]
  cases gt64 f (mul64 clampRatio fs) <;> rfl

/-- DESIGN reports the flag of the Nyquist clamp (R120, R122). -/
theorem design_clamped (clampRatio f g fs : F64) :
    (design clampRatio f g fs).2 = (clampFreq clampRatio f fs).2 := by
  unfold design
  rfl

/-- Settles O32: the set is made from the sine and the cosine of `w0` (`design_coef`), operation by operation,
and the flag is the comparison of the clamp. -/
theorem designEvaluationOrder : Obligations.DesignEvaluationOrder := by
  intro clampRatio f g fs
  refine Prod.ext ?_ ?_
  · simp only [design_coef, clampFreq_eq, coefFrom, angular, twoPi, twoQ, one64, minusTwo64]
  · rw [design_clamped, clampFreq_eq]

/-- Loading a designed set writes both channels' coefficients and FCLAMP and nothing else (R141). -/
theorem loadDesign_eq (s : State) (d : Coef × Bool) : loadDesign s d =
    { s with coef := ⟨d.1, d.1⟩, status := { s.status with fclamp := d.2 } } := rfl

/-- Settles O25: UPDATE loads the set designed from NOTE, and a load has that frame. -/
theorem updateDesignsBothChannels : Obligations.UpdateDesignsBothChannels := by
  intro s hp
  rw [exec_update_prepared hp, loadDesign_eq, designNote]

end Sys2Proof.Machine
end

section
/-! PROOFS. PROC on a selected channel whose block need not be stored: the inputs are the words read, and the
recurrence runs over them whatever the other channel does (42_channel_filter.md R165, R166, R172, R173). -/

namespace Sys2Proof.Machine

/-! ## The words read and stored -/

/-- `xs` can be read from index `i` of channel `c`'s block on: a stored word as it is stored, any other word
freely (20_memory.md R79). -/
def ReadsFrom (m : Memory) (c : Channel) (i : Nat) (xs : List Word) : Prop :=
  ∀ j < xs.length, ∀ v, m.find (bufBase c + (i + j)) = some v → xs[j]? = some v

/-- The words from index `i` of channel `c`'s block on are `ys`. -/
def HoldsFrom (m : Memory) (c : Channel) (i : Nat) (ys : List Word) : Prop :=
  ∀ j < ys.length, m.find (bufBase c + (i + j)) = ys[j]?

section
variable {m m' : Memory} {c : Channel} {i : Nat}

theorem ReadsFrom.cons {x : Word} {xs : List Word} (hx : ∀ v, m.find (bufBase c + i) = some v → x = v)
    (hxs : ReadsFrom m c (i + 1) xs) : ReadsFrom m c i (x :: xs) := by
  intro j hj v hv
  cases j with
  | zero => exact congrArg some (hx v hv)
  | succ j =>
    rw [show i + (j + 1) = i + 1 + j by omega] at hv
    exact hxs j (Nat.lt_of_succ_lt_succ hj) v hv

theorem HoldsFrom.cons {y : Word} {ys : List Word} (hy : m.find (bufBase c + i) = some y)
    (hys : HoldsFrom m c (i + 1) ys) : HoldsFrom m c i (y :: ys) := by
  intro j hj
  cases j with
  | zero => exact hy
  | succ j =>
    have h := hys j (Nat.lt_of_succ_lt_succ hj)
    rwa [show i + 1 + j = i + (j + 1) by omega] at h

/-- Memories with the same words read the same. -/
theorem ReadsFrom.congr {xs : List Word} (h : ReadsFrom m c i xs)
    (hm : ∀ j < xs.length, m'.find (bufBase c + (i + j)) = m.find (bufBase c + (i + j))) :
    ReadsFrom m' c i xs :=
  fun j hj v hv => h j hj v ((hm j hj).symm.trans hv)

end

/-- One sample: some word is read, and the step on it is stored, in the block and in the history. -/
theorem procSample_filters (c : Channel) (i : Nat) (s : State)
    (hb : isBufWord s.cfg.bufCap (bufBase c + i) = true) :
    ∃ x, (∀ v, s.buf.find (bufBase c + i) = some v → x = v) ∧
      (procSample c i s).buf.find (bufBase c + i) = some (biquadStep (s.coef.get c) (s.hist.get c) x).1 ∧
      (procSample c i s).hist.get c = (biquadStep (s.coef.get c) (s.hist.get c) x).2 := by
  obtain ⟨x, d, m, hread, hsample, -, hstore, -⟩ := procSample_eq c i s
  rw [hsample, hstore hb]
  refine ⟨x, fun v hv => ?_, Memory.find_store_same _ _ _, PerChannel.get_set_same _ _ _⟩
  rw [memRead_stored s hb hv] at hread
  exact (congrArg Prod.fst hread).symm

/-- Samples from index `i` on: some words are read, and the recurrence over them is stored, in the block and in
the history. -/
theorem procSamples_filters (c : Channel) (n i : Nat) (s : State)
    (hb : ∀ j < n, isBufWord s.cfg.bufCap (bufBase c + (i + j)) = true) :
    ∃ xs, xs.length = n ∧ ReadsFrom s.buf c i xs ∧
      HoldsFrom (procSamples c n i s).buf c i (filterBlock (s.coef.get c) (s.hist.get c) xs).1 ∧
      (procSamples c n i s).hist.get c = (filterBlock (s.coef.get c) (s.hist.get c) xs).2 := by
  induction n generalizing i s with
  | zero => exact ⟨[], rfl, by simp [ReadsFrom], by simp [HoldsFrom, filterBlock], rfl⟩
  | succ n ih =>
    obtain ⟨x, hx, hout, hhist⟩ := procSample_filters c i s (hb 0 n.succ_pos)
    have hfirst := procSample_effect c i s
    have hcfg : (procSample c i s).cfg = s.cfg := by rw [hfirst.frame]
    have hcoef : (procSample c i s).coef = s.coef := by rw [hfirst.frame]
    have hshift (j : Nat) : i + 1 + j = i + (j + 1) := by omega
    obtain ⟨xs, hlen, hxs, houts, hhists⟩ := ih (i + 1) (procSample c i s) fun j hj => by
      rw [hcfg, hshift]
      exact hb (j + 1) (Nat.succ_lt_succ hj)
    rw [hcoef, hhist] at houts hhists
    have hkeep := (procSamples_effect c n (i + 1) (procSample c i s)).words (bufBase c + i) (by omega)
    exact ⟨x :: xs, congrArg Nat.succ hlen,
      .cons hx (hxs.congr fun j _ => (hfirst.words _ (by omega)).symm),
      .cons (hkeep.trans hout) houts, hhists⟩

/-! ## PROC -/

theorem HoldsFrom.blockWords {m : Memory} {c : Channel} {ys : List Word} (h : HoldsFrom m c 0 ys) :
    blockWords m c ys.length = ys.map some :=
  blockWords_of_elems fun j hj => by
    rw [← List.getElem?_eq_getElem hj, ← h j hj, Nat.zero_add]

/-- A ready channel is filtered over the words it reads. -/
theorem procChannel_filters {cnt : Nat} {s : State} (h : ProcReady s cnt) (c : Channel) :
    ∃ xs, xs.length = cnt ∧ ReadsFrom s.buf c 0 xs ∧ Filtered c cnt xs s (procChannel cnt s c) := by
  obtain ⟨xs, rfl, hxs, houts, hhist⟩ := procSamples_filters c cnt 0 s fun j hj => by
    rw [Nat.zero_add]
    exact h.word c j hj
  have hblock := houts.blockWords
  rw [filterBlock_length] at hblock
  rw [procChannel_eq]
  exact ⟨xs, rfl, hxs, hblock, hhist⟩

/-- The count of a ready PROC is within a buffer's window. -/
theorem ProcReady.count_le {s : State} {cnt : Nat} (h : ProcReady s cnt) : cnt ≤ 16384 := by
  obtain ⟨hcap, hmax⟩ := h.buf
  exact hcap.trans hmax

/-- PROC on a list of channels leaves the state ready. -/
theorem ProcFrame.ready {cs : List Channel} {cnt : Nat} {s t : State} (h : ProcFrame cs cnt s t)
    (hs : ProcReady s cnt) : ProcReady t cnt := by
  rw [h.frame]
  exact hs

/-- PROC leaves the words of a channel not in its list. -/
theorem ProcFrame.word {cs : List Channel} {cnt : Nat} {s t : State} (h : ProcFrame cs cnt s t)
    {c : Channel} (hc : c ∉ cs) (hn : cnt ≤ 16384) {j : Nat} (hj : j < cnt) :
    t.buf.find (bufBase c + j) = s.buf.find (bufBase c + j) :=
  List.map_inj_left.1 (h.block hc hn) j (List.mem_range.2 hj)

/-- A channel of a ready PROC is filtered over the words it reads: the channels before it leave its inputs, and
those after it its outputs. -/
theorem foldl_procChannel_filters {cs : List Channel} (hcs : cs.Nodup) {c : Channel} (hc : c ∈ cs) {cnt : Nat}
    {s : State} (h : ProcReady s cnt) : ∃ xs, xs.length = cnt ∧ ReadsFrom s.buf c 0 xs ∧
      Filtered c cnt xs s (cs.foldl (procChannel cnt) s) := by
  obtain ⟨before, after, rfl⟩ := List.mem_iff_append.1 hc
  rw [List.nodup_middle, List.nodup_cons, List.mem_append, not_or] at hcs
  obtain ⟨⟨hbefore, hafter⟩, -⟩ := hcs
  rw [List.foldl_append, List.foldl_cons]
  have hfirst := procFrame_foldl before cnt s
  generalize before.foldl (procChannel cnt) s = u at *
  have hlast := procFrame_foldl after cnt (procChannel cnt u c)
  obtain ⟨xs, hlen, hxs, hout, hhist⟩ := procChannel_filters (hfirst.ready h) c
  rw [hfirst.coef, hfirst.hist c hbefore] at hout hhist
  refine ⟨xs, hlen, hxs.congr fun j hj => ?_, (hlast.block hafter h.count_le).trans hout,
    (hlast.hist c hafter).trans hhist⟩
  rw [Nat.zero_add]
  exact (hfirst.word hbefore h.count_le (hlen ▸ hj)).symm

/-- A selected channel of a ready PROC is filtered over the words it reads. -/
theorem exec_proc_filters {chm : BitVec 2} {cnt : Nat} {s t : State} {c : Channel} (h : ProcReady s cnt)
    (hc : selects chm c = true) (ht : exec (.proc chm cnt) s = .next t) :
    ∃ xs, xs.length = cnt ∧ ReadsFrom s.buf c 0 xs ∧ Filtered c cnt xs s t := by
  rw [h.exec] at ht
  cases ht
  exact foldl_procChannel_filters (chans_nodup chm) (mem_chans.2 hc) h

/-! ## A channel depends on its own words -/

/-- A stored block can be read in one way only. -/
theorem ReadsFrom.unique {m m' : Memory} {c : Channel} {xs ys : List Word} (hxs : ReadsFrom m c 0 xs)
    (hys : ReadsFrom m' c 0 ys) (hlen : xs.length = ys.length)
    (hm : ∀ j < xs.length, m.find (bufBase c + j) ≠ none ∧
      m.find (bufBase c + j) = m'.find (bufBase c + j)) : xs = ys := by
  refine List.ext_getElem? fun j => ?_
  rcases Nat.lt_or_ge j xs.length with hj | hj
  · obtain ⟨hstored, hsame⟩ := hm j hj
    obtain ⟨v, hv⟩ := Option.ne_none_iff_exists'.1 hstored
    rw [hxs j hj v (by rwa [Nat.zero_add]), hys j (hlen ▸ hj) v (by rwa [Nat.zero_add, ← hsame])]
  · rw [List.getElem?_eq_none hj, List.getElem?_eq_none (hlen ▸ hj)]

/-- Settles O50: the same words are read in both states, and the recurrence over them is the same. -/
theorem outputDependsOnOwnChannel : Obligations.OutputDependsOnOwnChannel := by
  intro chm₁ chm₂ cnt s₁ s₂ t₁ t₂ c h₁ h₂ hc₁ hc₂ hcoef hhist hwords ht₁ ht₂
  obtain ⟨xs, hlen, hxs, hout₁, hhist₁⟩ := exec_proc_filters h₁ hc₁ ht₁
  obtain ⟨ys, rfl, hys, hout₂, hhist₂⟩ := exec_proc_filters h₂ hc₂ ht₂
  obtain rfl := hxs.unique hys hlen fun j hj => hwords j (hlen ▸ hj)
  rw [← hcoef, ← hhist] at hout₂ hhist₂
  exact ⟨hhist₁.trans hhist₂.symm,
    fun i hi => List.map_inj_left.1 (hout₁.trans hout₂.symm) i (List.mem_range.2 hi)⟩

end Sys2Proof.Machine
end

section
/-! PROOFS. The two channels of PROC in either order (42_channel_filter.md R165, R173). -/

namespace Sys2Proof.Machine

theorem PerChannel.ext_get {α : Type} {p q : PerChannel α} (h : ∀ c, p.get c = q.get c) : p = q :=
  congrArg₂ PerChannel.mk (h .ch0) (h .ch1)

/-- A stored block is a list of words. -/
theorem exists_blockWords {m : Memory} {c : Channel} {n : Nat}
    (h : ∀ i < n, m.find (bufBase c + i) ≠ none) : ∃ xs : List Word, blockWords m c n = xs.map some := by
  refine ⟨(List.range n).map fun i => (m.find (bufBase c + i)).getD 0#32, ?_⟩
  rw [blockWords, List.map_map]
  refine List.map_inj_left.2 fun i hi => ?_
  obtain ⟨v, hv⟩ := Option.ne_none_iff_exists'.1 (h i (List.mem_range.1 hi))
  simp [hv]

/-- A channel with a stored block draws no free word and keeps the canonical form. -/
theorem procChannel_stored {c : Channel} {cnt : Nat} {xs : List Word} {s : State} (h : ProcReady s cnt)
    (hx : blockWords s.buf c cnt = xs.map some) : (procChannel cnt s c).draws = s.draws ∧
      (s.buf.wf s.cfg.bufCap = true → (procChannel cnt s c).buf.wf s.cfg.bufCap = true) := by
  obtain ⟨rfl, hword⟩ := blockWords_elems hx
  obtain ⟨m, heq, -, -, hwf⟩ := procChannel_written c xs s h hword
  rw [heq]
  exact ⟨rfl, hwf⟩

section
variable {cs ds : List Channel} (hcs : cs.Nodup) {cnt : Nat} {xs : Channel → List Word} {s : State}
  (h : ProcReady s cnt) (hx : ∀ c ∈ cs, blockWords s.buf c cnt = (xs c).map some)
include hcs h hx

/-- Distinct channels with stored blocks draw no free word and keep the canonical form. -/
theorem foldl_procChannel_stored : (cs.foldl (procChannel cnt) s).draws = s.draws ∧
    (s.buf.wf s.cfg.bufCap = true → (cs.foldl (procChannel cnt) s).buf.wf s.cfg.bufCap = true) := by
  induction cs generalizing s with
  | nil => exact ⟨rfl, id⟩
  | cons c cs ih =>
    obtain ⟨hc, hcs⟩ := List.nodup_cons.1 hcs
    obtain ⟨hxc, hxs⟩ := List.forall_mem_cons.1 hx
    obtain ⟨hdraws, hwf⟩ := procChannel_stored h hxc
    have hfirst : ProcFrame [c] cnt s (procChannel cnt s c) := procFrame_foldl [c] cnt s
    have hcfg : (procChannel cnt s c).cfg = s.cfg := by rw [hfirst.frame]
    have hlast := ih hcs h.channel fun d hd => by
      have hdc : d ∉ [c] := by
        rw [List.mem_singleton]
        rintro rfl
        exact hc hd
      exact (hfirst.block hdc h.count_le).trans (hxs d hd)
    rw [hcfg] at hlast
    obtain ⟨hdraws', hwf'⟩ := hlast
    exact ⟨hdraws'.trans hdraws, fun hs => hwf' (hwf hs)⟩

variable (hp : cs.Perm ds)
include hp

/-- On stored blocks a channel's outputs and history do not depend on the order of the channels. -/
theorem foldl_procChannel_perm_channel {c : Channel} (hc : c ∈ cs) :
    blockWords (cs.foldl (procChannel cnt) s).buf c cnt = blockWords (ds.foldl (procChannel cnt) s).buf c cnt ∧
      (cs.foldl (procChannel cnt) s).hist.get c = (ds.foldl (procChannel cnt) s).hist.get c := by
  obtain ⟨hout, hhist⟩ := foldl_procChannel_filtered hcs h hx c hc
  obtain ⟨hout', hhist'⟩ := foldl_procChannel_filtered (hp.nodup hcs) h (fun d hd => hx d (hp.mem_iff.2 hd)) c
    (hp.mem_iff.1 hc)
  exact ⟨hout.trans hout'.symm, hhist.trans hhist'.symm⟩

theorem foldl_procChannel_perm_find (a : Nat) :
    (cs.foldl (procChannel cnt) s).buf.find a = (ds.foldl (procChannel cnt) s).buf.find a := by
  by_cases ha : ∃ c ∈ cs, inBlock c cnt a
  · obtain ⟨c, hc, hlo, hhi⟩ := ha
    obtain ⟨hblock, -⟩ := foldl_procChannel_perm_channel hcs h hx hp hc
    obtain ⟨j, rfl⟩ := Nat.exists_eq_add_of_le hlo
    exact List.map_inj_left.1 hblock j (List.mem_range.2 (Nat.lt_of_add_lt_add_left hhi))
  · have hout (c : Channel) (hc : c ∈ cs) : ¬ inBlock c cnt a := fun hin => ha ⟨c, hc, hin⟩
    exact ((procFrame_foldl cs cnt s).words a hout).trans
      ((procFrame_foldl ds cnt s).words a fun c hc => hout c (hp.mem_iff.2 hc)).symm

theorem foldl_procChannel_perm_hist :
    (cs.foldl (procChannel cnt) s).hist = (ds.foldl (procChannel cnt) s).hist := by
  refine PerChannel.ext_get fun c => ?_
  by_cases hc : c ∈ cs
  · obtain ⟨-, hhist⟩ := foldl_procChannel_perm_channel hcs h hx hp hc
    exact hhist
  · exact ((procFrame_foldl cs cnt s).hist c hc).trans
      ((procFrame_foldl ds cnt s).hist c (mt hp.mem_iff.2 hc)).symm

/-- On stored blocks PROC gives the same state in whatever order it takes its channels. -/
theorem foldl_procChannel_perm (hwf : s.buf.wf s.cfg.bufCap = true) :
    cs.foldl (procChannel cnt) s = ds.foldl (procChannel cnt) s := by
  have hfind := foldl_procChannel_perm_find hcs h hx hp
  have hhist := foldl_procChannel_perm_hist hcs h hx hp
  obtain ⟨hdraws, hcanon⟩ := foldl_procChannel_stored hcs h hx
  obtain ⟨hdraws', hcanon'⟩ := foldl_procChannel_stored (hp.nodup hcs) h fun d hd => hx d (hp.mem_iff.2 hd)
  have hframe := procFrame_foldl cs cnt s
  have hframe' := procFrame_foldl ds cnt s
  generalize cs.foldl (procChannel cnt) s = t at *
  generalize ds.foldl (procChannel cnt) s = u at *
  have hbuf : t.buf = u.buf := Memory.wf_ext _ _ _ (hcanon hwf) (hcanon' hwf) hfind
  have hrun : t.status.run = u.status.run := PerChannel.ext_get fun c => by
    rw [hframe.run, hframe'.run]
    simp only [hp.mem_iff]
  calc t = _ := hframe.frame
    _ = _ := by rw [hbuf, hhist, hdraws.trans hdraws'.symm, hrun]
    _ = u := hframe'.frame.symm

end

/-- PROC of one channel filters that channel. -/
theorem ProcReady.exec_one {chm : BitVec 2} {c : Channel} (hc : chans chm = [c]) {cnt : Nat} {s : State}
    (h : ProcReady s cnt) : Sys2Proof.Machine.exec (.proc chm cnt) s = .next (procChannel cnt s c) := by
  rw [h.exec, hc]
  rfl

/-- Settles O49: PROC takes channel 0 first, and the other order gives the same state. -/
theorem channelsAreIndependent : Obligations.ChannelsAreIndependent := by
  intro cnt s t h hwf hstored ht
  choose xs hxs using fun c => exists_blockWords (hstored c)
  have horder := foldl_procChannel_perm (cs := [.ch0, .ch1]) (by decide) h (fun c _ => hxs c)
    (List.Perm.swap _ _ _) hwf
  rw [h.exec] at ht
  cases ht
  exact ⟨⟨_, h.exec_one (chm := 1#2) rfl, h.channel.exec_one (chm := 2#2) rfl⟩,
    ⟨_, h.exec_one (chm := 2#2) rfl, (h.channel.exec_one (chm := 1#2) rfl).trans (congrArg _ horder.symm)⟩⟩

end Sys2Proof.Machine
end

section
/-! PROOFS. NaNs and silence in the recurrence (42_channel_filter.md R166, R169, R171). -/

namespace Sys2Proof.Machine

/-! ## A NaN stays -/

/-- A NaN among the five products makes the sample the canonical NaN. -/
theorem recurrence_nan {k : Coef} {h : Hist} {xi : F32}
    (hnan : isNaN32 (mul32 k.b0 xi) = true ∨ isNaN32 (mul32 k.b1 h.x1) = true ∨
      isNaN32 (mul32 k.b2 h.x2) = true ∨ isNaN32 (mul32 k.a1 h.y1) = true ∨
      isNaN32 (mul32 k.a2 h.y2) = true) : recurrence k h xi = 0x7FC00000#32 := by
  have hq : isNaN32 0x7FC00000#32 = true := by decide
  rw [recurrence]
  rcases hnan with hp | hp | hp | hp | hp
  · rw [add32_nan_left hp, add32_nan_left hq, sub32_nan_left hq, sub32_nan_left hq]
  · rw [add32_nan_right hp, add32_nan_left hq, sub32_nan_left hq, sub32_nan_left hq]
  · rw [add32_nan_right hp, sub32_nan_left hq, sub32_nan_left hq]
  · rw [sub32_nan_right hp, sub32_nan_left hq]
  · rw [sub32_nan_right hp]

/-- A NaN in Y1 or Y2 makes the sample the canonical NaN (R169). -/
theorem recurrence_nan_history (k : Coef) {h : Hist} (xi : F32)
    (hnan : isNaN32 h.y1 = true ∨ isNaN32 h.y2 = true) : recurrence k h xi = 0x7FC00000#32 := by
  refine recurrence_nan ?_
  rcases hnan with hy | hy
  · exact .inr (.inr (.inr (.inl (by rw [mul32_nan_right hy]; decide))))
  · exact .inr (.inr (.inr (.inr (by rw [mul32_nan_right hy]; decide))))

/-- A first output that is the canonical NaN, and in Y1 from then on, makes every output of the block that. -/
theorem filterBlock_nan (k : Coef) {h : Hist} (xs : List F32)
    (hfirst : ∀ x ∈ xs.head?, recurrence k h (daz32 x) = 0x7FC00000#32) :
    (∀ y ∈ (filterBlock k h xs).1, y = 0x7FC00000#32) ∧
      (xs ≠ [] → (filterBlock k h xs).2.y1 = 0x7FC00000#32) := by
  induction xs generalizing h with
  | nil => simp [filterBlock]
  | cons x xs ih =>
    have hx := hfirst x rfl
    have hnan : isNaN32 (biquadStep k h x).2.y1 = true := by
      rw [biquadStep_history, hx]
      rfl
    obtain ⟨houts, hlast⟩ := ih (h := (biquadStep k h x).2) fun x _ => recurrence_nan_history k _ (.inl hnan)
    rw [filterBlock, List.forall_mem_cons, biquadStep_output]
    refine ⟨⟨hx, houts⟩, fun _ => ?_⟩
    cases xs with
    | nil => rw [filterBlock, biquadStep_history, hx]
    | cons x' xs => exact hlast (List.cons_ne_nil x' xs)

/-- A word of a filtered block is an output. -/
theorem Filtered.word {c : Channel} {cnt : Nat} {xs : List Word} {s t : State} (h : Filtered c cnt xs s t)
    {i : Nat} (hi : i < cnt) :
    ∃ y ∈ (filterBlock (s.coef.get c) (s.hist.get c) xs).1, t.buf.find (bufBase c + i) = some y := by
  obtain ⟨hblock, -⟩ := h
  have hmem : t.buf.find (bufBase c + i) ∈ blockWords t.buf c cnt :=
    List.mem_map_of_mem (List.mem_range.2 hi)
  rw [hblock, List.mem_map] at hmem
  obtain ⟨y, hy, heq⟩ := hmem
  exact ⟨y, hy, heq.symm⟩

/-- Settles O48: whatever words are read, the NaN is in the first output, and each output is in Y1 after it. -/
theorem nanStaysInHistory : Obligations.NanStaysInHistory := by
  intro chm cnt s c h hc hcnt hnan
  obtain ⟨t, ht⟩ := exec_next (.proc chm cnt) s
  obtain ⟨xs, rfl, -, hfilt⟩ := exec_proc_filters h hc ht
  obtain ⟨houts, hlast⟩ := filterBlock_nan (s.coef.get c) xs fun x _ =>
    recurrence_nan_history (s.coef.get c) (daz32 x) hnan
  refine ⟨t, ht, fun i hi => ?_, ?_⟩
  · obtain ⟨y, hy, heq⟩ := hfilt.word hi
    rw [heq, houts y hy]
  · rw [hfilt.2]
    exact hlast (List.length_pos_iff.1 hcnt)

/-! ## Zeros -/

/-- The zero of a sign. -/
def zero32 (n : Bool) : F32 := if n then 0x80000000#32 else 0x00000000#32

theorem isZero32_zero32 (n : Bool) : isZero32 (zero32 n) = true := by cases n <;> decide

/-- A zero is that of its sign bit. -/
theorem isZero32_iff (v : F32) : isZero32 v = true ↔ v = zero32 v.msb := by
  refine ⟨fun h => ?_, fun h => h ▸ isZero32_zero32 _⟩
  rw [isZero32, decide_eq_true_eq] at h
  have hmag : v.toNat % 2 ^ 31 = 0 := h
  have hlt := v.isLt
  refine BitVec.eq_of_toNat_eq ?_
  rw [BitVec.msb_eq_decide, zero32]
  split
  case isTrue hs =>
    rw [decide_eq_true_eq] at hs
    simp only [BitVec.toNat_ofNat]
    omega
  case isFalse hs =>
    rw [decide_eq_true_eq] at hs
    simp only [BitVec.toNat_ofNat]
    omega

/-- A zero times a finite number is a zero, with the exclusive or of the signs (R13). -/
theorem mul32_zero32 {a : F32} (ha : isFinite32 a = true) (n : Bool) :
    mul32 a (zero32 n) = zero32 (xor a.msb n) := by
  obtain ⟨m, e, hu, -⟩ := unpack_daz32_finite ha
  obtain ⟨m', e', hu', hz⟩ := unpack_daz32_finite (a := zero32 n) (by cases n <;> decide)
  have hm' : m' = 0 := hz.2 (by cases n <;> decide)
  have hs : (zero32 n).msb = n := by cases n <;> decide
  rw [mul32, hu, hu', hm', hs, mulValue, Nat.mul_zero, roundSigned_zero]
  cases xor a.msb n <;> decide +kernel

/-- A zero times an infinity or a NaN is the canonical NaN (R13). -/
theorem mul32_nonfinite_zero {a : F32} (ha : isFinite32 a = false) : mul32 a 0#32 = 0x7FC00000#32 := by
  cases hn : isNaN32 a with
  | true => exact mul32_nan_left hn
  | false =>
    rw [isNaN32, isNaNBits, decide_eq_false_iff_not] at hn
    rw [isFinite32, decide_eq_false_iff_not] at ha
    have hinf : magBits binary32 a.toNat = infBits binary32 := by omega
    have hnormal : isSubnormal32 a = false := by
      rw [isSubnormal32, hinf]
      decide
    obtain ⟨m, e, hu, hz⟩ := unpack_daz32_finite (a := 0#32) (by decide)
    rw [mul32, daz32_of_normal hnormal, unpack_inf hinf, hu, hz.2 (by decide)]
    exact canonical_result

theorem add32_zero32 (m n : Bool) : add32 (zero32 m) (zero32 n) = zero32 (m && n) := by
  cases m <;> cases n <;> decide +kernel

theorem sub32_zero32 (m n : Bool) : sub32 (zero32 m) (zero32 n) = zero32 (m && !n) := by
  cases m <;> cases n <;> decide +kernel

/-! ## Silence -/

theorem Coef.finite_iff (k : Coef) : k.finite = true ↔ isFinite32 k.b0 = true ∧ isFinite32 k.b1 = true ∧
    isFinite32 k.b2 = true ∧ isFinite32 k.a1 = true ∧ isFinite32 k.a2 = true := by
  simp [Coef.finite, and_assoc]

theorem Hist.allZero_iff (h : Hist) : h.allZero = true ↔ isZero32 h.x1 = true ∧ isZero32 h.x2 = true ∧
    isZero32 h.y1 = true ∧ isZero32 h.y2 = true := by
  simp [Hist.allZero, and_assoc]

/-- With finite coefficients and zeros in the history a sample of +0.0 gives a zero, which is +0.0 unless the
first product is -0.0: a zero sum is -0.0 only if both terms are (R13, R171). -/
theorem recurrence_silence {k : Coef} (hk : k.finite = true) {h : Hist} (hh : h.allZero = true) :
    ∃ n, recurrence k h 0#32 = zero32 (k.b0.msb && n) := by
  obtain ⟨hb0, hb1, hb2, ha1, ha2⟩ := k.finite_iff.1 hk
  obtain ⟨hx1, hx2, hy1, hy2⟩ := h.allZero_iff.1 hh
  rw [isZero32_iff] at hx1 hx2 hy1 hy2
  rw [recurrence, hx1, hx2, hy1, hy2, show 0#32 = zero32 false from rfl, mul32_zero32 hb0, mul32_zero32 hb1,
    mul32_zero32 hb2, mul32_zero32 ha1, mul32_zero32 ha2, add32_zero32, add32_zero32, sub32_zero32,
    sub32_zero32]
  simp only [Bool.xor_false, Bool.and_assoc]
  exact ⟨_, rfl⟩

/-- With an infinite or NaN coefficient a sample of +0.0 on a zero history gives the canonical NaN (R171). -/
theorem recurrence_nonfinite {k : Coef} (hk : k.finite = false) :
    recurrence k Hist.zero 0#32 = 0x7FC00000#32 := by
  have hnan {a : F32} (ha : isFinite32 a = false) : isNaN32 (mul32 a 0#32) = true := by
    rw [mul32_nonfinite_zero ha]
    decide
  refine recurrence_nan ?_
  simp only [Coef.finite, Bool.and_eq_false_iff] at hk
  rcases hk with (((hb0 | hb1) | hb2) | ha1) | ha2
  · exact .inl (hnan hb0)
  · exact .inr (.inl (hnan hb1))
  · exact .inr (.inr (.inl (hnan hb2)))
  · exact .inr (.inr (.inr (.inl (hnan ha1))))
  · exact .inr (.inr (.inr (.inr (hnan ha2))))

/-- Silence in, silence out, over a block. -/
theorem filterBlock_silence {k : Coef} (hk : k.finite = true) {h : Hist} (hh : h.allZero = true)
    {xs : List F32} (hxs : ∀ x ∈ xs, x = 0#32) :
    (∀ y ∈ (filterBlock k h xs).1, ∃ n, y = zero32 (k.b0.msb && n)) ∧
      (filterBlock k h xs).2.allZero = true := by
  induction xs generalizing h with
  | nil => exact ⟨by simp [filterBlock], hh⟩
  | cons x xs ih =>
    obtain ⟨rfl, htail⟩ := List.forall_mem_cons.1 hxs
    have hdaz : daz32 0#32 = 0#32 := by decide
    have hout := recurrence_silence hk hh
    have hhist : (biquadStep k h 0#32).2.allZero = true := by
      obtain ⟨n, hn⟩ := hout
      obtain ⟨hx1, -, hy1, -⟩ := h.allZero_iff.1 hh
      rw [biquadStep_history, hdaz, hn, Hist.allZero_iff]
      exact ⟨isZero32_zero32 false, hx1, isZero32_zero32 _, hy1⟩
    obtain ⟨houts, hlast⟩ := ih hhist htail
    rw [filterBlock, List.forall_mem_cons, biquadStep_output, hdaz]
    exact ⟨⟨hout, houts⟩, hlast⟩

/-- Where every word of a block is stored with one value, that value is all that is read. -/
theorem ReadsFrom.eq_of_mem {m : Memory} {c : Channel} {xs : List Word} {v : Word} (h : ReadsFrom m c 0 xs)
    (hm : ∀ i < xs.length, m.find (bufBase c + i) = some v) : ∀ x ∈ xs, x = v := by
  intro x hx
  obtain ⟨j, hj, rfl⟩ := List.mem_iff_getElem.1 hx
  have hv := h j hj v (by rw [Nat.zero_add]; exact hm j hj)
  rw [List.getElem?_eq_getElem hj] at hv
  exact Option.some.inj hv

/-- Settles O47: by induction on the block, zeros stay zeros where the coefficients are finite; another
coefficient makes the first output a NaN, which stays. -/
theorem silenceInSilenceOut : Obligations.SilenceInSilenceOut := by
  intro chm cnt s c h hc hhist hin
  obtain ⟨t, ht⟩ := exec_next (.proc chm cnt) s
  obtain ⟨xs, rfl, hread, hfilt⟩ := exec_proc_filters h hc ht
  have hxs := hread.eq_of_mem hin
  refine ⟨t, ht, fun hk => ?_, fun hk i hi => ?_⟩
  · have hzero : (s.hist.get c).allZero = true := by
      rw [hhist]
      decide
    obtain ⟨houts, hlast⟩ := filterBlock_silence hk hzero hxs
    refine ⟨by rw [hfilt.2]; exact hlast, fun i hi => ?_, fun hb0 i hi => ?_⟩
    · obtain ⟨y, hy, heq⟩ := hfilt.word hi
      obtain ⟨n, rfl⟩ := houts y hy
      rw [heq]
      cases (s.coef.get c).b0.msb && n
      · exact .inl rfl
      · exact .inr rfl
    · obtain ⟨y, hy, heq⟩ := hfilt.word hi
      obtain ⟨n, rfl⟩ := houts y hy
      have hmsb : (s.coef.get c).b0.msb = false := hb0
      rw [heq, hmsb]
      rfl
  · obtain ⟨houts, -⟩ := filterBlock_nan (s.coef.get c) (h := s.hist.get c) xs fun x hx => by
      rw [hxs x (List.mem_of_mem_head? hx), hhist]
      exact recurrence_nonfinite hk
    obtain ⟨y, hy, heq⟩ := hfilt.word hi
    rw [heq, houts y hy]

end Sys2Proof.Machine
end

section
/-! PROOFS. PREPARE, SETC, HRST and their operations, each by its exact next state (42_channel_filter.md R150 to
R154, R160, R166, R170). -/

namespace Sys2Proof.Machine

/-! ## CLAMPFS and BIQUAD_STEP -/

/-- Settles O33: line by line; the first two lines give one value. -/
theorem clampFsFollowsRule : Obligations.ClampFsFollowsRule := by
  intro fsMin fsMax r
  refine ⟨fun hn => ?_, fun hlo => ?_, fun hn hlo hhi => ?_, fun hn hlo hhi => ?_⟩
  · rw [clampFs, if_pos hn]
  · rw [clampFs, if_pos hlo, ite_self]
  · simp [clampFs, hn, hlo, hhi]
  · simp [clampFs, hn, hlo, hhi]

/-- Settles O30: the output and the history of a step, with the recurrence written out. -/
theorem biquadStepOrder : Obligations.BiquadStepOrder := by
  intro k h x
  refine Prod.ext ((biquadStep_output k h x).trans ?_) ((biquadStep_history k h x).trans ?_)
  · rw [recurrence]
  · rw [recurrence]

/-! ## PREPARE -/

/-- PREPARE on a legal block size configures and designs. -/
theorem exec_prepare_eq_load {s : State} (hlo : 1 ≤ s.args.maxBlk.toNat)
    (hhi : s.args.maxBlk.toNat ≤ s.cfg.bufCap) : exec .prepare s =
      .next (loadDesign (configure s) (designNote s.cfg s.note (configure s).fs)) := by
  obtain ⟨t, ht⟩ := exec_next .prepare s
  rcases execPrepare_cases ht with ⟨-, -, rfl⟩ | ⟨hbad, -⟩
  · exact ht
  · omega

/-- PREPARE on an illegal block size raises MAXBLK_RANGE. -/
theorem exec_prepare_eq_raise {s : State} (h : s.args.maxBlk.toNat = 0 ∨ s.cfg.bufCap < s.args.maxBlk.toNat) :
    exec .prepare s = .next (raiseError .maxBlkRange s) := if_pos h

/-- Settles O22: the configuration, then the load of the set designed at the clamped rate. -/
theorem prepareConfiguresAndDesigns : Obligations.PrepareConfiguresAndDesigns := by
  intro s hlo hhi
  rw [exec_prepare_eq_load hlo hhi, loadDesign_eq, configure_eq]
  rfl

/-- Settles O23: by the error action, which writes ERR and ECODE only. -/
theorem prepareRejectsBlockSize : Obligations.PrepareRejectsBlockSize := by
  intro s h
  rw [exec_prepare_eq_raise h, raiseError_eq]
  rfl

/-- An error raised twice is recorded as once: the first code is kept (60_exceptions.md R201). -/
theorem raiseError_idem (e : ErrorCode) (s : State) : raiseError e (raiseError e s) = raiseError e s := by
  rw [raiseError_eq e (raiseError e s), raiseError_eq]
  obtain ⟨hcode, -⟩ := e.code_range
  by_cases h : s.status.ecode = 0#4 <;> simp [h, hcode]

section
variable (s : State) (d : Coef × Bool)
@[simp] theorem loadDesign_cfg : (loadDesign s d).cfg = s.cfg := rfl
@[simp] theorem loadDesign_note : (loadDesign s d).note = s.note := rfl
@[simp] theorem loadDesign_args : (loadDesign s d).args = s.args := rfl
@[simp] theorem loadDesign_fs : (loadDesign s d).fs = s.fs := rfl
@[simp] theorem loadDesign_loadDesign : loadDesign (loadDesign s d) d = loadDesign s d := rfl
@[simp] theorem configure_cfg : (configure s).cfg = s.cfg := by rw [configure_eq]
@[simp] theorem configure_note : (configure s).note = s.note := by rw [configure_eq]
@[simp] theorem configure_args : (configure s).args = s.args := by rw [configure_eq]

/-- PREPARE's state is configured already: its arguments and its limits are those it was configured from. -/
@[simp] theorem configure_loadDesign_configure :
    configure (loadDesign (configure s) d) = loadDesign (configure s) d := by
  rw [configure_eq (loadDesign _ _), loadDesign_eq, configure_eq]

end

/-- Settles O24: a second PREPARE finds the block configured and designs from the same NOTE and rate; an error
is recorded once. -/
theorem prepareIsIdempotent : Obligations.PrepareIsIdempotent := by
  intro s t h
  rcases execPrepare_cases h with ⟨hlo, hhi, rfl⟩ | ⟨hbad, rfl⟩
  · rw [exec_prepare_eq_load (by simpa using hlo) (by simpa using hhi)]
    simp
  · rw [exec_prepare_eq_raise (s := raiseError _ s) hbad, raiseError_idem]

/-! ## SETC and HRST -/

/-- A command word with OP and CHM, written as in 30_encoding.md R81, is the format of these fields. -/
theorem or_shift_eq_formatC (op : BitVec 4) (chm : BitVec 2) :
    op.setWidth 32 ||| chm.setWidth 32 <<< 4 = formatC op chm 0#16 := by
  revert op chm
  decide +kernel

/-- Settles O26: the encoding of SETC decodes to it, and the load or the error is its whole effect. -/
theorem setcCopiesArguments : Obligations.SetcCopiesArguments := by
  intro chm
  refine ⟨?_, fun s hp => ?_, fun s hp => ?_⟩
  · exact (congrArg decode (or_shift_eq_formatC 3#4 chm)).trans (decodeOfEncode (.setc chm) rfl)
  · rw [exec, execSetc, if_pos hp, loadCoefs_chans]
  · rw [exec, execSetc, if_neg (by simp [hp]), raiseError_eq]
    rfl

/-- Settles O27: the encoding of HRST decodes to it, and silencing the selected channels is its whole effect. -/
theorem hrstZeroesSelectedHistories : Obligations.HrstZeroesSelectedHistories := by
  intro chm
  refine ⟨?_, fun s => ?_⟩
  · exact (congrArg decode (or_shift_eq_formatC 5#4 chm)).trans (decodeOfEncode (.hrst chm) rfl)
  · rw [exec, execHrst, foldl_silence]
    rfl

end Sys2Proof.Machine
end

section
/-! PROOFS. The control commands NOP and SRST (43_control.md R190 to R192). -/

namespace Sys2Proof.Machine

/-! ## NOP -/

/-- NOP is the only command of OP 0, and its word is all zeros (30_encoding.md R84, 43_control.md R190). -/
theorem eq_zero_of_decode_ok_of_op_zero {w : Word} {i : Instr} (hop : opField w = 0#4)
    (hi : decode w = .ok i) : w = 0x00000000#32 := by
  obtain ⟨hrsv, hcases⟩ := decode_ok_cases hi
  rw [hop] at hcases
  obtain ⟨-, -, hchm, hcnt⟩ : i = .nop ∧ 0#4 = 0x0#4 ∧ chmField w = 0#2 ∧ cntField w = 0#16 := by
    simpa using hcases
  exact (formatC_eq hrsv hop hchm hcnt).symm

/-- Settles O20: the zero word is the encoding of NOP, and no other word of OP 0 decodes. -/
theorem nopHasNoEffect : Obligations.NopHasNoEffect := by
  refine ⟨fun s => rfl, fun s rest hpend => step_command hpend (decodeOfEncode .nop rfl), fun w hop hne => ?_⟩
  rw [decode_error_iff_not_ok]
  rintro ⟨i, hi⟩
  exact hne (eq_zero_of_decode_ok_of_op_zero hop hi)

/-! ## SRST -/

/-- No command but SRST clears ERR or changes a recorded code (43_control.md R191). -/
theorem exec_status_sticky {i : Instr} {s t : State} (hne : i ≠ .srst) (h : exec i s = .next t) :
    (s.status.err = true → t.status.err = true) ∧
      (s.status.ecode ≠ 0#4 → t.status.ecode = s.status.ecode) := by
  rcases exec_status h with ⟨r, c, heq⟩ | ⟨e, heq⟩ | ⟨-, -, -, r, c, k, heq⟩ | ⟨rfl, -⟩
  · rw [heq]; exact ⟨id, fun _ => rfl⟩
  · rw [heq]
    obtain ⟨herr, hcode⟩ := raiseError_sticky e s
    exact ⟨fun _ => herr, hcode⟩
  · rw [heq]; exact ⟨id, fun _ => rfl⟩
  · exact absurd rfl hne

/-- Settles O21: the encoding of SRST decodes to it, it writes the reset values of those fields, and every
other command's STATUS is one of `exec_status`. -/
theorem srstResetsRegisters : Obligations.SrstResetsRegisters :=
  ⟨decodeOfEncode .srst rfl, fun _ _ _ hne h => exec_status_sticky hne h, fun _ => rfl⟩

/-- A soft reset is a power-on but for NOTE, the buffers and the model's own fields, which it keeps
(43_control.md R192, logs 2, 5 and 7). -/
theorem softReset_eq_powerOn (s : State) : softReset s = { powerOn s with
    note := s.note
    buf := s.buf
    pending := s.pending
    hostReply := s.hostReply
    ctrlReply := s.ctrlReply
    draws := s.draws } := rfl

/-- Settles O19: the power-on is a step with NOTE 0 and no buffer word, and SRST is a soft reset. -/
theorem srstIsPowerOnButNoteAndBuffers : Obligations.SrstIsPowerOnButNoteAndBuffers := fun s _ hpend =>
  ⟨_, step_powerOn hpend, rfl, fun _ => rfl, congrArg Host.Outcome.next (softReset_eq_powerOn s)⟩

end Sys2Proof.Machine
end

section
/-! PROOFS. The errors: which one a command raises, in the order of priority, what it then leaves unchanged, and
that none stops the block (60_exceptions.md R200 to R209, R218). -/

namespace Sys2Proof.Machine

/-! ## The error of a command -/

/-- The error a command raises in a state, if any (60_exceptions.md R203 to R206); NOT_PREPARED goes before
COUNT_RANGE (R205). -/
def raisedError (s : State) : Instr → Option ErrorCode
  | .prepare =>
    if s.args.maxBlk.toNat = 0 ∨ s.cfg.bufCap < s.args.maxBlk.toNat then some .maxBlkRange else none
  | .update => if s.status.prep then none else some .notPrepared
  | .setc _ => if s.status.prep then none else some .notPrepared
  | .proc _ cnt =>
    if s.status.prep then (if s.maxBlk.toNat < cnt then some .countRange else none) else some .notPrepared
  | .nop => none
  | .hrst _ => none
  | .srst => none

/-- A command raises its error and does nothing else; or it has none, and keeps ERR and ECODE, or is an SRST and
resets STATUS. -/
theorem exec_raises_or_keeps {i : Instr} {s t : State} (h : exec i s = .next t) :
    (∃ e, raisedError s i = some e ∧ t = raiseError e s) ∨
    (raisedError s i = none ∧
      ((t.status.err = s.status.err ∧ t.status.ecode = s.status.ecode) ∨ t.status = Status.reset)) := by
  cases i with
  | nop => cases h; exact .inr ⟨rfl, .inl ⟨rfl, rfl⟩⟩
  | prepare =>
    rcases execPrepare_cases h with ⟨hlo, hhi, rfl⟩ | ⟨hbad, rfl⟩
    · exact .inr ⟨if_neg (by omega), .inl ⟨rfl, rfl⟩⟩
    · exact .inl ⟨_, if_pos hbad, rfl⟩
  | update =>
    rcases execUpdate_cases h with ⟨hp, rfl⟩ | ⟨hp, rfl⟩
    · exact .inr ⟨if_pos hp, .inl ⟨rfl, rfl⟩⟩
    · exact .inl ⟨_, if_neg (by simp [hp]), rfl⟩
  | setc chm =>
    rcases execSetc_cases h with ⟨hp, rfl⟩ | ⟨hp, rfl⟩
    · rw [loadCoefs_chans]
      exact .inr ⟨if_pos hp, .inl ⟨rfl, rfl⟩⟩
    · exact .inl ⟨_, if_neg (by simp [hp]), rfl⟩
  | proc chm cnt =>
    rcases execProc_cases h with ⟨hp, hcnt, rfl⟩ | ⟨hp, hcnt, rfl⟩ | ⟨hp, rfl⟩
    · rw [(procFrame_foldl (chans chm) cnt s).frame]
      exact .inr ⟨(if_pos hp).trans (if_neg (by omega)), .inl ⟨rfl, rfl⟩⟩
    · exact .inl ⟨_, (if_pos hp).trans (if_pos hcnt), rfl⟩
    · exact .inl ⟨_, if_neg (by simp [hp]), rfl⟩
  | hrst chm =>
    cases h
    rw [foldl_silence]
    exact .inr ⟨rfl, .inl ⟨rfl, rfl⟩⟩
  | srst => cases h; exact .inr ⟨rfl, .inr rfl⟩

/-- A command that has an error raises it, and does nothing else (60_exceptions.md R201). -/
theorem exec_of_raisedError {i : Instr} {s : State} {e : ErrorCode} (he : raisedError s i = some e) :
    exec i s = .next (raiseError e s) := by
  obtain ⟨t, ht⟩ := exec_next i s
  rcases exec_raises_or_keeps ht with ⟨e', he', rfl⟩ | ⟨hnone, -⟩
  · cases he.symm.trans he'
    exact ht
  · cases he.symm.trans hnone

/-- Settles O35: the code of each command is that of its error, and a clean block records it. -/
theorem commandErrors : Obligations.CommandErrors := by
  intro i s t herr hcode h code
  have hraised : code = (raisedError s i).elim 0#4 ErrorCode.code := by
    cases i with
    | nop | hrst | srst => rfl
    | prepare => simp only [code, raisedError]; split <;> rfl
    | update | setc => simp only [code, raisedError]; split <;> rfl
    | proc => simp only [code, raisedError]; split_ifs <;> rfl
  rw [hraised]
  rcases exec_raises_or_keeps h with ⟨e, he, rfl⟩ | ⟨hnone, hkeeps⟩
  · rw [he]
    obtain ⟨hne, -⟩ := e.code_range
    exact ⟨if_pos hcode, fun _ => hne, fun _ => rfl⟩
  · have hclean : t.status.err = false ∧ t.status.ecode = 0#4 := by
      rcases hkeeps with ⟨herr', hcode'⟩ | hreset
      · exact ⟨herr'.trans herr, hcode'.trans hcode⟩
      · rw [hreset]; exact ⟨rfl, rfl⟩
    simp [hnone, hclean]

/-- Settles O36: a command without an error keeps ERR or resets it. -/
theorem raisingCommandHasNoOtherEffect : Obligations.RaisingCommandHasNoOtherEffect := by
  intro i s t h herr herr'
  rcases exec_raises_or_keeps h with ⟨e, -, rfl⟩ | ⟨-, ⟨hkeeps, -⟩ | hreset⟩
  · obtain ⟨hne, -⟩ := e.code_range
    exact ⟨e.code, hne, raiseError_eq e s⟩
  · simp [hkeeps, herr] at herr'
  · simp [hreset, Status.reset] at herr'

/-- Settles O37: NOT_PREPARED is the error of all three. -/
theorem unpreparedCommandsRaise : Obligations.UnpreparedCommandsRaise := by
  intro s chm cnt hp
  have hne : ¬ s.status.prep = true := by simp [hp]
  exact ⟨exec_of_raisedError (i := .update) (e := .notPrepared) (if_neg hne),
    exec_of_raisedError (i := .setc chm) (e := .notPrepared) (if_neg hne),
    exec_of_raisedError (i := .proc chm cnt) (e := .notPrepared) (if_neg hne)⟩

/-- Settles O38: COUNT_RANGE is the error of such a PROC, whatever its CHM. -/
theorem procCountRange : Obligations.ProcCountRange := fun _ _ _ hp hcnt =>
  exec_of_raisedError (i := .proc _ _) (e := .countRange) ((if_pos hp).trans (if_pos hcnt))

/-! ## The block never stops -/

/-- Settles O8: the step with no event. -/
theorem blockWaits : Obligations.BlockWaits := by
  intro s hpend
  rw [step, advance, hpend]

/-- A write to CMD answers a next state, be its word a command or not (60_exceptions.md R202, R208). -/
theorem runCommand_next (w : Word) (s : State) : ∃ t, runCommand w s = .next t := by
  unfold runCommand
  split
  · exact exec_next _ s
  · exact ⟨_, rfl⟩

/-- Every event but an access of another width has a next state (20_memory.md R62). -/
theorem perform_next {e : Event} (he : ∀ port bits, e ≠ .otherWidth port bits) (s : State) :
    ∃ t, perform e s = .next t := by
  cases e with
  | hostRead a => exact ⟨_, rfl⟩
  | hostWrite a v =>
    rw [perform]
    split
    · exact runCommand_next v s
    · exact ⟨_, rfl⟩
  | ctrlRead => exact ⟨_, rfl⟩
  | ctrlWrite v => exact ⟨_, rfl⟩
  | otherWidth port bits => exact absurd rfl (he port bits)
  | powerOn => exact ⟨_, rfl⟩

/-- Settles O9: every command answers a next state, and so does every event but those excluded. -/
theorem blockNeverStops : Obligations.BlockNeverStops := by
  refine ⟨exec_next, fun s hs => ?_⟩
  cases hpend : s.pending with
  | nil => exact ⟨s, blockWaits s hpend⟩
  | cons e rest =>
    rw [step, advance, hpend]
    refine perform_next (fun port bits he => hs port bits ?_) _
    rw [hpend, he, List.head?_cons]

end Sys2Proof.Machine
end
